-- ==== Sys2Proof/Word.lean ====
section
/-! DEFINITION. The machine's word, byte and register-number types (spec/00_scope.md R6, R8; spec/10_state.md R20). -/

namespace Sys2Proof

/-- Every register and every extension word is a 32-bit pattern (R8). -/
abbrev Word := BitVec 32

/-- A byte of data memory, of a latch or of an output buffer (R32, R33). -/
abbrev Byte := BitVec 8

/-- A general-register id, 0..15 (R20). -/
abbrev Reg := Fin 16

/-- The two interrupt lines, which are also the two input ports (R260, R310). -/
inductive Line where
  | line0
  | line1
deriving DecidableEq, Repr

end Sys2Proof
end

