-- ==== Sys2Proof/Machine/Memory.lean ====
section
/-! DEFINITION. Maps from numbers as plain data in one canonical form, and data memory as one of them
(spec/20_memory.md R52 to R57). A table lists (key, value) pairs with strictly rising keys and no value equal to
what an unlisted key reads as, so equal maps are equal lists (log 16). -/

namespace Sys2Proof.Machine

/-- The value at a key; `d` is what an unlisted key reads as. -/
def tableRead {α : Type} (d : α) : List (Nat × α) → Nat → α
  | [], _ => d
  | (k, v) :: m, a => if a = k then v else tableRead d m a

/-- Write one key, keeping the canonical form: a value equal to `d` is not listed. -/
def tableWrite {α : Type} [DecidableEq α] (d : α) : List (Nat × α) → Nat → α → List (Nat × α)
  | [], a, v => if v = d then [] else [(a, v)]
  | (k, w) :: m, a, v =>
    if a < k then (if v = d then (k, w) :: m else (a, v) :: (k, w) :: m)
    else if a = k then (if v = d then m else (a, v) :: m)
    else (k, w) :: tableWrite d m a v

/-- The entry at a key of a partial map. -/
def tableFind {α : Type} : List (Nat × α) → Nat → Option α
  | [], _ => none
  | (k, v) :: m, a => if a = k then some v else tableFind m a

/-- Remove the entry at a key. -/
def tableErase {α : Type} : List (Nat × α) → Nat → List (Nat × α)
  | [], _ => []
  | (k, v) :: m, a => if a = k then tableErase m a else (k, v) :: tableErase m a

/-- Put an entry into a partial map, keeping the keys rising. -/
def tableInsert {α : Type} : List (Nat × α) → Nat → α → List (Nat × α)
  | [], a, v => [(a, v)]
  | (k, w) :: m, a, v =>
    if a < k then (a, v) :: (k, w) :: m
    else if a = k then (a, v) :: m
    else (k, w) :: tableInsert m a v

/-- Every key is above `lo`, and the keys rise strictly. -/
def keysRise {α : Type} : Nat → List (Nat × α) → Bool
  | _, [] => true
  | lo, (k, _) :: m => decide (lo ≤ k) && keysRise (k + 1) m

/-- The canonical form of a table whose unlisted keys read as `d`. -/
def tableWf {α : Type} [DecidableEq α] (d : α) (m : List (Nat × α)) : Bool :=
  keysRise 0 m && m.all (fun e => decide (e.2 ≠ d))

/-! ### Data memory -/

/-- Data memory (R52): an unlisted byte reads as 0x00 (R53). -/
abbrev Memory := List Host.Cell

/-- The canonical form of data memory. -/
def Memory.wf (m : Memory) : Bool := tableWf 0#8 m

/-- One byte (R55). -/
def Memory.read (m : Memory) (a : Nat) : Byte := tableRead 0#8 m a

/-- Write one byte (R55). -/
def Memory.write (m : Memory) (a : Nat) (b : Byte) : Memory := tableWrite 0#8 m a b

/-- The data image at reset (R53), its first byte at address `a`. -/
def Memory.ofBytes : Nat → List Byte → Memory
  | _, [] => []
  | a, b :: bs => if b = 0#8 then Memory.ofBytes (a + 1) bs else (a, b) :: Memory.ofBytes (a + 1) bs

end Sys2Proof.Machine
end

