-- ==== Sys2Proof/Config.lean ====
section
/-! DEFINITION. What the spec leaves to the host of a run (spec/00_scope.md R6, "OPEN"), as it stands in
`State.reset`, where no host has given it. Every one of these is a field of State (a run parameter), so no
definition of the model but `State.reset` reads this file. -/

namespace Sys2Proof

/-- `VEC0` in `State.reset`: uninterpreted. DESIGN CHOICE (log 3), safe: R6 and D13 leave it OPEN. -/
opaque Config.vec0 : Word

/-- `VEC1` in `State.reset`: uninterpreted. DESIGN CHOICE (log 3), safe: R6 and D13 leave it OPEN. -/
opaque Config.vec1 : Word

/-- `DMEM_SIZE` in `State.reset`: the largest size D9 allows, so that every byte address exists.
DESIGN CHOICE (log 2), unsafe: R6 leaves it OPEN. -/
def Config.resetDmemSize : Nat := 2 ^ 32

/-- `TICK_BUDGET` in `State.reset`. DESIGN CHOICE (log 4), unsafe: it is a run parameter the host gives (R6, D15). -/
def Config.resetBudget : Nat := 2 ^ 64

end Sys2Proof
end

