-- ==== Sys2Proof/Syntax.lean ====
section
/-! DEFINITION. The instructions: one constructor for each of the 37 rows of the opcode map
(spec/30_encoding.md R90), with the register fields that row's microcode reads. An immediate, address, target or
port number is no field: it is an extension word, which the instruction reads at `pc` in its stage 0 (R81, R91). -/

namespace Sys2Proof

/-- One constructor per valid (opcode, mode) pair, in the order of R90. -/
inductive Instr where
  | nop
  | halt
  | movReg (rd rs1 : Reg)
  | movImm (rd : Reg)
  | ldAbs (rd : Reg)
  | ldInd (rd rs1 : Reg)
  | ldbAbs (rd : Reg)
  | ldbInd (rd rs1 : Reg)
  | stAbs (rs1 : Reg)
  | stInd (rs1 rs2 : Reg)
  | stbAbs (rs1 : Reg)
  | stbInd (rs1 rs2 : Reg)
  | addReg (rd rs1 rs2 : Reg)
  | addImm (rd rs1 : Reg)
  | subReg (rd rs1 rs2 : Reg)
  | subImm (rd rs1 : Reg)
  | mulReg (rd rs1 rs2 : Reg)
  | mulImm (rd rs1 : Reg)
  | divReg (rd rs1 rs2 : Reg)
  | divImm (rd rs1 : Reg)
  | cmpReg (rs1 rs2 : Reg)
  | cmpImm (rs1 : Reg)
  | jmp
  | je
  | jne
  | jl
  | jle
  | jg
  | jge
  | push (rs1 : Reg)
  | pop (rd : Reg)
  | inPort (rd : Reg)
  | outPort (rs1 : Reg)
  | outlPort (rs1 : Reg)
  | ei
  | di
  | iret
deriving DecidableEq, Repr

end Sys2Proof
end

