-- ==== Sys2Proof/WellFormed.lean ====
section
/-! DEFINITION. The checks the spec puts on what comes from outside the machine: the encoder's five numbers (R83),
the pair (R86, R90), the I/O schedule (R261) and the run parameters (R307). A term of `Instr` is well-formed by its
type: a register operand is a `Fin 16` and a constructor is a valid pair. -/

namespace Sys2Proof

/-- The encoder's input, before any check (R83). -/
structure RawFields where
  op : Nat
  mode : Nat
  rd : Nat
  rs1 : Nat
  rs2 : Nat
deriving DecidableEq, Repr

/-- R83: "It requires 0 ≤ op < 64, 0 ≤ mode < 32, and 0 ≤ rd, rs1, rs2 < 16". -/
def RawFields.wf (f : RawFields) : Bool :=
  f.op < 64 && f.mode < 32 && f.rd < 16 && f.rs1 < 16 && f.rs2 < 16

/-- An (opcode, mode) pair is valid if it is a row of R90 (R86). -/
def pairValid (op mode : Nat) : Bool :=
  match op with
  | 0x00 | 0x01 => mode == 0
  | 0x02 => mode == 1 || mode == 2
  | 0x03 | 0x04 | 0x05 | 0x06 => mode == 3 || mode == 4
  | 0x07 | 0x08 | 0x09 | 0x0A | 0x0B => mode == 1 || mode == 2
  | 0x0C | 0x0D | 0x0E | 0x0F | 0x10 | 0x11 | 0x12 => mode == 3
  | 0x13 | 0x14 => mode == 1
  | 0x15 | 0x16 | 0x17 => mode == 5
  | 0x18 | 0x19 | 0x1A => mode == 0
  | _ => false

/-- One entry of the host's I/O schedule, "{tick, interrupt-line, value}", before any check (R261). -/
structure SchedEntry where
  tick : Nat
  line : Nat
  value : Int
deriving DecidableEq, Repr

/-- R261: "well-formed when every `line` is 0 or 1 and no two entries share a `tick`". -/
def scheduleWf : List SchedEntry → Bool
  | [] => true
  | e :: es => (e.line == 0 || e.line == 1) && es.all (fun e' => e'.tick != e.tick) && scheduleWf es

/-- The run parameters the host gives (R330), before any check. `debug` is the debug flag, which affects no
architectural state (R324). -/
structure RunInput where
  instrImage : List Byte
  dataImage : List Byte
  schedule : List SchedEntry
  budget : Nat
  debug : Bool
  dmemSize : Nat
  vec0 : Option Word
  vec1 : Option Word
deriving DecidableEq, Repr

/-- The run parameters a machine can be built from (R307). The bound on DMEM_SIZE is D9's; the bound on the image
is R24's "`IMEM_WORDS` < 2^32" (log 15). -/
def RunInput.wf (r : RunInput) : Bool :=
  r.instrImage.length % 4 == 0 && r.instrImage.length / 4 < 2 ^ 32 && r.dataImage.length ≤ r.dmemSize
    && r.dmemSize ≤ 2 ^ 32 && scheduleWf r.schedule && r.vec0.isSome && r.vec1.isSome

end Sys2Proof
end

