-- ==== Sys2Proof/Decode.lean ====
section
/-! DEFINITION. The decoder block (spec/30_encoding.md R80 to R96) and, after it, the encoder. Both are pure. -/

namespace Sys2Proof

/-- The decoder's outputs (R82): five fields, and nothing for the reserved bits. -/
structure Fields where
  op : BitVec 6
  mode : BitVec 5
  rd : BitVec 4
  rs1 : BitVec 4
  rs2 : BitVec 4
deriving DecidableEq, Repr

/-- Why a word is no instruction: its pair is not in the microcode table (R86). -/
inductive DecodeReject where
  | unknownPair (op : BitVec 6) (mode : BitVec 5)
deriving DecidableEq, Repr

/-! ### The decoder -/

/-- R82: the five fields of an instruction word; bits 8:0 are read by nothing. -/
def fieldsOf (w : Word) : Fields where
  op := w.extractLsb' 26 6
  mode := w.extractLsb' 21 5
  rd := w.extractLsb' 17 4
  rs1 := w.extractLsb' 13 4
  rs2 := w.extractLsb' 9 4

/-- The register a 4-bit field names (R20). -/
def regOf (b : BitVec 4) : Reg := b.toFin

/-- R86, R90: the microcode table's key is (op, mode); a register field the pair does not list is ignored (R93). -/
def lookup (f : Fields) : Except DecodeReject Instr :=
  match f.op.toNat, f.mode.toNat with
  | 0x00, 0 => .ok .nop
  | 0x01, 0 => .ok .halt
  | 0x02, 1 => .ok (.movReg (regOf f.rd) (regOf f.rs1))
  | 0x02, 2 => .ok (.movImm (regOf f.rd))
  | 0x03, 3 => .ok (.ldAbs (regOf f.rd))
  | 0x03, 4 => .ok (.ldInd (regOf f.rd) (regOf f.rs1))
  | 0x04, 3 => .ok (.ldbAbs (regOf f.rd))
  | 0x04, 4 => .ok (.ldbInd (regOf f.rd) (regOf f.rs1))
  | 0x05, 3 => .ok (.stAbs (regOf f.rs1))
  | 0x05, 4 => .ok (.stInd (regOf f.rs1) (regOf f.rs2))
  | 0x06, 3 => .ok (.stbAbs (regOf f.rs1))
  | 0x06, 4 => .ok (.stbInd (regOf f.rs1) (regOf f.rs2))
  | 0x07, 1 => .ok (.addReg (regOf f.rd) (regOf f.rs1) (regOf f.rs2))
  | 0x07, 2 => .ok (.addImm (regOf f.rd) (regOf f.rs1))
  | 0x08, 1 => .ok (.subReg (regOf f.rd) (regOf f.rs1) (regOf f.rs2))
  | 0x08, 2 => .ok (.subImm (regOf f.rd) (regOf f.rs1))
  | 0x09, 1 => .ok (.mulReg (regOf f.rd) (regOf f.rs1) (regOf f.rs2))
  | 0x09, 2 => .ok (.mulImm (regOf f.rd) (regOf f.rs1))
  | 0x0A, 1 => .ok (.divReg (regOf f.rd) (regOf f.rs1) (regOf f.rs2))
  | 0x0A, 2 => .ok (.divImm (regOf f.rd) (regOf f.rs1))
  | 0x0B, 1 => .ok (.cmpReg (regOf f.rs1) (regOf f.rs2))
  | 0x0B, 2 => .ok (.cmpImm (regOf f.rs1))
  | 0x0C, 3 => .ok .jmp
  | 0x0D, 3 => .ok .je
  | 0x0E, 3 => .ok .jne
  | 0x0F, 3 => .ok .jl
  | 0x10, 3 => .ok .jle
  | 0x11, 3 => .ok .jg
  | 0x12, 3 => .ok .jge
  | 0x13, 1 => .ok (.push (regOf f.rs1))
  | 0x14, 1 => .ok (.pop (regOf f.rd))
  | 0x15, 5 => .ok (.inPort (regOf f.rd))
  | 0x16, 5 => .ok (.outPort (regOf f.rs1))
  | 0x17, 5 => .ok (.outlPort (regOf f.rs1))
  | 0x18, 0 => .ok .ei
  | 0x19, 0 => .ok .di
  | 0x1A, 0 => .ok .iret
  | _, _ => .error (.unknownPair f.op f.mode)

/-- The decoder, total on every word (R82): the instruction, or the unknown pair by name (R94). -/
def decode (w : Word) : Except DecodeReject Instr := lookup (fieldsOf w)

/-! ### The encoder -/

/-- The 4-bit field of a register (R83). -/
def bitsOf (r : Reg) : BitVec 4 := BitVec.ofFin r

/-- R83: `op·2^26 + mode·2^21 + rd·2^17 + rs1·2^13 + rs2·2^9`; the reserved bits are 0. -/
def encodeFields (f : Fields) : Word :=
  BitVec.ofNat 32 (f.op.toNat * 2 ^ 26 + f.mode.toNat * 2 ^ 21 + f.rd.toNat * 2 ^ 17
    + f.rs1.toNat * 2 ^ 13 + f.rs2.toNat * 2 ^ 9)

/-- The encoder on unchecked numbers: "an input out of range has no encoding" (R83). -/
def encodeRaw (f : RawFields) : Option Word :=
  if f.wf then
    some (encodeFields ⟨BitVec.ofNat 6 f.op, BitVec.ofNat 5 f.mode, BitVec.ofNat 4 f.rd,
      BitVec.ofNat 4 f.rs1, BitVec.ofNat 4 f.rs2⟩)
  else none

/-- The fields of an instruction; an absent register is written as 0 (R84). -/
def Instr.fields : Instr → Fields
  | .nop => ⟨0x00, 0, 0, 0, 0⟩
  | .halt => ⟨0x01, 0, 0, 0, 0⟩
  | .movReg rd rs1 => ⟨0x02, 1, bitsOf rd, bitsOf rs1, 0⟩
  | .movImm rd => ⟨0x02, 2, bitsOf rd, 0, 0⟩
  | .ldAbs rd => ⟨0x03, 3, bitsOf rd, 0, 0⟩
  | .ldInd rd rs1 => ⟨0x03, 4, bitsOf rd, bitsOf rs1, 0⟩
  | .ldbAbs rd => ⟨0x04, 3, bitsOf rd, 0, 0⟩
  | .ldbInd rd rs1 => ⟨0x04, 4, bitsOf rd, bitsOf rs1, 0⟩
  | .stAbs rs1 => ⟨0x05, 3, 0, bitsOf rs1, 0⟩
  | .stInd rs1 rs2 => ⟨0x05, 4, 0, bitsOf rs1, bitsOf rs2⟩
  | .stbAbs rs1 => ⟨0x06, 3, 0, bitsOf rs1, 0⟩
  | .stbInd rs1 rs2 => ⟨0x06, 4, 0, bitsOf rs1, bitsOf rs2⟩
  | .addReg rd rs1 rs2 => ⟨0x07, 1, bitsOf rd, bitsOf rs1, bitsOf rs2⟩
  | .addImm rd rs1 => ⟨0x07, 2, bitsOf rd, bitsOf rs1, 0⟩
  | .subReg rd rs1 rs2 => ⟨0x08, 1, bitsOf rd, bitsOf rs1, bitsOf rs2⟩
  | .subImm rd rs1 => ⟨0x08, 2, bitsOf rd, bitsOf rs1, 0⟩
  | .mulReg rd rs1 rs2 => ⟨0x09, 1, bitsOf rd, bitsOf rs1, bitsOf rs2⟩
  | .mulImm rd rs1 => ⟨0x09, 2, bitsOf rd, bitsOf rs1, 0⟩
  | .divReg rd rs1 rs2 => ⟨0x0A, 1, bitsOf rd, bitsOf rs1, bitsOf rs2⟩
  | .divImm rd rs1 => ⟨0x0A, 2, bitsOf rd, bitsOf rs1, 0⟩
  | .cmpReg rs1 rs2 => ⟨0x0B, 1, 0, bitsOf rs1, bitsOf rs2⟩
  | .cmpImm rs1 => ⟨0x0B, 2, 0, bitsOf rs1, 0⟩
  | .jmp => ⟨0x0C, 3, 0, 0, 0⟩
  | .je => ⟨0x0D, 3, 0, 0, 0⟩
  | .jne => ⟨0x0E, 3, 0, 0, 0⟩
  | .jl => ⟨0x0F, 3, 0, 0, 0⟩
  | .jle => ⟨0x10, 3, 0, 0, 0⟩
  | .jg => ⟨0x11, 3, 0, 0, 0⟩
  | .jge => ⟨0x12, 3, 0, 0, 0⟩
  | .push rs1 => ⟨0x13, 1, 0, bitsOf rs1, 0⟩
  | .pop rd => ⟨0x14, 1, bitsOf rd, 0, 0⟩
  | .inPort rd => ⟨0x15, 5, bitsOf rd, 0, 0⟩
  | .outPort rs1 => ⟨0x16, 5, 0, bitsOf rs1, 0⟩
  | .outlPort rs1 => ⟨0x17, 5, 0, bitsOf rs1, 0⟩
  | .ei => ⟨0x18, 0, 0, 0, 0⟩
  | .di => ⟨0x19, 0, 0, 0, 0⟩
  | .iret => ⟨0x1A, 0, 0, 0, 0⟩

/-- The instruction word of an instruction (R83, R90). -/
def encode (i : Instr) : Word := encodeFields i.fields

/-- R87, R90 column `ext`: how many extension words follow the instruction word. -/
def Instr.extWords : Instr → Nat
  | .movImm _ | .ldAbs _ | .ldbAbs _ | .stAbs _ | .stbAbs _ => 1
  | .addImm _ _ | .subImm _ _ | .mulImm _ _ | .divImm _ _ | .cmpImm _ => 1
  | .jmp | .je | .jne | .jl | .jle | .jg | .jge => 1
  | .inPort _ | .outPort _ | .outlPort _ => 1
  | .nop | .halt | .movReg _ _ | .ldInd _ _ | .ldbInd _ _ | .stInd _ _ | .stbInd _ _ => 0
  | .addReg _ _ _ | .subReg _ _ _ | .mulReg _ _ _ | .divReg _ _ _ | .cmpReg _ _ => 0
  | .push _ | .pop _ | .ei | .di | .iret => 0

/-- R87, R90 column `stages`: how many execute ticks follow the fetch tick. -/
def Instr.stages : Instr → Nat
  | .ldAbs _ | .ldInd _ _ | .stAbs _ | .stInd _ _ | .push _ | .pop _ => 4
  | .outlPort _ => 2
  | .nop | .halt | .movReg _ _ | .movImm _ | .ldbAbs _ | .ldbInd _ _ | .stbAbs _ | .stbInd _ _ => 1
  | .addReg _ _ _ | .addImm _ _ | .subReg _ _ _ | .subImm _ _ | .mulReg _ _ _ | .mulImm _ _ => 1
  | .divReg _ _ _ | .divImm _ _ | .cmpReg _ _ | .cmpImm _ => 1
  | .jmp | .je | .jne | .jl | .jle | .jg | .jge => 1
  | .inPort _ | .outPort _ | .ei | .di | .iret => 1

/-- The bits of an instruction word that its pair reads: op and mode, and the register fields R90 lists for it. -/
def Instr.usedMask : Instr → Word
  | .movReg _ _ | .ldInd _ _ | .ldbInd _ _ | .addImm _ _ | .subImm _ _ | .mulImm _ _ | .divImm _ _ => 0xFFFFE000
  | .movImm _ | .ldAbs _ | .ldbAbs _ | .pop _ | .inPort _ => 0xFFFE0000
  | .stAbs _ | .stbAbs _ | .cmpImm _ | .push _ | .outPort _ | .outlPort _ => 0xFFE1E000
  | .stInd _ _ | .stbInd _ _ | .cmpReg _ _ => 0xFFE1FE00
  | .addReg _ _ _ | .subReg _ _ _ | .mulReg _ _ _ | .divReg _ _ _ => 0xFFFFFE00
  | .nop | .halt | .jmp | .je | .jne | .jl | .jle | .jg | .jge | .ei | .di | .iret => 0xFFE00000

/-! ### The host's opcode-table words -/

/-- The instruction the decoder reads from a table row's bits; an extension word above them takes no part in the
decoding (R82), so only the first word is given to the decoder. -/
def decodeTableWord (nbits w : Nat) : Option Instr :=
  match decode (BitVec.ofNat 32 (w % 2 ^ nbits)) with
  | .ok i => some i
  | .error _ => none

end Sys2Proof
end

