-- ==== Sys2Proof/Machine/State.lean ====
section
/-! DEFINITION. The machine's state as plain data (spec/10_state.md), the reasons a step can stop, and the state
after reset. -/

namespace Sys2Proof.Machine

/-- The four flags (R25). -/
structure Flags where
  n : Bool
  z : Bool
  v : Bool
  c : Bool
deriving DecidableEq, Repr

/-- `SNAP`, the interrupt snapshot: pc, flags and the register file, and nothing else (R29). -/
structure Snap where
  pc : Word
  flags : Flags
  regs : Vector Word 16
deriving DecidableEq, Repr

/-- `phase` (R31, R121): the instruction boundary, or the stage the next tick performs. -/
inductive Phase where
  | fetch
  | exec (k : Nat)
deriving DecidableEq, Repr

/-- The reasons of a fault, with the recorded values (R305). -/
inductive FaultReason where
  | fetchOutOfRange (a : Word)
  | dataOutOfRange (addr : Word) (n : Nat)
  | iretNotInService
deriving DecidableEq, Repr

/-- `status` (R31, R126). -/
inductive Status where
  | running
  | halted
  | budget
  | fault (r : FaultReason)
deriving DecidableEq, Repr

/-- A scheduled input event: its line and its integer value (R32, R261). -/
structure Event where
  line : Line
  value : Int
deriving DecidableEq, Repr

/-- The decode warning `UnknownPair(op, mode, addr)` (R301). -/
structure Warning where
  op : BitVec 6
  mode : BitVec 5
  addr : Word
deriving DecidableEq, Repr

/-- Everything the spec gives the machine (10_state.md R20 to R33), the trace (R301) and the run parameters (R6),
which no instruction writes. The partial and total maps are lists in one canonical form (Machine/Memory.lean). -/
structure State where
  /-- `x[0]`..`x[15]` (R20). -/
  regs : Vector Word 16
  /-- `S0`, the effective address of the access in progress (R23). -/
  s0 : Word
  /-- `S1`, the data word being assembled or sent (R23). -/
  s1 : Word
  /-- The word index of the next word not yet consumed (R24). -/
  pc : Word
  /-- `N`, `Z`, `V`, `C` (R25). -/
  flags : Flags
  /-- `IE` (R26). -/
  ie : Bool
  /-- `INSVC` (R27). -/
  insvc : Bool
  /-- `PEND` (R28). -/
  pend : Bool
  /-- `PLINE` (R28). -/
  pline : Line
  /-- `SNAP` (R29). -/
  snap : Snap
  /-- The stage the next tick performs (R31). -/
  phase : Phase
  /-- `IR`, latched at fetch (R31). -/
  ir : Fields
  /-- The port number OUTL holds from its stage 0 to its stage 1 (R274; log 10). -/
  irPort : Word
  /-- The index of the next tick (R31, R120). -/
  t : Nat
  /-- R31, R126. -/
  status : Status
  /-- `SCHED`: tick number to event; an entry goes when it fires (R32). Unlisted: no event. -/
  sched : List (Nat × Event)
  /-- `LATCH[p]` by port number (R32). Unlisted: 0x00. -/
  latch : List Host.Cell
  /-- `OUTBUF[p]` by port number, oldest byte first (R32). Unlisted: empty. -/
  outbuf : List (Nat × List Byte)
  /-- `IMEM`, word for word; `IMEM_WORDS` is its length (R33, R50). -/
  imem : List Word
  /-- `DMEM` by byte address (R33, R52). Unlisted: 0x00 (R53). -/
  dmem : List Host.Cell
  /-- The decode warnings so far, oldest first (R301; log 11). -/
  trace : List Warning
  /-- `DMEM_SIZE`, OPEN (R6). -/
  dmemSize : Nat
  /-- `VEC0`, OPEN (R6, R312). -/
  vec0 : Word
  /-- `VEC1`, OPEN (R6, R312). -/
  vec1 : Word
  /-- `TICK_BUDGET` (R6, R120). -/
  budget : Nat
deriving DecidableEq, Repr

/-- Why the machine stops: the three faults of R305. Each carries the state the run stopped in, whose status is
FAULT(reason) and which "is final for observation" (R305; log 6). Safe: no claim about a next state holds of a
faulting step. -/
inductive Fault where
  /-- F1, raised by a fetch or a `ReadExt` at `a ≥ IMEM_WORDS` (R51). Safe. -/
  | fetchOutOfRange (a : Word) (final : State)
  /-- F2, raised by LD, LDB, ST, STB, PUSH, POP at stage 0 (R60). Safe. -/
  | dataOutOfRange (addr : Word) (n : Nat) (final : State)
  /-- F3, raised by IRET with `INSVC = 0` (R245). Safe. -/
  | iretNotInService (final : State)
deriving DecidableEq, Repr

/-- Why there is no next state and no fault. -/
inductive Refusal where
  /-- An instruction without a meaning: raised by no arm of `exec`. Safe. -/
  | notModelled (mnemonic : String)
  /-- `phase` is EXEC(k) but `IR` names no valid pair, or one with no stage `k`: no rule gives such a state a tick,
  and no run reaches one (log 12). Raised by `step`, `tick` and the meanings. Safe. -/
  | noSuchStage
  /-- Raised by `boot`: the image's byte length is not a multiple of 4 (R307, R345). Safe. -/
  | raggedImage
  /-- Raised by `boot`: 2^32 words or more (R24; log 15). Safe. -/
  | imageTooLong
  /-- Raised by `boot`: the data image is longer than DMEM_SIZE (R52, R307). Safe. -/
  | dataImageTooLong
  /-- Raised by `boot`: DMEM_SIZE above 2^32 (D9; log 15). Safe. -/
  | dataMemoryTooLarge
  /-- Raised by `boot`: a line other than 0 or 1, or two entries at one tick (R261, R307). Safe. -/
  | illFormedSchedule
  /-- Raised by `boot`: VEC0 or VEC1 not given (R307). Safe. -/
  | missingVector
deriving DecidableEq, Repr

/-- The machine after reset (R34, R340), with no image and no schedule, and with the OPEN run parameters as
Config gives them (log 2, 3, 4, 5). -/
def State.reset : State where
  regs := Vector.replicate 16 0
  s0 := 0
  s1 := 0
  pc := 0
  flags := ⟨false, false, false, false⟩
  ie := false
  insvc := false
  pend := false
  pline := .line0
  snap := ⟨0, ⟨false, false, false, false⟩, Vector.replicate 16 0⟩
  phase := .fetch
  ir := ⟨0, 0, 0, 0, 0⟩
  irPort := 0
  t := 0
  status := .running
  sched := []
  latch := []
  outbuf := []
  imem := []
  dmem := []
  trace := []
  dmemSize := Config.resetDmemSize
  vec0 := Config.vec0
  vec1 := Config.vec1
  budget := Config.resetBudget

end Sys2Proof.Machine
end

