-- ==== Sys2Proof/Machine/Ops.lean ====
section
/-! DEFINITION. The named operations over the state: registers, the extension word, data memory, ports, event
sampling, interrupt entry and return, and a stop with a fault (spec/00_scope.md R9, spec/44_io.md,
spec/60_exceptions.md). -/

namespace Sys2Proof.Machine

/-- What a tick, a stage or a meaning answers. -/
abbrev Result := Host.Outcome State Fault Refusal

/-- One stage of an instruction (R10). -/
abbrev Stage := State → Result

/-! ### Faults (R305, R306) -/

/-- The fault of a reason, with the state the run stopped in. -/
def faultOf (r : FaultReason) (final : State) : Fault :=
  match r with
  | .fetchOutOfRange a => .fetchOutOfRange a final
  | .dataOutOfRange addr n => .dataOutOfRange addr n final
  | .iretNotInService => .iretNotInService final

/-- `raise Fault(r)` (R9, R305): the status becomes FAULT(r) and nothing else changes. -/
def raise (r : FaultReason) (s : State) : Result := .fault (faultOf r { s with status := .fault r })

/-! ### Registers (R20) -/

/-- `x[r]`. -/
def State.reg (s : State) (r : Reg) : Word := s.regs[r.val]

/-- `x[r] <- v`. No register is hard-wired (R20). -/
def State.setReg (s : State) (r : Reg) (v : Word) : State := { s with regs := s.regs.set r.val v }

/-- The stack pointer (R21). -/
def sp : Reg := 15

/-! ### Instruction memory (R50, R51) -/

/-- `IMemRead(a)`: the word at an index inside the image. -/
def State.imemAt (s : State) (a : Word) : Option Word := s.imem[a.toNat]?

/-- `ReadExt()` (R9), handing the word to what follows; at `pc ≥ IMEM_WORDS` it faults before it advances `pc` (R51). -/
def withExt (s : State) (k : Word → State → Result) : Result :=
  match s.imemAt s.pc with
  | none => raise (.fetchOutOfRange s.pc) s
  | some w => k w { s with pc := s.pc + 1 }

/-! ### Data memory (R52 to R60) -/

/-- `DMEM[a]`. -/
def State.byteAt (s : State) (a : Nat) : Byte := Memory.read s.dmem a

/-- `DMEM[a] <- b`. -/
def State.setByte (s : State) (a : Nat) (b : Byte) : State := { s with dmem := Memory.write s.dmem a b }

/-- R60: the whole access is checked, in unbounded integers, before any byte moves. -/
def withData (addr : Word) (n : Nat) (s : State) (k : State → Result) : Result :=
  if addr.toNat + n > s.dmemSize then raise (.dataOutOfRange addr n) s else k s

/-! ### Ports (R260 to R265) -/

/-- `PortIn(p)`: the latch, with no side effect (R264). -/
def State.portIn (s : State) (p : Word) : Byte := tableRead 0#8 s.latch p.toNat

/-- `OUTBUF[p]`. -/
def State.output (s : State) (p : Word) : List Byte := tableRead [] s.outbuf p.toNat

/-- `PortOut(p, b)`: append one byte (R265). -/
def State.portOut (s : State) (p : Word) (b : Byte) : State :=
  { s with outbuf := tableWrite [] s.outbuf p.toNat (s.output p ++ [b]) }

/-- An event on line `l` latches into port `l` (R260). -/
def linePort : Line → Nat
  | .line0 => 0
  | .line1 => 1

/-- `trunc_8` of an integer (R8, R262). -/
def trunc8 (v : Int) : Byte := BitVec.ofInt 8 v

/-- `SampleEvents(t)` (R262), step (1) of every tick. -/
def sampleEvents (s : State) : State :=
  match tableFind s.sched s.t with
  | none => s
  | some e =>
    { s with
      latch := tableWrite 0#8 s.latch (linePort e.line) (trunc8 e.value)
      pend := true
      pline := e.line
      sched := tableErase s.sched s.t }

/-! ### Interrupts (R310 to R316) -/

/-- `VEC[l]` (R312). -/
def State.vector (s : State) : Line → Word
  | .line0 => s.vec0
  | .line1 => s.vec1

/-- `Enter(l)` (R312): pc, flags and the register file are saved, pc goes to the line's vector, INSVC is set and
PEND cleared. IE, the flags, the registers and data memory stay. -/
def enterInterrupt (l : Line) (s : State) : State :=
  { s with
    snap := ⟨s.pc, s.flags, s.regs⟩
    pc := s.vector l
    insvc := true
    pend := false }

/-- `InterruptCheck()` (R311), at an instruction boundary only. -/
def interruptCheck (s : State) : State :=
  if s.pend = true ∧ s.ie = true ∧ s.insvc = false then enterInterrupt s.pline s else s

/-- The return from an interrupt (R244): pc, flags and registers from SNAP, INSVC cleared; IE and PEND stay. Outside
a handler it is fault F3 with no state changed (R245). -/
def returnFromInterrupt (s : State) : Result :=
  if s.insvc = false then raise .iretNotInService s
  else .next { s with pc := s.snap.pc, flags := s.snap.flags, regs := s.snap.regs, insvc := false }

/-! ### Laying words into an instruction image -/

/-- The image with `ws` at index `i`, padded with zero words where it was shorter. -/
def placeWords (image : List Word) (i : Nat) (ws : List Word) : List Word :=
  image.take i ++ List.replicate (i - image.length) 0 ++ ws ++ image.drop (i + ws.length)

end Sys2Proof.Machine
end

