-- ==== Sys2Proof/Machine/Engine.lean ====
section
/-! DEFINITION. The engine's tick (spec/40_engine.md R120 to R126): the guard of the run loop, the fetch tick, one
execute tick, and the execute ticks of one instruction in a row. -/

namespace Sys2Proof.Machine

/-- Go on from a next state; a stop stays a stop. -/
def andThen (o : Result) (k : State → Result) : Result :=
  match o with
  | .next s => k s
  | .fault r => .fault r
  | .refused r => .refused r

/-- R120's loop head: a machine that is not RUNNING runs no tick (log 7), and at `t = TICK_BUDGET` the run ends with
status BUDGET (R126). -/
def guarded (s : State) (k : State → Result) : Result :=
  match s.status with
  | .running => if s.t = s.budget then .next { s with status := .budget } else k s
  | .halted => .next s
  | .budget => .next s
  | .fault _ => .next s

/-- R120 step (3): a tick without a fault counts. -/
def endTick (o : Result) : Result := andThen o fun s => .next { s with t := s.t + 1 }

/-- The stage the engine performs next; a boundary stands for stage 0 (log 14). -/
def Phase.stage : Phase → Nat
  | .fetch => 0
  | .exec k => k

/-! ### Fetch -/

/-- `FetchStage()` (R122), with an unknown pair skipped and warned of (R124, R301). -/
def fetchStage (s : State) : Result :=
  match s.imemAt s.pc with
  | none => raise (.fetchOutOfRange s.pc) s
  | some w =>
    match decode w with
    | .ok _ => .next { s with pc := s.pc + 1, ir := fieldsOf w, phase := .exec 0 }
    | .error (.unknownPair op mode) =>
      .next { s with pc := s.pc + 1, trace := s.trace ++ [⟨op, mode, s.pc⟩], phase := .fetch }

/-- The tick at a boundary (R120): sampling, the interrupt check, the fetch. A fault of the fetch
ends the tick, and the sampling and the entry before it stay (log 9). -/
def fetchTick (s : State) : Result := endTick (fetchStage (interruptCheck (sampleEvents s)))

/-- The word index the next fetch reads, and the vector's where an interrupt is entered first (R312, R315). -/
def State.fetchIndex (s : State) : Word := (interruptCheck (sampleEvents s)).pc

/-! ### Execute -/

/-- R123's completion: after stage `k` of `n`, back to the boundary or on to the next stage; not after HALT. -/
def completeStage (n k : Nat) (s : State) : State :=
  match s.status with
  | .running => { s with phase := if k + 1 = n then .fetch else .exec (k + 1) }
  | .halted => s
  | .budget => s
  | .fault _ => s

/-- The tick of stage `k` of an instruction of `n` stages (R120, R123): sampling, then the stage. A fault of the stage ends
the tick, and the sampling before it stays (log 9). -/
def execTick (n k : Nat) (st : Stage) (s : State) : Result :=
  endTick (andThen (st (sampleEvents s)) fun s' => .next (completeStage n k s'))

/-- The ticks of the stages listed, the first of them stage `k` of `n`, each under the run loop's guard. -/
def runFrom (n : Nat) : Nat → List Stage → State → Result
  | _, [], s => .next s
  | k, st :: rest, s => andThen (guarded s (execTick n k st)) (runFrom n (k + 1) rest)

/-- The execute ticks an instruction with these stages still has before it: all of them at stage 0. -/
def runStages (stages : List Stage) (s : State) : Result :=
  match stages.drop s.phase.stage with
  | [] => .refused .noSuchStage
  | st :: rest => runFrom stages.length s.phase.stage (st :: rest) s

/-! ### The passing of ticks -/

/-- `n` ticks in which nothing but the event sampling happens: what an instruction of `n` stages leaves behind
besides its own effect (R120, R262). -/
def passTicks : Nat → State → State
  | 0, s => s
  | n + 1, s => passTicks n { sampleEvents s with t := s.t + 1 }

end Sys2Proof.Machine
end

