-- ==== Sys2Proof/Machine/Flags.lean ====
section
/-! DEFINITION. The five ALU functions with their flags (spec/42_alu.md R200 to R213), and the jump conditions over
the flags (spec/40_engine.md R130 to R136). -/

namespace Sys2Proof.Machine

/-- R200: `N = r[31]`, `Z = (r = 0)`; V and C are each function's own. All four come together (R11). -/
def resultFlags (r : Word) (v c : Bool) : Flags := ⟨r.msb, decide (r = 0), v, c⟩

/-- ADDOP (R201). -/
def addOp (a b : Word) : Word × Flags :=
  let r := a + b
  (r, resultFlags r (a.msb == b.msb && r.msb != a.msb) (decide (a.toNat + b.toNat > 2 ^ 32 - 1)))

/-- SUBOP (R204). -/
def subOp (a b : Word) : Word × Flags :=
  let r := a - b
  (r, resultFlags r (a.msb != b.msb && r.msb != a.msb) (decide (a.toNat ≥ b.toNat)))

/-- MULOP (R207): the exact signed product, then its low 32 bits; C is 0. -/
def mulOp (a b : Word) : Word × Flags :=
  let p : Int := a.toInt * b.toInt
  let r := BitVec.ofInt 32 p
  (r, resultFlags r (decide (p < -2 ^ 31) || decide (p > 2 ^ 31 - 1)) false)

/-- `DivOverflowResult`, the result of 0x80000000 / 0xFFFFFFFF (R6, D23). -/
def divOverflowResult : Word := 0x80000000

/-- The signed quotient truncated toward zero, as R210 writes it out. -/
def truncQuotient (a b : Word) : Word :=
  let q : Nat := a.toInt.natAbs / b.toInt.natAbs
  if decide (a.toInt < 0) = decide (b.toInt < 0) then BitVec.ofNat 32 q else BitVec.ofInt 32 (-(q : Int))

/-- DIVOP (R210): no result on a divisor of 0. -/
def divOp (a b : Word) : Option Word × Flags :=
  if b = 0 then (none, ⟨false, false, true, false⟩)
  else
    let r := if a = 0x80000000 ∧ b = 0xFFFFFFFF then divOverflowResult else truncQuotient a b
    (some r, resultFlags r false false)

/-- CMPOP (R213): exactly SUB's flags. -/
def cmpOp (a b : Word) : Flags := (subOp a b).2

/-! ### Jump conditions -/

/-- R130. -/
def condAlways (_ : Flags) : Bool := true

/-- R131: `Z = 1`. -/
def condEqual (f : Flags) : Bool := f.z

/-- R132: `Z = 0`. -/
def condNotEqual (f : Flags) : Bool := !f.z

/-- R133: `N ≠ V`. -/
def condLess (f : Flags) : Bool := f.n != f.v

/-- R134: `(Z = 1) or (N ≠ V)`. -/
def condLessEqual (f : Flags) : Bool := f.z || f.n != f.v

/-- R135: `(Z = 0) and (N = V)`. -/
def condGreater (f : Flags) : Bool := !f.z && f.n == f.v

/-- R136: `N = V`. -/
def condGreaterEqual (f : Flags) : Bool := f.n == f.v

end Sys2Proof.Machine
end

