-- ==== Sys2Proof/Machine/Operands.lean ====
section
/-! DEFINITION. The operand forms (spec/30_encoding.md R91, R92) and the parts of a word that move through byte
memory and byte ports (spec/20_memory.md R55, spec/44_io.md R272, R274). -/

namespace Sys2Proof.Machine

/-! ### Operand forms -/

/-- REG: the registers the fields name (R91, R200); both are read before anything is written. -/
def withRegReg (rs1 rs2 : Reg) (s : State) (k : Word → Word → State → Result) : Result :=
  k (s.reg rs1) (s.reg rs2) s

/-- IMM: `x[rs1]` and the extension word, all 32 bits of it unchanged (R91, R92, R200). -/
def withRegImm (rs1 : Reg) (s : State) (k : Word → Word → State → Result) : Result :=
  withExt s fun imm s' => k (s'.reg rs1) imm s'

/-- ABS: the extension word is the address, a byte address or a word index (R91). -/
def withAbs (s : State) (k : Word → State → Result) : Result := withExt s k

/-- IND: the address is a register's value (R91). -/
def withInd (r : Reg) (s : State) (k : Word → State → Result) : Result := k (s.reg r) s

/-- PORT: the extension word is the port number (R91). -/
def withPort (s : State) (k : Word → State → Result) : Result := withExt s k

/-! ### Parts of a word -/

/-- Byte `j` of a word: bits `8j+7:8j` (R55). -/
def byteOf (j : Nat) (v : Word) : Byte := v.extractLsb' (8 * j) 8

/-- `zext_32` of a byte (R8). -/
def zext (b : Byte) : Word := b.setWidth 32

/-- `zext_32(b) << 8j`: a byte put in its place in a word (R162). -/
def byteInPlace (j : Nat) (b : Byte) : Word := zext b <<< (8 * j)

/-- The byte of OUT (R272), and the first byte of OUTL: the low half as one byte (R274). -/
def outLowByte (v : Word) : Byte := v.extractLsb' 0 8

/-- The second byte of OUTL: the high half as one byte, `v[23:16]` (R274; `OutLongMode = TRUNC`, R6, D21). -/
def outHighByte (v : Word) : Byte := v.extractLsb' 16 8

end Sys2Proof.Machine
end

