-- ==== Sys2Proof/Machine/Alu.lean ====
section
/-! DEFINITION. ADD, SUB, MUL, DIV and CMP, each in modes REG and IMM (spec/42_alu.md R200 to R217). Every one takes
one stage and raises nothing but F1 on a missing extension word. -/

namespace Sys2Proof.Machine

/-! ### Write-back -/

/-- The result to `x[rd]` and all four flags at once (R200). -/
def writeResult (rd : Reg) (rf : Word × Flags) (s : State) : Result :=
  .next { s.setReg rd rf.1 with flags := rf.2 }

/-- DIV's write-back: on NO-WRITE the destination stays and only the flags are written (R210, R211). -/
def writeQuotient (rd : Reg) (rf : Option Word × Flags) (s : State) : Result :=
  match rf.1 with
  | some r => writeResult rd (r, rf.2) s
  | none => .next { s with flags := rf.2 }

/-- CMP's write-back: the flags and no register (R213). -/
def writeFlags (f : Flags) (s : State) : Result := .next { s with flags := f }

/-! ### Stages -/

/-- R202. -/
def stagesAddReg (rd rs1 rs2 : Reg) : List Stage :=
  [fun s => withRegReg rs1 rs2 s fun a b s' => writeResult rd (addOp a b) s']

/-- R203. -/
def stagesAddImm (rd rs1 : Reg) : List Stage :=
  [fun s => withRegImm rs1 s fun a b s' => writeResult rd (addOp a b) s']

/-- R205. -/
def stagesSubReg (rd rs1 rs2 : Reg) : List Stage :=
  [fun s => withRegReg rs1 rs2 s fun a b s' => writeResult rd (subOp a b) s']

/-- R206. -/
def stagesSubImm (rd rs1 : Reg) : List Stage :=
  [fun s => withRegImm rs1 s fun a b s' => writeResult rd (subOp a b) s']

/-- R208. -/
def stagesMulReg (rd rs1 rs2 : Reg) : List Stage :=
  [fun s => withRegReg rs1 rs2 s fun a b s' => writeResult rd (mulOp a b) s']

/-- R209. -/
def stagesMulImm (rd rs1 : Reg) : List Stage :=
  [fun s => withRegImm rs1 s fun a b s' => writeResult rd (mulOp a b) s']

/-- R211. -/
def stagesDivReg (rd rs1 rs2 : Reg) : List Stage :=
  [fun s => withRegReg rs1 rs2 s fun a b s' => writeQuotient rd (divOp a b) s']

/-- R212. -/
def stagesDivImm (rd rs1 : Reg) : List Stage :=
  [fun s => withRegImm rs1 s fun a b s' => writeQuotient rd (divOp a b) s']

/-- R214. -/
def stagesCmpReg (rs1 rs2 : Reg) : List Stage :=
  [fun s => withRegReg rs1 rs2 s fun a b s' => writeFlags (cmpOp a b) s']

/-- R215. -/
def stagesCmpImm (rs1 : Reg) : List Stage :=
  [fun s => withRegImm rs1 s fun a b s' => writeFlags (cmpOp a b) s']

/-! ### Meanings -/

/-- ADD REG (R202): one stage. -/
def execAddReg (rd rs1 rs2 : Reg) (s : State) : Result := runStages (stagesAddReg rd rs1 rs2) s

/-- ADD IMM (R203): one stage, one extension word. -/
def execAddImm (rd rs1 : Reg) (s : State) : Result := runStages (stagesAddImm rd rs1) s

/-- SUB REG (R205): one stage. -/
def execSubReg (rd rs1 rs2 : Reg) (s : State) : Result := runStages (stagesSubReg rd rs1 rs2) s

/-- SUB IMM (R206): one stage, one extension word. -/
def execSubImm (rd rs1 : Reg) (s : State) : Result := runStages (stagesSubImm rd rs1) s

/-- MUL REG (R208): one stage. -/
def execMulReg (rd rs1 rs2 : Reg) (s : State) : Result := runStages (stagesMulReg rd rs1 rs2) s

/-- MUL IMM (R209): one stage, one extension word. -/
def execMulImm (rd rs1 : Reg) (s : State) : Result := runStages (stagesMulImm rd rs1) s

/-- DIV REG (R211): one stage. -/
def execDivReg (rd rs1 rs2 : Reg) (s : State) : Result := runStages (stagesDivReg rd rs1 rs2) s

/-- DIV IMM (R212): one stage, one extension word. -/
def execDivImm (rd rs1 : Reg) (s : State) : Result := runStages (stagesDivImm rd rs1) s

/-- CMP REG (R214): one stage. -/
def execCmpReg (rs1 rs2 : Reg) (s : State) : Result := runStages (stagesCmpReg rs1 rs2) s

/-- CMP IMM (R215): one stage, one extension word. -/
def execCmpImm (rs1 : Reg) (s : State) : Result := runStages (stagesCmpImm rs1) s

end Sys2Proof.Machine
end

