-- ==== Sys2Proof/Machine/Control.lean ====
section
/-! DEFINITION. NOP, HALT and the seven jumps (spec/40_engine.md R127 to R136). -/

namespace Sys2Proof.Machine

/-! ### Stages -/

/-- R129: the target is read whether or not the jump is taken; it is not range-checked. -/
def jumpStage (cond : Flags → Bool) (s : State) : Result :=
  withAbs s fun target s' => .next (if cond s'.flags then { s' with pc := target } else s')

/-- R127. -/
def stagesNop : List Stage := [fun s => .next s]

/-- R128: `status <- HALTED`. -/
def stagesHalt : List Stage := [fun s => .next { s with status := .halted }]

/-- R130. -/
def stagesJmp : List Stage := [jumpStage condAlways]

/-- R131. -/
def stagesJe : List Stage := [jumpStage condEqual]

/-- R132. -/
def stagesJne : List Stage := [jumpStage condNotEqual]

/-- R133. -/
def stagesJl : List Stage := [jumpStage condLess]

/-- R134. -/
def stagesJle : List Stage := [jumpStage condLessEqual]

/-- R135. -/
def stagesJg : List Stage := [jumpStage condGreater]

/-- R136. -/
def stagesJge : List Stage := [jumpStage condGreaterEqual]

/-! ### Meanings -/

/-- NOP NONE (R127): one stage. -/
def execNop (s : State) : Result := runStages stagesNop s

/-- HALT NONE (R128): one stage. -/
def execHalt (s : State) : Result := runStages stagesHalt s

/-- JMP ABS (R130): one stage, one extension word. -/
def execJmp (s : State) : Result := runStages stagesJmp s

/-- JE ABS (R131): one stage, one extension word. -/
def execJe (s : State) : Result := runStages stagesJe s

/-- JNE ABS (R132): one stage, one extension word. -/
def execJne (s : State) : Result := runStages stagesJne s

/-- JL ABS (R133): one stage, one extension word. -/
def execJl (s : State) : Result := runStages stagesJl s

/-- JLE ABS (R134): one stage, one extension word. -/
def execJle (s : State) : Result := runStages stagesJle s

/-- JG ABS (R135): one stage, one extension word. -/
def execJg (s : State) : Result := runStages stagesJg s

/-- JGE ABS (R136): one stage, one extension word. -/
def execJge (s : State) : Result := runStages stagesJge s

end Sys2Proof.Machine
end

