-- ==== Sys2Proof/Machine/Interrupt.lean ====
section
/-! DEFINITION. EI, DI and IRET (spec/43_interrupt_control.md R240 to R245). -/

namespace Sys2Proof.Machine

/-! ### Stages -/

/-- R240: `IE <- 1`. -/
def stagesEi : List Stage := [fun s => .next { s with ie := true }]

/-- R242: `IE <- 0`; PEND stays. -/
def stagesDi : List Stage := [fun s => .next { s with ie := false }]

/-- R244, R245. -/
def stagesIret : List Stage := [returnFromInterrupt]

/-! ### Meanings -/

/-- EI NONE (R240): one stage. -/
def execEi (s : State) : Result := runStages stagesEi s

/-- DI NONE (R242): one stage. -/
def execDi (s : State) : Result := runStages stagesDi s

/-- IRET NONE (R244): one stage. -/
def execIret (s : State) : Result := runStages stagesIret s

end Sys2Proof.Machine
end

