-- ==== Sys2Proof/Machine/Io.lean ====
section
/-! DEFINITION. IN, OUT and OUTL (spec/44_io.md R270 to R274). None writes a flag; none blocks. -/

namespace Sys2Proof.Machine

/-! ### Stages -/

/-- R270. -/
def stagesInPort (rd : Reg) : List Stage :=
  [fun s => withPort s fun p s' => .next (s'.setReg rd (zext (s'.portIn p)))]

/-- R272. -/
def stagesOutPort (rs1 : Reg) : List Stage :=
  [fun s => withPort s fun p s' => .next (s'.portOut p (outLowByte (s'.reg rs1)))]

/-- R274, stage 0: the port number is read and held, and bits 7:0 go out. -/
def outLongFirst (rs1 : Reg) (s : State) : Result :=
  withPort s fun p s' => .next ({ s' with irPort := p }.portOut p (outLowByte (s'.reg rs1)))

/-- R274, stage 1: bits 23:16 go out to the held port. -/
def outLongSecond (rs1 : Reg) (s : State) : Result := .next (s.portOut s.irPort (outHighByte (s.reg rs1)))

/-- R274: two port writes of one byte each. -/
def stagesOutlPort (rs1 : Reg) : List Stage := [outLongFirst rs1, outLongSecond rs1]

/-! ### Meanings -/

/-- IN PORT (R270): one stage, one extension word. -/
def execInPort (rd : Reg) (s : State) : Result := runStages (stagesInPort rd) s

/-- OUT PORT (R272): one stage, one extension word. -/
def execOutPort (rs1 : Reg) (s : State) : Result := runStages (stagesOutPort rs1) s

/-- OUTL PORT (R274): two stages, one extension word. -/
def execOutlPort (rs1 : Reg) (s : State) : Result := runStages (stagesOutlPort rs1) s

end Sys2Proof.Machine
end

