-- ==== Sys2Proof/Machine/Transfer.lean ====
section
/-! DEFINITION. MOV, LD, LDB, ST, STB, PUSH and POP (spec/41_data_transfer.md R160 to R172). None writes a flag. -/

namespace Sys2Proof.Machine

/-! ### Shared stages -/

/-- R162 stage 0 after the address: S0 and S1 are written only when the range check passes (R60, R306; log 8). -/
def loadFirst (addr : Word) (s : State) : Result :=
  withData addr 4 s fun s' => .next { s' with s0 := addr, s1 := zext (s'.byteAt addr.toNat) }

/-- S1 with byte `j` of the access put in its place (R162 stages 1 to 3; log 13). -/
def State.gathered (s : State) (j : Nat) : Word := s.s1 ||| byteInPlace j (s.byteAt (s.s0.toNat + j))

/-- R162 stages 1 and 2. -/
def loadNext (j : Nat) (s : State) : Result := .next { s with s1 := s.gathered j }

/-- R162 stage 3: the destination is written here and not before. -/
def loadLast (rd : Reg) (s : State) : Result := .next ({ s with s1 := s.gathered 3 }.setReg rd (s.gathered 3))

/-- R166 stage 0 after the address and the value. -/
def storeFirst (addr v : Word) (s : State) : Result :=
  withData addr 4 s fun s' => .next ({ s' with s0 := addr, s1 := v }.setByte addr.toNat (byteOf 0 v))

/-- R166 stages 1 to 3. -/
def storeNext (j : Nat) (s : State) : Result := .next (s.setByte (s.s0.toNat + j) (byteOf j s.s1))

/-- R164 after the address: the byte is zero-extended. -/
def loadByte (rd : Reg) (addr : Word) (s : State) : Result :=
  withData addr 1 s fun s' => .next (s'.setReg rd (zext (s'.byteAt addr.toNat)))

/-- R168 after the address: bits 31:8 are dropped. -/
def storeByte (v addr : Word) (s : State) : Result :=
  withData addr 1 s fun s' => .next (s'.setByte addr.toNat (byteOf 0 v))

/-! ### Stages -/

/-- R160. -/
def stagesMovReg (rd rs1 : Reg) : List Stage := [fun s => .next (s.setReg rd (s.reg rs1))]

/-- R161. -/
def stagesMovImm (rd : Reg) : List Stage := [fun s => withExt s fun imm s' => .next (s'.setReg rd imm)]

/-- R162. -/
def stagesLdAbs (rd : Reg) : List Stage :=
  [fun s => withAbs s loadFirst, loadNext 1, loadNext 2, loadLast rd]

/-- R163: the address is latched in S0 at stage 0, so `rd = rs1` is legal. -/
def stagesLdInd (rd rs1 : Reg) : List Stage :=
  [fun s => withInd rs1 s loadFirst, loadNext 1, loadNext 2, loadLast rd]

/-- R164. -/
def stagesLdbAbs (rd : Reg) : List Stage := [fun s => withAbs s (loadByte rd)]

/-- R165. -/
def stagesLdbInd (rd rs1 : Reg) : List Stage := [fun s => withInd rs1 s (loadByte rd)]

/-- R166. -/
def stagesStAbs (rs1 : Reg) : List Stage :=
  [fun s => withAbs s fun addr s' => storeFirst addr (s'.reg rs1) s', storeNext 1, storeNext 2, storeNext 3]

/-- R167. -/
def stagesStInd (rs1 rs2 : Reg) : List Stage :=
  [fun s => withInd rs2 s fun addr s' => storeFirst addr (s'.reg rs1) s', storeNext 1, storeNext 2, storeNext 3]

/-- R168. -/
def stagesStbAbs (rs1 : Reg) : List Stage := [fun s => withAbs s (storeByte (s.reg rs1))]

/-- R169. -/
def stagesStbInd (rs1 rs2 : Reg) : List Stage := [fun s => withInd rs2 s (storeByte (s.reg rs1))]

/-- The slot PUSH stores to: `x[15] - 4` modulo 2^32 (R170). -/
def State.pushAddr (s : State) : Word := s.reg sp - 4

/-- R170, stage 0: S1 takes the register's value before the decrement, R15's own included. -/
def pushFirst (rs1 : Reg) (s : State) : Result := storeFirst s.pushAddr (s.reg rs1) s

/-- R170, stage 3: the last byte, and R15 takes the slot's address. -/
def pushLast (s : State) : Result := andThen (storeNext 3 s) fun s' => .next (s'.setReg sp s'.s0)

/-- R170. -/
def stagesPush (rs1 : Reg) : List Stage := [pushFirst rs1, storeNext 1, storeNext 2, pushLast]

/-- R172, stage 0. -/
def popFirst (s : State) : Result := loadFirst (s.reg sp) s

/-- R172, stage 3: R15 first, then `x[rd]`, so POP R15 leaves the popped value. -/
def popLast (rd : Reg) (s : State) : Result := loadLast rd (s.setReg sp (s.s0 + 4))

/-- R172. -/
def stagesPop (rd : Reg) : List Stage := [popFirst, loadNext 1, loadNext 2, popLast rd]

/-! ### Meanings -/

/-- MOV REG (R160): one stage. -/
def execMovReg (rd rs1 : Reg) (s : State) : Result := runStages (stagesMovReg rd rs1) s

/-- MOV IMM (R161): one stage, one extension word. -/
def execMovImm (rd : Reg) (s : State) : Result := runStages (stagesMovImm rd) s

/-- LD ABS (R162): four stages, one extension word. -/
def execLdAbs (rd : Reg) (s : State) : Result := runStages (stagesLdAbs rd) s

/-- LD IND (R163): four stages. -/
def execLdInd (rd rs1 : Reg) (s : State) : Result := runStages (stagesLdInd rd rs1) s

/-- LDB ABS (R164): one stage, one extension word. -/
def execLdbAbs (rd : Reg) (s : State) : Result := runStages (stagesLdbAbs rd) s

/-- LDB IND (R165): one stage. -/
def execLdbInd (rd rs1 : Reg) (s : State) : Result := runStages (stagesLdbInd rd rs1) s

/-- ST ABS (R166): four stages, one extension word. -/
def execStAbs (rs1 : Reg) (s : State) : Result := runStages (stagesStAbs rs1) s

/-- ST IND (R167): four stages. -/
def execStInd (rs1 rs2 : Reg) (s : State) : Result := runStages (stagesStInd rs1 rs2) s

/-- STB ABS (R168): one stage, one extension word. -/
def execStbAbs (rs1 : Reg) (s : State) : Result := runStages (stagesStbAbs rs1) s

/-- STB IND (R169): one stage. -/
def execStbInd (rs1 rs2 : Reg) (s : State) : Result := runStages (stagesStbInd rs1 rs2) s

/-- PUSH REG (R170): four stages. -/
def execPush (rs1 : Reg) (s : State) : Result := runStages (stagesPush rs1) s

/-- POP REG (R172): four stages. -/
def execPop (rd : Reg) (s : State) : Result := runStages (stagesPop rd) s

end Sys2Proof.Machine
end

