-- ==== Sys2Proof/Machine/Dispatch.lean ====
section
/-! DEFINITION. The one dispatch: each instruction's meaning, which is all the execute ticks it still has before it
(spec/40_engine.md R123). -/

namespace Sys2Proof.Machine

def exec (i : Instr) (s : State) : Host.Outcome State Fault Refusal :=
  match i with
  | .nop => Sys2Proof.Machine.execNop s
  | .halt => Sys2Proof.Machine.execHalt s
  | .movReg rd rs1 => Sys2Proof.Machine.execMovReg rd rs1 s
  | .movImm rd => Sys2Proof.Machine.execMovImm rd s
  | .ldAbs rd => Sys2Proof.Machine.execLdAbs rd s
  | .ldInd rd rs1 => Sys2Proof.Machine.execLdInd rd rs1 s
  | .ldbAbs rd => Sys2Proof.Machine.execLdbAbs rd s
  | .ldbInd rd rs1 => Sys2Proof.Machine.execLdbInd rd rs1 s
  | .stAbs rs1 => Sys2Proof.Machine.execStAbs rs1 s
  | .stInd rs1 rs2 => Sys2Proof.Machine.execStInd rs1 rs2 s
  | .stbAbs rs1 => Sys2Proof.Machine.execStbAbs rs1 s
  | .stbInd rs1 rs2 => Sys2Proof.Machine.execStbInd rs1 rs2 s
  | .addReg rd rs1 rs2 => Sys2Proof.Machine.execAddReg rd rs1 rs2 s
  | .addImm rd rs1 => Sys2Proof.Machine.execAddImm rd rs1 s
  | .subReg rd rs1 rs2 => Sys2Proof.Machine.execSubReg rd rs1 rs2 s
  | .subImm rd rs1 => Sys2Proof.Machine.execSubImm rd rs1 s
  | .mulReg rd rs1 rs2 => Sys2Proof.Machine.execMulReg rd rs1 rs2 s
  | .mulImm rd rs1 => Sys2Proof.Machine.execMulImm rd rs1 s
  | .divReg rd rs1 rs2 => Sys2Proof.Machine.execDivReg rd rs1 rs2 s
  | .divImm rd rs1 => Sys2Proof.Machine.execDivImm rd rs1 s
  | .cmpReg rs1 rs2 => Sys2Proof.Machine.execCmpReg rs1 rs2 s
  | .cmpImm rs1 => Sys2Proof.Machine.execCmpImm rs1 s
  | .jmp => Sys2Proof.Machine.execJmp s
  | .je => Sys2Proof.Machine.execJe s
  | .jne => Sys2Proof.Machine.execJne s
  | .jl => Sys2Proof.Machine.execJl s
  | .jle => Sys2Proof.Machine.execJle s
  | .jg => Sys2Proof.Machine.execJg s
  | .jge => Sys2Proof.Machine.execJge s
  | .push rs1 => Sys2Proof.Machine.execPush rs1 s
  | .pop rd => Sys2Proof.Machine.execPop rd s
  | .inPort rd => Sys2Proof.Machine.execInPort rd s
  | .outPort rs1 => Sys2Proof.Machine.execOutPort rs1 s
  | .outlPort rs1 => Sys2Proof.Machine.execOutlPort rs1 s
  | .ei => Sys2Proof.Machine.execEi s
  | .di => Sys2Proof.Machine.execDi s
  | .iret => Sys2Proof.Machine.execIret s

end Sys2Proof.Machine
end

