-- ==== Sys2Proof/Machine/Step.lean ====
section
/-! DEFINITION. One step: the ticks of one instruction, from its fetch to the next boundary
(spec/40_engine.md R120, R125; log 1). The fetch, the ticks and the meanings are called, not written here. -/

namespace Sys2Proof.Machine

/-- The rest of the instruction in `IR`; at a boundary there is none (an unknown pair took only its fetch tick, R124). -/
def resume (s : State) : Host.Outcome State Fault Refusal :=
  match s.phase with
  | .fetch => .next s
  | .exec _ =>
    match lookup s.ir with
    | .ok i => exec i s
    | .error _ => .refused .noSuchStage

/-- One instruction under the run loop's guard: at a boundary the fetch tick and then the instruction's stages; in the
middle of an instruction the stages it still has. A stopped machine answers itself (log 7). -/
def step (s : State) : Host.Outcome State Fault Refusal :=
  guarded s fun s =>
    match s.phase with
    | .fetch => andThen (fetchTick s) resume
    | .exec _ => resume s

/-- The state with an instruction's words (numbered as the opcode table numbers them: the first word in bits 31..0)
where the next step fetches. It stands for loading a program (log 5): the machine is put at a running boundary with a
budget that lasts the instruction, since only there does a step fetch. -/
def State.withFetchWord (s : State) (nbits w : Nat) : State :=
  let s' : State := { s with phase := .fetch, status := .running, budget := max s.budget (s.t + 5) }
  { s' with
    imem := placeWords s.imem s'.fetchIndex.toNat
      [BitVec.ofNat 32 (w % 2 ^ nbits), BitVec.ofNat 32 (w % 2 ^ nbits / 2 ^ 32)] }

end Sys2Proof.Machine
end

