-- ==== Sys2Proof/Machine/Boot.lean ====
section
/-! DEFINITION. The boot interface: the fresh machine the host builds from the run parameters
(spec/60_exceptions.md R307, R330; spec/70_reset_and_hazards.md R340, R345). -/

namespace Sys2Proof.Machine

/-- R345: `b[4i] + b[4i+1]·2^8 + b[4i+2]·2^16 + b[4i+3]·2^24`. -/
def wordOfBytes (b0 b1 b2 b3 : Byte) : Word := b3 ++ b2 ++ b1 ++ b0

/-- R345: the image's words; a length that is not a multiple of 4 has none. -/
def wordsOfImage : List Byte → Option (List Word)
  | [] => some []
  | b0 :: b1 :: b2 :: b3 :: bs => (wordsOfImage bs).map (wordOfBytes b0 b1 b2 b3 :: ·)
  | _ => none

/-- The event of a well-formed entry; the line is 0 or 1 (R261). -/
def eventOf (e : SchedEntry) : Event := ⟨if e.line = 0 then .line0 else .line1, e.value⟩

/-- R261: the controller's partial map from tick to event. -/
def schedOf : List SchedEntry → List (Nat × Event)
  | [] => []
  | e :: es => tableInsert (schedOf es) e.tick (eventOf e)

/-- The fresh machine with these images, schedule and parameters: every other field as at reset (R34, R340). -/
def freshMachine (words : List Word) (r : RunInput) (v0 v1 : Word) : State :=
  { State.reset with
    imem := words
    dmem := Memory.ofBytes 0 r.dataImage
    sched := schedOf r.schedule
    dmemSize := r.dmemSize
    vec0 := v0
    vec1 := v1
    budget := r.budget }

/-- R307, R330: the machine built from the run parameters, or the refusal before the run. -/
def boot (r : RunInput) : Result :=
  match wordsOfImage r.instrImage with
  | none => .refused .raggedImage
  | some words =>
    if words.length ≥ 2 ^ 32 then .refused .imageTooLong
    else if r.dataImage.length > r.dmemSize then .refused .dataImageTooLong
    else if r.dmemSize > 2 ^ 32 then .refused .dataMemoryTooLarge
    else if scheduleWf r.schedule = false then .refused .illFormedSchedule
    else
      match r.vec0, r.vec1 with
      | some v0, some v1 => .next (freshMachine words r v0 v1)
      | _, _ => .refused .missingVector

end Sys2Proof.Machine
end

