-- ==== Sys2Proof/Machine/Tick.lean ====
section
/-! DEFINITION. The machine one tick at a time, as spec/40_engine.md R120 writes it: the microcode table, `Tick`, and
the body of the run loop. `step` (Machine/Step.lean) runs the ticks of one instruction; that it is these ticks is an
obligation. -/

namespace Sys2Proof.Machine

/-- The microcode table (R86, R90): the stages of each instruction, in order. -/
def microcode (i : Instr) : List Stage :=
  match i with
  | .nop => stagesNop
  | .halt => stagesHalt
  | .movReg rd rs1 => stagesMovReg rd rs1
  | .movImm rd => stagesMovImm rd
  | .ldAbs rd => stagesLdAbs rd
  | .ldInd rd rs1 => stagesLdInd rd rs1
  | .ldbAbs rd => stagesLdbAbs rd
  | .ldbInd rd rs1 => stagesLdbInd rd rs1
  | .stAbs rs1 => stagesStAbs rs1
  | .stInd rs1 rs2 => stagesStInd rs1 rs2
  | .stbAbs rs1 => stagesStbAbs rs1
  | .stbInd rs1 rs2 => stagesStbInd rs1 rs2
  | .addReg rd rs1 rs2 => stagesAddReg rd rs1 rs2
  | .addImm rd rs1 => stagesAddImm rd rs1
  | .subReg rd rs1 rs2 => stagesSubReg rd rs1 rs2
  | .subImm rd rs1 => stagesSubImm rd rs1
  | .mulReg rd rs1 rs2 => stagesMulReg rd rs1 rs2
  | .mulImm rd rs1 => stagesMulImm rd rs1
  | .divReg rd rs1 rs2 => stagesDivReg rd rs1 rs2
  | .divImm rd rs1 => stagesDivImm rd rs1
  | .cmpReg rs1 rs2 => stagesCmpReg rs1 rs2
  | .cmpImm rs1 => stagesCmpImm rs1
  | .jmp => stagesJmp
  | .je => stagesJe
  | .jne => stagesJne
  | .jl => stagesJl
  | .jle => stagesJle
  | .jg => stagesJg
  | .jge => stagesJge
  | .push rs1 => stagesPush rs1
  | .pop rd => stagesPop rd
  | .inPort rd => stagesInPort rd
  | .outPort rs1 => stagesOutPort rs1
  | .outlPort rs1 => stagesOutlPort rs1
  | .ei => stagesEi
  | .di => stagesDi
  | .iret => stagesIret

/-- `ExecStage(IR, k)` with the rest of its tick (R120, R123). -/
def execStageTick (k : Nat) (s : State) : Result :=
  match lookup s.ir with
  | .error _ => .refused .noSuchStage
  | .ok i =>
    match (microcode i)[k]? with
    | none => .refused .noSuchStage
    | some st => execTick (microcode i).length k st s

/-- `Tick()` (R120). -/
def tick (s : State) : Result :=
  match s.phase with
  | .fetch => fetchTick s
  | .exec k => execStageTick k s

/-- One turn of `Run()`'s loop (R120): the status and budget checks, then a tick. -/
def runLoopTurn (s : State) : Result := guarded s tick

/-- Turns of the run loop until the machine stands at a boundary or has stopped, at most `n`. -/
def ticksToBoundary : Nat → State → Result
  | 0, s => .next s
  | n + 1, s =>
    andThen (runLoopTurn s) fun s' =>
      match s'.status, s'.phase with
      | .running, .exec _ => ticksToBoundary n s'
      | _, _ => .next s'

end Sys2Proof.Machine
end

