-- ==== Sys2Proof/Safety.lean ====
section
/-! DEFINITION. The terms claims use: what a safe run is, what the host observes, when an instruction may start, what
an instruction leaves alone, and the invariant of the states a run can be in. -/

namespace Sys2Proof.Machine

/-! ### Runs -/

/-- A run of `k` steps with no fault and no refusal: "a claim about a run must take 'no fault' as a premise" (R305). -/
def SafeRun (k : Nat) (s : State) : Prop := ∃ t, Host.Core.run core k s = .next t

/-- The state a faulting run stopped in, "final for observation" (R305). -/
def Fault.final : Fault → State
  | .fetchOutOfRange _ s => s
  | .dataOutOfRange _ _ s => s
  | .iretNotInService s => s

/-- The state a step leaves for observation, if there is one. -/
def finalState : Result → Option State
  | .next s => some s
  | .fault f => some f.final
  | .refused _ => none

/-- What the host gets at the end of a run (R332). -/
structure Observation where
  output : List (Nat × List Byte)
  trace : List Warning
  status : Status
  t : Nat
  pc : Word
  regs : Vector Word 16
  flags : Flags
  ie : Bool
  insvc : Bool
  pend : Bool
  pline : Line
  dmem : Memory
deriving DecidableEq, Repr

/-- R332: the observation of a state. -/
def State.observe (s : State) : Observation where
  output := s.outbuf
  trace := s.trace
  status := s.status
  t := s.t
  pc := s.pc
  regs := s.regs
  flags := s.flags
  ie := s.ie
  insvc := s.insvc
  pend := s.pend
  pline := s.pline
  dmem := s.dmem

/-! ### The opcode map -/

/-- The column `match` of the opcode map (R90), copied from it; the decoder and the encoder do not use it. -/
def listedMatch : Instr → Nat
  | .nop => 0x00000000
  | .halt => 0x04000000
  | .movReg _ _ => 0x08200000
  | .movImm _ => 0x08400000
  | .ldAbs _ => 0x0C600000
  | .ldInd _ _ => 0x0C800000
  | .ldbAbs _ => 0x10600000
  | .ldbInd _ _ => 0x10800000
  | .stAbs _ => 0x14600000
  | .stInd _ _ => 0x14800000
  | .stbAbs _ => 0x18600000
  | .stbInd _ _ => 0x18800000
  | .addReg _ _ _ => 0x1C200000
  | .addImm _ _ => 0x1C400000
  | .subReg _ _ _ => 0x20200000
  | .subImm _ _ => 0x20400000
  | .mulReg _ _ _ => 0x24200000
  | .mulImm _ _ => 0x24400000
  | .divReg _ _ _ => 0x28200000
  | .divImm _ _ => 0x28400000
  | .cmpReg _ _ => 0x2C200000
  | .cmpImm _ => 0x2C400000
  | .jmp => 0x30600000
  | .je => 0x34600000
  | .jne => 0x38600000
  | .jl => 0x3C600000
  | .jle => 0x40600000
  | .jg => 0x44600000
  | .jge => 0x48600000
  | .push _ => 0x4C200000
  | .pop _ => 0x50200000
  | .inPort _ => 0x54A00000
  | .outPort _ => 0x58A00000
  | .outlPort _ => 0x5CA00000
  | .ei => 0x60000000
  | .di => 0x64000000
  | .iret => 0x68000000

/-- A register field of the instruction word (R80). -/
inductive RegField where
  | rd
  | rs1
  | rs2
deriving DecidableEq, Repr

/-- The lowest bit of a register field: bits 20:17, 16:13 and 12:9 (R80). -/
def RegField.lowBit : RegField → Nat
  | .rd => 17
  | .rs1 => 13
  | .rs2 => 9

/-- The column `fields` of the opcode map (R90), copied from it, each with the operand the assembler form of the
instruction's rule puts there (R127 to R274); the decoder and the encoder do not use it. -/
def listedFields : Instr → List (RegField × Reg)
  | .nop => []
  | .halt => []
  | .movReg d a => [(.rd, d), (.rs1, a)]
  | .movImm d => [(.rd, d)]
  | .ldAbs d => [(.rd, d)]
  | .ldInd d a => [(.rd, d), (.rs1, a)]
  | .ldbAbs d => [(.rd, d)]
  | .ldbInd d a => [(.rd, d), (.rs1, a)]
  | .stAbs a => [(.rs1, a)]
  | .stInd a b => [(.rs1, a), (.rs2, b)]
  | .stbAbs a => [(.rs1, a)]
  | .stbInd a b => [(.rs1, a), (.rs2, b)]
  | .addReg d a b => [(.rd, d), (.rs1, a), (.rs2, b)]
  | .addImm d a => [(.rd, d), (.rs1, a)]
  | .subReg d a b => [(.rd, d), (.rs1, a), (.rs2, b)]
  | .subImm d a => [(.rd, d), (.rs1, a)]
  | .mulReg d a b => [(.rd, d), (.rs1, a), (.rs2, b)]
  | .mulImm d a => [(.rd, d), (.rs1, a)]
  | .divReg d a b => [(.rd, d), (.rs1, a), (.rs2, b)]
  | .divImm d a => [(.rd, d), (.rs1, a)]
  | .cmpReg a b => [(.rs1, a), (.rs2, b)]
  | .cmpImm a => [(.rs1, a)]
  | .jmp => []
  | .je => []
  | .jne => []
  | .jl => []
  | .jle => []
  | .jg => []
  | .jge => []
  | .push a => [(.rs1, a)]
  | .pop d => [(.rd, d)]
  | .inPort d => [(.rd, d)]
  | .outPort a => [(.rs1, a)]
  | .outlPort a => [(.rs1, a)]
  | .ei => []
  | .di => []
  | .iret => []

/-- What an operand in its field adds to the word: `r·2^17`, `r·2^13` or `r·2^9` (R83). -/
def operandValue (p : RegField × Reg) : Nat := p.2.val * 2 ^ p.1.lowBit

/-! ### Starting an instruction -/

/-- The machine runs and stands before stage 0 of an instruction. -/
def AtStart (s : State) : Prop := s.status = .running ∧ s.phase.stage = 0

/-- The machine is at the start of an instruction and the budget lasts `n` more ticks. -/
def Runs (n : Nat) (s : State) : Prop := AtStart s ∧ s.t + n ≤ s.budget

/-- The machine is at the start of an instruction and the budget ends the run after `j` more ticks. -/
def RunsOnly (j : Nat) (s : State) : Prop := AtStart s ∧ s.t + j = s.budget

/-! ### Frames -/

/-- The input side of the I/O controller (`LATCH`, `SCHED`) and the pending slot of `t` are those of `s` after the
events of `n` ticks (R262): no instruction writes them. -/
structure OnlyEvents (n : Nat) (s t : State) : Prop where
  latch : t.latch = (passTicks n s).latch
  pend : t.pend = (passTicks n s).pend
  pline : t.pline = (passTicks n s).pline
  sched : t.sched = (passTicks n s).sched

/-- What no instruction writes: instruction memory (R50), the run parameters (R6), the trace (only a fetch warns, R124),
the latched instruction, and SNAP (only entry writes it, R29). -/
structure NeverWritten (s t : State) : Prop where
  imem : t.imem = s.imem
  dmemSize : t.dmemSize = s.dmemSize
  vec0 : t.vec0 = s.vec0
  vec1 : t.vec1 = s.vec1
  budget : t.budget = s.budget
  trace : t.trace = s.trace
  ir : t.ir = s.ir
  snap : t.snap = s.snap

/-- Every register outside `rs` keeps its value. -/
def OtherRegs (rs : List Reg) (s t : State) : Prop := ∀ r, r ∉ rs → t.reg r = s.reg r

/-- Every byte of data memory outside the `n` bytes from `a` reads as before. -/
def OtherBytes (a n : Nat) (s t : State) : Prop := ∀ b, b < a ∨ a + n ≤ b → t.byteAt b = s.byteAt b

/-- Every byte of data memory reads as before. -/
def SameMemory (s t : State) : Prop := ∀ b, t.byteAt b = s.byteAt b

/-- Every output buffer is as before. -/
def SameOutput (s t : State) : Prop := ∀ p, t.output p = s.output p

/-- The scratch registers and OUTL's held port are as before. -/
def SameScratch (s t : State) : Prop := t.s0 = s.s0 ∧ t.s1 = s.s1 ∧ t.irPort = s.irPort

/-- The two states differ at most in the scratch registers, IR and OUTL's held port. -/
def SameButScratch (s t : State) : Prop :=
  ∃ (a b p : Word) (f : Fields), t = { s with s0 := a, s1 := b, irPort := p, ir := f }

/-- The interrupt-enable and in-service bits are as before. -/
def SameControl (s t : State) : Prop := t.ie = s.ie ∧ t.insvc = s.insvc

/-- An instruction of `n` stages has completed: `n` ticks later the machine is at the boundary, running (R123, R125). -/
structure Completed (n : Nat) (s t : State) : Prop where
  ticks : t.t = s.t + n
  phase : t.phase = .fetch
  status : t.status = .running
  events : OnlyEvents n s t
  kept : NeverWritten s t

/-- An instruction of `n` stages has completed and wrote at most the registers `rs`, the flags and `pc`: data memory,
the output buffers, IE, INSVC and the scratch registers are as before. -/
structure OnlyWrites (n : Nat) (rs : List Reg) (pc : Word) (s t : State) : Prop where
  completed : Completed n s t
  otherRegs : OtherRegs rs s t
  pc : t.pc = pc
  memory : SameMemory s t
  output : SameOutput s t
  control : SameControl s t
  scratch : SameScratch s t

/-- The budget has ended the run after `j` of an instruction's stages (R126). -/
structure CutAfter (j : Nat) (s t : State) : Prop where
  ticks : t.t = s.t + j
  stage : t.phase.stage = j
  status : t.status = .budget
  events : OnlyEvents j s t
  kept : NeverWritten s t

/-! ### The invariant -/

/-- What every state of a run keeps: the maps in their canonical form; data memory inside DMEM_SIZE (R52); latches
only on ports 0 and 1 (R260); no scheduled event before the next tick (R263); `IR` and the stage legal (R123); a
4-byte access under way inside data memory (R60); the budget not passed (R120); no FAULT status in a next state. -/
structure State.Inv (s : State) : Prop where
  dmemWf : Memory.wf s.dmem = true
  dmemInside : ∀ e ∈ s.dmem, e.1 < s.dmemSize
  dmemSizeMax : s.dmemSize ≤ 2 ^ 32
  imemShort : s.imem.length < 2 ^ 32
  latchWf : tableWf 0#8 s.latch = true
  latchPorts : ∀ e ∈ s.latch, e.1 < 2
  outbufWf : tableWf [] s.outbuf = true
  schedAhead : keysRise s.t s.sched = true
  stageLegal : ∀ k, s.phase = .exec k → ∃ i, lookup s.ir = .ok i ∧ k < i.stages
  accessInside : ∀ k i, s.phase = .exec (k + 1) → lookup s.ir = .ok i → i.stages = 4 → s.s0.toNat + 4 ≤ s.dmemSize
  inBudget : s.t ≤ s.budget
  notFaulted : ∀ r, s.status ≠ .fault r

end Sys2Proof.Machine
end

