-- ==== Sys2Proof/Certificates/Slice0/Obligations.lean ====
section
/-! DEFINITION. The statements about the machine, each from the spec's numbered rules. A statement about an
instruction starts it at stage 0 with a budget that lasts it (`Runs`), and says what the state holds after its ticks;
the events sampled in those ticks are in `Completed` (`OnlyEvents`). -/

open Sys2Proof Sys2Proof.Machine

/-! ### Encoding -/

/-- R83, R85: the encoder's value on numbers in range, no encoding out of range, and both round trips of fields. -/
def Obligations.EncoderAndDecoderAreInverse : Prop :=
  (∀ f : RawFields, f.wf = true → ∃ w, encodeRaw f = some w ∧
    w.toNat = f.op * 2 ^ 26 + f.mode * 2 ^ 21 + f.rd * 2 ^ 17 + f.rs1 * 2 ^ 13 + f.rs2 * 2 ^ 9 ∧
    (fieldsOf w).op.toNat = f.op ∧ (fieldsOf w).mode.toNat = f.mode ∧ (fieldsOf w).rd.toNat = f.rd ∧
    (fieldsOf w).rs1.toNat = f.rs1 ∧ (fieldsOf w).rs2.toNat = f.rs2) ∧
  (∀ f : RawFields, f.wf = false → encodeRaw f = none) ∧
  (∀ f : Fields, fieldsOf (encodeFields f) = f) ∧
  (∀ w : Word, encodeFields (fieldsOf w) = w &&& 0xFFFFFE00#32)

/-- Every instruction decodes from its own encoding, with every operand at every value. -/
def Obligations.DecodeOfEncodeIsTheInstruction : Prop := ∀ i : Instr, decode (encode i) = .ok i

/-- R90, R93: a word is an instruction exactly when the bits its pair reads are that instruction's; the reserved bits
and the register fields the pair does not list change nothing. -/
def Obligations.DecodeReadsOnlyTheListedBits : Prop :=
  ∀ (w : Word) (i : Instr), decode w = .ok i ↔ w &&& i.usedMask = encode i

/-- R90, R83: the word of every instruction is its pair's `match` word with the operands it lists in bits 20:17, 16:13
and 12:9 (`listedMatch` and `listedFields`, copied from the opcode map); a pair is selected by the bits of 0xFFE00000
alone; and a word that decodes holds the instruction's operands in the places listed. -/
def Obligations.EncodingsAreTheListedWords : Prop :=
  (∀ i : Instr, (encode i).toNat = listedMatch i + ((listedFields i).map operandValue).sum) ∧
  (∀ (w : Word) (i : Instr), decode w = .ok i → w &&& 0xFFE00000#32 = BitVec.ofNat 32 (listedMatch i)) ∧
  (∀ (w : Word) (i : Instr), w &&& 0xFFE00000#32 = BitVec.ofNat 32 (listedMatch i) →
    ∃ i', decode w = .ok i' ∧ listedMatch i' = listedMatch i) ∧
  (∀ (w : Word) (i : Instr), decode w = .ok i → ∀ p ∈ listedFields i, w.toNat / 2 ^ p.1.lowBit % 16 = p.2.val)

/-- R86: every pair that is no row of the map is rejected by its name, and 37 of the 2048 pairs are rows; the lookup
reads bits 31:21 alone: two words that agree in them find the same row, or are rejected alike. -/
def Obligations.UnknownPairsAreRejectedByName : Prop :=
  (∀ w : Word, decode w = .error (.unknownPair (w.extractLsb' 26 6) (w.extractLsb' 21 5)) ↔
    pairValid (w.toNat / 2 ^ 26) (w.toNat / 2 ^ 21 % 32) = false) ∧
  (∀ w : Word, (∃ i, decode w = .ok i) ↔ pairValid (w.toNat / 2 ^ 26) (w.toNat / 2 ^ 21 % 32) = true) ∧
  (∀ w w' : Word, w &&& 0xFFE00000#32 = w' &&& 0xFFE00000#32 →
    (∀ i, decode w = .ok i → ∃ i', decode w' = .ok i' ∧ listedMatch i' = listedMatch i) ∧
    (∀ x, decode w = .error x → decode w' = .error x)) ∧
  ((List.range 64).flatMap fun op => (List.range 32).filter (pairValid op)).length = 37

/-- Words of 95_test_vectors.md (D-ENC and the encoder vectors) decode to the instructions they stand for. -/
def Obligations.SpecWordsDecodeAsListed : Prop :=
  decode 0x1C224600 = .ok (.addReg 1 2 3) ∧ decode 0x000001FF = .ok .nop ∧ decode 0x041E0000 = .ok .halt ∧
  decode 0x0C888000 = .ok (.ldInd 4 4) ∧ decode 0x14802400 = .ok (.stInd 1 2) ∧
  decode 0x5CA08000 = .ok (.outlPort 4) ∧ decode 0x2C3FFFFF = .ok (.cmpReg 15 15) ∧
  decode 0x4C21E000 = .ok (.push 15) ∧ decode 0x68000000 = .ok .iret ∧
  decode 0x6C000000 = .error (.unknownPair 0x1B 0) ∧ decode 0x00C00000 = .error (.unknownPair 0 6)

/-- R87, R90: the microcode of a pair has as many stages as the table's column says. -/
def Obligations.MicrocodeHasTheListedStages : Prop := ∀ i : Instr, (microcode i).length = i.stages

/-! ### The engine -/

/-- R122, R123: at a boundary the step is one fetch tick (sampling, the interrupt check, the fetch at `fetchIndex`) and
then the decoded instruction; in the middle of an instruction it is the rest of the instruction in IR. -/
def Obligations.StepRunsTheDecodedInstruction : Prop :=
  (∀ (s : State) (w : Word) (i : Instr), s.status = .running → s.t ≠ s.budget → s.phase = .fetch →
    s.imemAt s.fetchIndex = some w → decode w = .ok i →
    step s = exec i { interruptCheck (sampleEvents s) with
      pc := s.fetchIndex + 1, ir := fieldsOf w, phase := .exec 0, t := s.t + 1 }) ∧
  (∀ (s : State) (k : Nat) (i : Instr), s.status = .running → s.t ≠ s.budget → s.phase = .exec k →
    lookup s.ir = .ok i → step s = exec i s)

/-- R120, R125: one step is the ticks of the run loop from a state to the next boundary or stop; an instruction takes
at most five. (That a step is a whole instruction is the model's choice, log 1.) -/
def Obligations.StepIsItsTicks : Prop := ∀ s : State, step s = ticksToBoundary 5 s

/-- R124, R301: an unknown pair takes its fetch tick, moves `pc` past its own word, leaves a warning, and changes
nothing else (the tick's sampling and interrupt check apart). -/
def Obligations.UnknownPairIsSkipped : Prop :=
  ∀ (s : State) (w : Word) (op : BitVec 6) (mode : BitVec 5), s.status = .running → s.t ≠ s.budget →
    s.phase = .fetch → s.imemAt s.fetchIndex = some w → decode w = .error (.unknownPair op mode) →
    step s = .next { interruptCheck (sampleEvents s) with
      pc := s.fetchIndex + 1, trace := s.trace ++ [⟨op, mode, s.fetchIndex⟩], t := s.t + 1 }

/-- R51: a fetch, and the extension word of every pair that has one, at or past the end of the image faults before
`pc` advances. (The whole final state is stated: that the faulting tick's event stays sampled, and that an interrupt
entered in the fetch tick stays entered, is the model's reading, log 9.) -/
def Obligations.ReadsPastTheImageFault : Prop :=
  (∀ s : State, s.status = .running → s.t ≠ s.budget → s.phase = .fetch → s.imem.length ≤ s.fetchIndex.toNat →
    step s = .fault (.fetchOutOfRange s.fetchIndex
      { interruptCheck (sampleEvents s) with status := .fault (.fetchOutOfRange s.fetchIndex) })) ∧
  (∀ (i : Instr) (s : State), i.extWords = 1 → Runs 1 s → s.imem.length ≤ s.pc.toNat →
    exec i s = .fault (.fetchOutOfRange s.pc { sampleEvents s with status := .fault (.fetchOutOfRange s.pc) }))

/-- R126, R325: no tick runs after a stop, and nothing wakes the machine (that its step answers the same state is the
model's choice, log 7). -/
def Obligations.StoppedMachineRunsNoTick : Prop :=
  ∀ s : State, s.status ≠ .running → step s = .next s ∧ runLoopTurn s = .next s

/-- R120, R126: at `t = TICK_BUDGET` the run ends with status BUDGET, at a boundary or inside an instruction, and
nothing else changes. -/
def Obligations.BudgetEndsTheRun : Prop :=
  ∀ s : State, s.status = .running → s.t = s.budget →
    step s = .next { s with status := .budget } ∧ runLoopTurn s = .next { s with status := .budget }

/-- R125, R360: an instruction that ends at a boundary, or by HALT, took its fetch tick and its stages. -/
def Obligations.InstructionOccupiesItsTicks : Prop :=
  ∀ (s t : State) (w : Word) (i : Instr), s.status = .running → s.phase = .fetch →
    s.imemAt s.fetchIndex = some w → decode w = .ok i → step s = .next t →
    (t.status = .running → t.t = s.t + 1 + i.stages ∧ t.phase = .fetch) ∧
    (t.status = .halted → t.t = s.t + 1 + i.stages)

/-- R305, R306: a fault comes from stage 0 only; it leaves every register, flag, memory byte, buffer and interrupt
state as before the stage, `pc` too but for an extension word already read, and `t` at the faulting tick; the final
state's status is FAULT with the fault's own reason. (The event of the faulting tick stays sampled, log 9; the scratch
registers stay, log 8.) -/
def Obligations.FaultsArePrecise : Prop :=
  ∀ (i : Instr) (s : State) (f : Fault), exec i s = .fault f →
    s.phase.stage = 0 ∧ (∃ r, f = faultOf r f.final ∧ f.final.status = .fault r) ∧
    f.final.regs = s.regs ∧ f.final.flags = s.flags ∧ f.final.dmem = s.dmem ∧ f.final.outbuf = s.outbuf ∧
    SameControl s f.final ∧ SameScratch s f.final ∧ NeverWritten s f.final ∧ OnlyEvents 1 s f.final ∧
    f.final.t = s.t ∧ f.final.phase = s.phase ∧
    (f.final.pc = s.pc ∨ (i.extWords = 1 ∧ f.final.pc = s.pc + 1 ∧ s.pc.toNat < s.imem.length))

/-! ### Reset and boot -/

/-- The reset state meets the invariant and is the fresh machine of an empty program with Config's parameters (the
parameters and the empty program are the model's choice, log 2 to 5). -/
def Obligations.ResetIsAWellFormedFreshMachine : Prop :=
  State.reset.Inv ∧
  boot ⟨[], [], [], Config.resetBudget, false, Config.resetDmemSize, some Config.vec0, some Config.vec1⟩ =
    .next State.reset

/-- R307: a machine is built exactly from well-formed run parameters (two of the bounds are log 15's), and building
one never faults. -/
def Obligations.BootAcceptsExactlyWellFormedInput : Prop :=
  ∀ r : RunInput, ((∃ s, boot r = .next s) ↔ r.wf = true) ∧ ∀ f, boot r ≠ .fault f

/-- R34, R53, R340, R345: what a fresh machine holds. -/
def Obligations.FreshMachineHoldsTheResetValues : Prop :=
  ∀ (r : RunInput) (s : State), boot r = .next s →
    (∀ q, s.reg q = 0) ∧ s.s0 = 0 ∧ s.s1 = 0 ∧ s.pc = 0 ∧ s.flags = ⟨false, false, false, false⟩ ∧
    s.ie = false ∧ s.insvc = false ∧ s.pend = false ∧ s.pline = .line0 ∧
    s.snap.pc = 0 ∧ s.snap.flags = ⟨false, false, false, false⟩ ∧ (∀ q : Reg, s.snap.regs[q.val] = 0) ∧
    s.phase = .fetch ∧ s.ir = ⟨0, 0, 0, 0, 0⟩ ∧ s.t = 0 ∧ s.status = .running ∧
    (∀ p, s.portIn p = 0) ∧ (∀ p, s.output p = []) ∧
    4 * s.imem.length = r.instrImage.length ∧
    (∀ (k : Nat) (w : Word), s.imem[k]? = some w → w.toNat =
      (r.instrImage.getD (4 * k) 0).toNat + (r.instrImage.getD (4 * k + 1) 0).toNat * 2 ^ 8 +
      (r.instrImage.getD (4 * k + 2) 0).toNat * 2 ^ 16 + (r.instrImage.getD (4 * k + 3) 0).toNat * 2 ^ 24) ∧
    (∀ a, s.byteAt a = r.dataImage.getD a 0) ∧
    (∀ n, tableFind s.sched n = (r.schedule.find? (fun e => e.tick == n)).map eventOf) ∧
    s.dmemSize = r.dmemSize ∧ s.budget = r.budget ∧ r.vec0 = some s.vec0 ∧ r.vec1 = some s.vec1

/-- A fresh machine meets the invariant. -/
def Obligations.BootIsWellFormed : Prop := ∀ (r : RunInput) (s : State), boot r = .next s → s.Inv

/-- Every step keeps the invariant: canonical maps, data memory inside DMEM_SIZE, latches on ports 0 and 1 only, no
event behind the clock, a legal stage, an access under way inside data memory, the budget not passed. -/
def Obligations.StepKeepsWellFormed : Prop := ∀ s t : State, s.Inv → step s = .next t → t.Inv

/-- From a well-formed state a step is never refused: it runs, stands still after a stop, or faults. -/
def Obligations.WellFormedStepIsNeverRefused : Prop := ∀ (s : State) (x : Refusal), s.Inv → step s ≠ .refused x

/-- The words `withFetchWord` places are what the next step fetches, and the machine is at a running boundary with a
budget that lasts (log 5). -/
def Obligations.PlacedWordIsFetchedNext : Prop :=
  ∀ (s : State) (nbits w : Nat), (s.withFetchWord nbits w).status = .running ∧
    (s.withFetchWord nbits w).phase = .fetch ∧ (s.withFetchWord nbits w).t + 5 ≤ (s.withFetchWord nbits w).budget ∧
    (s.withFetchWord nbits w).imemAt (s.withFetchWord nbits w).fetchIndex = some (BitVec.ofNat 32 (w % 2 ^ nbits))

/-! ### Control flow -/

/-- R127: every word whose bits 31:21 are 0 is a NOP, and a NOP changes nothing but the tick count. -/
def Obligations.NopOnlyAdvancesTime : Prop :=
  (∀ w : Word, decode w = .ok .nop ↔ w &&& 0xFFE00000#32 = 0) ∧
  ∀ s : State, Runs 1 s →
    ∃ t, exec .nop s = .next t ∧ OnlyWrites 1 [] s.pc s t ∧ t.flags = s.flags

/-- R128: HALT's stage sets HALTED and its tick counts; the tick's event is sampled, nothing else changes, and no
later tick runs, whatever is pending. -/
def Obligations.HaltStopsTheRun : Prop :=
  encode .halt = 0x04000000 ∧ ∀ s : State, Runs 1 s →
    ∃ t, exec .halt s = .next t ∧ t.status = .halted ∧ t.t = s.t + 1 ∧ t.pc = s.pc ∧ t.flags = s.flags ∧
      OnlyEvents 1 s t ∧ NeverWritten s t ∧ OtherRegs [] s t ∧ SameMemory s t ∧ SameOutput s t ∧
      SameControl s t ∧ SameScratch s t ∧ runLoopTurn t = .next t

/-- R129 to R136: each jump reads its target and takes it on its condition; it writes `pc` and nothing else. -/
def Obligations.JumpsFollowTheirConditions : Prop :=
  ∀ (s : State) (target : Word) (i : Instr) (taken : Bool), Runs 1 s → s.imemAt s.pc = some target →
    (i = .jmp ∧ taken = true ∨ i = .je ∧ taken = s.flags.z ∨ i = .jne ∧ taken = !s.flags.z ∨
      i = .jl ∧ taken = (s.flags.n != s.flags.v) ∨ i = .jle ∧ taken = (s.flags.z || s.flags.n != s.flags.v) ∨
      i = .jg ∧ taken = (!s.flags.z && s.flags.n == s.flags.v) ∨ i = .jge ∧ taken = (s.flags.n == s.flags.v)) →
    ∃ t, exec i s = .next t ∧ OnlyWrites 1 [] (if taken then target else s.pc + 1) s t ∧ t.flags = s.flags

/-- R131 to R136 with R213 and R217: in the step after `CMP a, b`, of either operand mode, each conditional jump is taken
exactly on its signed relation. The jump is the instruction fetched next, at a boundary where no interrupt is entered. -/
def Obligations.CompareThenJumpDecidesTheOrder : Prop :=
  ∀ (s t : State) (rs1 rs2 : Reg) (i j : Instr) (b w target : Word) (taken : Bool), Runs 1 s →
    (i = .cmpReg rs1 rs2 ∧ b = s.reg rs2 ∨ i = .cmpImm rs1 ∧ s.imemAt s.pc = some b) → exec i s = .next t →
    t.t + 2 ≤ t.budget → interruptCheck (sampleEvents t) = sampleEvents t →
    t.imemAt t.pc = some w → decode w = .ok j → t.imemAt (t.pc + 1) = some target →
    (j = .je ∧ taken = decide (s.reg rs1 = b) ∨ j = .jne ∧ taken = decide (s.reg rs1 ≠ b) ∨
      j = .jl ∧ taken = decide ((s.reg rs1).toInt < b.toInt) ∨
      j = .jle ∧ taken = decide ((s.reg rs1).toInt ≤ b.toInt) ∨
      j = .jg ∧ taken = decide ((s.reg rs1).toInt > b.toInt) ∨
      j = .jge ∧ taken = decide ((s.reg rs1).toInt ≥ b.toInt)) →
    ∃ u, step t = .next u ∧ u.pc = (if taken then target else t.pc + 2) ∧ u.flags = t.flags ∧ u.t = t.t + 2 ∧
      u.phase = .fetch ∧ u.status = .running ∧ OtherRegs [] t u ∧ SameMemory t u

/-! ### Data transfer -/

/-- R160, R161. -/
def Obligations.MovWritesItsDestination : Prop :=
  (∀ (s : State) (rd rs1 : Reg), Runs 1 s →
    ∃ t, exec (.movReg rd rs1) s = .next t ∧ t.reg rd = s.reg rs1 ∧ OnlyWrites 1 [rd] s.pc s t ∧
      t.flags = s.flags) ∧
  (∀ (s : State) (rd : Reg) (imm : Word), Runs 1 s → s.imemAt s.pc = some imm →
    ∃ t, exec (.movImm rd) s = .next t ∧ t.reg rd = imm ∧ OnlyWrites 1 [rd] (s.pc + 1) s t ∧ t.flags = s.flags)

/-- R162, R163 (with R55, R60, R61): LD from the extension word's address or the register's. It gathers four bytes
little-endian over four ticks; out of range it faults at stage 0; cut by the budget it has written no register. (That a
fault leaves S0 and S1, log 8, and the event of its tick sampled, log 9, is the model's reading.) -/
def Obligations.LoadWordGathersFourBytes : Prop :=
  ∀ (s : State) (rd rs1 : Reg) (i : Instr) (addr pc' : Word),
    (i = .ldAbs rd ∧ s.imemAt s.pc = some addr ∧ pc' = s.pc + 1 ∨ i = .ldInd rd rs1 ∧ addr = s.reg rs1 ∧ pc' = s.pc) →
    (Runs 4 s → addr.toNat + 4 ≤ s.dmemSize →
      ∃ t, exec i s = .next t ∧
        t.reg rd = s.byteAt (addr.toNat + 3) ++ s.byteAt (addr.toNat + 2) ++ s.byteAt (addr.toNat + 1) ++
          s.byteAt addr.toNat ∧
        t.s0 = addr ∧ t.s1 = t.reg rd ∧ t.irPort = s.irPort ∧ t.pc = pc' ∧ t.flags = s.flags ∧ Completed 4 s t ∧
        OtherRegs [rd] s t ∧ SameMemory s t ∧ SameOutput s t ∧ SameControl s t) ∧
    (Runs 1 s → s.dmemSize < addr.toNat + 4 →
      exec i s = .fault (.dataOutOfRange addr 4
        { sampleEvents s with pc := pc', status := .fault (.dataOutOfRange addr 4) })) ∧
    (∀ j < 4, RunsOnly j s → (j = 0 ∨ addr.toNat + 4 ≤ s.dmemSize) →
      ∃ t, exec i s = .next t ∧ CutAfter j s t ∧ OtherRegs [] s t ∧ SameMemory s t ∧ SameOutput s t ∧
        SameControl s t ∧ t.flags = s.flags)

/-- R164, R165: LDB zero-extends one byte in one stage; out of range it faults. (That the event of the faulting tick
stays sampled is the model's reading, log 9.) -/
def Obligations.LoadByteZeroExtends : Prop :=
  ∀ (s : State) (rd rs1 : Reg) (i : Instr) (addr pc' : Word), Runs 1 s →
    (i = .ldbAbs rd ∧ s.imemAt s.pc = some addr ∧ pc' = s.pc + 1 ∨
      i = .ldbInd rd rs1 ∧ addr = s.reg rs1 ∧ pc' = s.pc) →
    (addr.toNat + 1 ≤ s.dmemSize →
      ∃ t, exec i s = .next t ∧ (t.reg rd).toNat = (s.byteAt addr.toNat).toNat ∧ OnlyWrites 1 [rd] pc' s t ∧
        t.flags = s.flags) ∧
    (s.dmemSize < addr.toNat + 1 →
      exec i s = .fault (.dataOutOfRange addr 1
        { sampleEvents s with pc := pc', status := .fault (.dataOutOfRange addr 1) }))

/-- R166, R167 (with R55, R60, R61): ST to the extension word's address or the register's. Byte `k` of the register
goes to `addr + k`, one a tick; out of range nothing is written; cut by the budget the first `j` bytes are written and
no other. (That a fault leaves S0 and S1, log 8, and the event of its tick sampled, log 9, is the model's reading.) -/
def Obligations.StoreWordWritesFourBytes : Prop :=
  ∀ (s : State) (rs1 rs2 : Reg) (i : Instr) (addr pc' : Word), Memory.wf s.dmem = true →
    (i = .stAbs rs1 ∧ s.imemAt s.pc = some addr ∧ pc' = s.pc + 1 ∨
      i = .stInd rs1 rs2 ∧ addr = s.reg rs2 ∧ pc' = s.pc) →
    (Runs 4 s → addr.toNat + 4 ≤ s.dmemSize →
      ∃ t, exec i s = .next t ∧ (∀ k < 4, t.byteAt (addr.toNat + k) = (s.reg rs1).extractLsb' (8 * k) 8) ∧
        OtherBytes addr.toNat 4 s t ∧ t.s0 = addr ∧ t.s1 = s.reg rs1 ∧ t.irPort = s.irPort ∧ t.pc = pc' ∧
        t.flags = s.flags ∧ Completed 4 s t ∧ OtherRegs [] s t ∧ SameOutput s t ∧ SameControl s t) ∧
    (Runs 1 s → s.dmemSize < addr.toNat + 4 →
      exec i s = .fault (.dataOutOfRange addr 4
        { sampleEvents s with pc := pc', status := .fault (.dataOutOfRange addr 4) })) ∧
    (∀ j < 4, RunsOnly j s → (j = 0 ∨ addr.toNat + 4 ≤ s.dmemSize) →
      ∃ t, exec i s = .next t ∧ (∀ k < j, t.byteAt (addr.toNat + k) = (s.reg rs1).extractLsb' (8 * k) 8) ∧
        OtherBytes addr.toNat j s t ∧ CutAfter j s t ∧ OtherRegs [] s t ∧ SameOutput s t ∧ SameControl s t ∧
        t.flags = s.flags)

/-- R168, R169: STB writes the register's low byte in one stage; out of range it faults. (That the event of the
faulting tick stays sampled is the model's reading, log 9.) -/
def Obligations.StoreByteWritesTheLowByte : Prop :=
  ∀ (s : State) (rs1 rs2 : Reg) (i : Instr) (addr pc' : Word), Runs 1 s → Memory.wf s.dmem = true →
    (i = .stbAbs rs1 ∧ s.imemAt s.pc = some addr ∧ pc' = s.pc + 1 ∨
      i = .stbInd rs1 rs2 ∧ addr = s.reg rs2 ∧ pc' = s.pc) →
    (addr.toNat + 1 ≤ s.dmemSize →
      ∃ t, exec i s = .next t ∧ t.byteAt addr.toNat = (s.reg rs1).extractLsb' 0 8 ∧ OtherBytes addr.toNat 1 s t ∧
        t.pc = pc' ∧ t.flags = s.flags ∧ Completed 1 s t ∧ OtherRegs [] s t ∧ SameOutput s t ∧ SameControl s t ∧
        SameScratch s t) ∧
    (s.dmemSize < addr.toNat + 1 →
      exec i s = .fault (.dataOutOfRange addr 1
        { sampleEvents s with pc := pc', status := .fault (.dataOutOfRange addr 1) }))

/-- R170: PUSH stores at `x[15] - 4` (modulo 2^32) the register's value from before the decrement, and R15 follows in
the last stage; out of range it faults with R15 unchanged; cut by the budget R15 is unchanged. (That a fault leaves S0
and S1, log 8, and the event of its tick sampled, log 9, is the model's reading.) -/
def Obligations.PushStoresBelowTheStackPointer : Prop :=
  ∀ (s : State) (rs1 : Reg), Memory.wf s.dmem = true →
    (Runs 4 s → s.pushAddr.toNat + 4 ≤ s.dmemSize →
      ∃ t, exec (.push rs1) s = .next t ∧ s.pushAddr = s.reg 15 - 4 ∧ t.reg 15 = s.pushAddr ∧
        (∀ k < 4, t.byteAt (s.pushAddr.toNat + k) = (s.reg rs1).extractLsb' (8 * k) 8) ∧
        OtherBytes s.pushAddr.toNat 4 s t ∧ t.s0 = s.pushAddr ∧ t.s1 = s.reg rs1 ∧ t.irPort = s.irPort ∧
        t.pc = s.pc ∧ t.flags = s.flags ∧ Completed 4 s t ∧ OtherRegs [15] s t ∧ SameOutput s t ∧ SameControl s t) ∧
    (Runs 1 s → s.dmemSize < s.pushAddr.toNat + 4 →
      exec (.push rs1) s = .fault (.dataOutOfRange s.pushAddr 4
        { sampleEvents s with status := .fault (.dataOutOfRange s.pushAddr 4) })) ∧
    ((s.reg 15).toNat < 4 → s.dmemSize < 2 ^ 32 → s.dmemSize < s.pushAddr.toNat + 4) ∧
    (∀ j < 4, RunsOnly j s → (j = 0 ∨ s.pushAddr.toNat + 4 ≤ s.dmemSize) →
      ∃ t, exec (.push rs1) s = .next t ∧
        (∀ k < j, t.byteAt (s.pushAddr.toNat + k) = (s.reg rs1).extractLsb' (8 * k) 8) ∧
        OtherBytes s.pushAddr.toNat j s t ∧ CutAfter j s t ∧ OtherRegs [] s t ∧ SameOutput s t ∧
        SameControl s t ∧ t.flags = s.flags)

/-- R172: POP loads from `x[15]`, adds 4 to R15 and writes the destination last, so POP R15 leaves the popped word;
memory is not cleared; out of range it faults; cut by the budget no register has changed. (That a fault leaves S0 and
S1, log 8, and the event of its tick sampled, log 9, is the model's reading.) -/
def Obligations.PopLoadsFromTheStackPointer : Prop :=
  ∀ (s : State) (rd : Reg),
    (Runs 4 s → (s.reg 15).toNat + 4 ≤ s.dmemSize →
      ∃ t, exec (.pop rd) s = .next t ∧
        t.reg rd = s.byteAt ((s.reg 15).toNat + 3) ++ s.byteAt ((s.reg 15).toNat + 2) ++
          s.byteAt ((s.reg 15).toNat + 1) ++ s.byteAt (s.reg 15).toNat ∧
        (rd ≠ 15 → t.reg 15 = s.reg 15 + 4) ∧ t.s0 = s.reg 15 ∧ t.s1 = t.reg rd ∧ t.irPort = s.irPort ∧
        t.pc = s.pc ∧ t.flags = s.flags ∧ Completed 4 s t ∧ OtherRegs [15, rd] s t ∧ SameMemory s t ∧
        SameOutput s t ∧ SameControl s t) ∧
    (Runs 1 s → s.dmemSize < (s.reg 15).toNat + 4 →
      exec (.pop rd) s = .fault (.dataOutOfRange (s.reg 15) 4
        { sampleEvents s with status := .fault (.dataOutOfRange (s.reg 15) 4) })) ∧
    (∀ j < 4, RunsOnly j s → (j = 0 ∨ (s.reg 15).toNat + 4 ≤ s.dmemSize) →
      ∃ t, exec (.pop rd) s = .next t ∧ CutAfter j s t ∧ OtherRegs [] s t ∧ SameMemory s t ∧ SameOutput s t ∧
        SameControl s t ∧ t.flags = s.flags)

/-- R170, R172 together: a POP in the step right after a PUSH gives the pushed value back and R15 its old value. The POP
is the instruction fetched next, at a boundary where no interrupt is entered. -/
def Obligations.PopUndoesPush : Prop :=
  ∀ (s t : State) (rs1 rd : Reg) (w : Word), Memory.wf s.dmem = true → Runs 4 s →
    s.pushAddr.toNat + 4 ≤ s.dmemSize → exec (.push rs1) s = .next t →
    t.t + 5 ≤ t.budget → interruptCheck (sampleEvents t) = sampleEvents t →
    t.imemAt t.pc = some w → decode w = .ok (.pop rd) →
    ∃ u, step t = .next u ∧ u.reg rd = s.reg rs1 ∧ (rd ≠ 15 → u.reg 15 = s.reg 15) ∧ u.pc = t.pc + 1 ∧
      u.t = t.t + 5 ∧ u.phase = .fetch ∧ u.status = .running ∧ u.flags = s.flags ∧ OtherRegs [15, rd] s u ∧
      OtherBytes s.pushAddr.toNat 4 s u

/-- R57 over the instructions: a byte access at `a + j` sees bits `8j+7:8j` of the word that a 4-byte access at `a` sees.
In data memory of the same bytes LDB at `a + j` loads that byte of the word LD at `a` loads; after ST at `a` it loads that
byte of the word stored; and after STB at `a + j` that byte of the word LD at `a` loads is the byte stored and its other
bytes are as before. -/
def Obligations.ByteAndWordAccessesAgree : Prop :=
  ∀ (s s' : State) (rd rd' ra rb : Reg) (addr addr' : Word) (j : Nat), j < 4 →
    addr.toNat + 4 ≤ s.dmemSize → s'.dmemSize = s.dmemSize → addr'.toNat = addr.toNat + j →
    (∀ i i' : Instr, Runs 4 s → Runs 1 s' → SameMemory s s' →
      (i = .ldAbs rd ∧ s.imemAt s.pc = some addr ∨ i = .ldInd rd ra ∧ addr = s.reg ra) →
      (i' = .ldbAbs rd' ∧ s'.imemAt s'.pc = some addr' ∨ i' = .ldbInd rd' rb ∧ addr' = s'.reg rb) →
      ∃ t u, exec i s = .next t ∧ exec i' s' = .next u ∧
        u.reg rd' = ((t.reg rd).extractLsb' (8 * j) 8).setWidth 32) ∧
    (∀ (i i' : Instr) (t : State), Runs 4 s → Memory.wf s.dmem = true →
      (i = .stAbs rd ∧ s.imemAt s.pc = some addr ∨ i = .stInd rd ra ∧ addr = s.reg ra) →
      exec i s = .next t → Runs 1 s' → SameMemory t s' →
      (i' = .ldbAbs rd' ∧ s'.imemAt s'.pc = some addr' ∨ i' = .ldbInd rd' rb ∧ addr' = s'.reg rb) →
      ∃ u, exec i' s' = .next u ∧ u.reg rd' = ((s.reg rd).extractLsb' (8 * j) 8).setWidth 32) ∧
    (∀ (i i' : Instr) (u : State), Runs 1 s' → Memory.wf s'.dmem = true →
      (i' = .stbAbs rd' ∧ s'.imemAt s'.pc = some addr' ∨ i' = .stbInd rd' rb ∧ addr' = s'.reg rb) →
      exec i' s' = .next u → Runs 4 s → SameMemory u s →
      (i = .ldAbs rd ∧ s.imemAt s.pc = some addr ∨ i = .ldInd rd ra ∧ addr = s.reg ra) →
      ∃ t, exec i s = .next t ∧ ∀ k < 4, (t.reg rd).extractLsb' (8 * k) 8 =
        if k = j then (s'.reg rd').extractLsb' 0 8 else s'.byteAt (addr.toNat + k))

/-! ### Arithmetic -/

/-- R201 (with R200, R202, R203): ADD in both operand modes. -/
def Obligations.AddWritesTheSumAndFlags : Prop :=
  ∀ (s : State) (rd rs1 rs2 : Reg) (i : Instr) (b pc' : Word), Runs 1 s →
    (i = .addReg rd rs1 rs2 ∧ b = s.reg rs2 ∧ pc' = s.pc ∨
      i = .addImm rd rs1 ∧ s.imemAt s.pc = some b ∧ pc' = s.pc + 1) →
    ∃ t, exec i s = .next t ∧ t.reg rd = s.reg rs1 + b ∧
      t.flags.n = (s.reg rs1 + b).getLsbD 31 ∧ t.flags.z = decide (s.reg rs1 + b = 0) ∧
      t.flags.v = ((s.reg rs1).getLsbD 31 == b.getLsbD 31 &&
        (s.reg rs1 + b).getLsbD 31 != (s.reg rs1).getLsbD 31) ∧
      t.flags.c = decide ((s.reg rs1).toNat + b.toNat > 2 ^ 32 - 1) ∧ OnlyWrites 1 [rd] pc' s t

/-- R204 (with R200, R205, R206): SUB in both operand modes; V is the signed overflow of the subtraction. -/
def Obligations.SubWritesTheDifferenceAndFlags : Prop :=
  ∀ (s : State) (rd rs1 rs2 : Reg) (i : Instr) (b pc' : Word), Runs 1 s →
    (i = .subReg rd rs1 rs2 ∧ b = s.reg rs2 ∧ pc' = s.pc ∨
      i = .subImm rd rs1 ∧ s.imemAt s.pc = some b ∧ pc' = s.pc + 1) →
    ∃ t, exec i s = .next t ∧ t.reg rd = s.reg rs1 - b ∧
      t.flags.n = (s.reg rs1 - b).getLsbD 31 ∧ t.flags.z = decide (s.reg rs1 - b = 0) ∧
      t.flags.v = ((s.reg rs1).getLsbD 31 != b.getLsbD 31 &&
        (s.reg rs1 - b).getLsbD 31 != (s.reg rs1).getLsbD 31) ∧
      (t.flags.v = true ↔
        (s.reg rs1).toInt - b.toInt < -2 ^ 31 ∨ (s.reg rs1).toInt - b.toInt > 2 ^ 31 - 1) ∧
      t.flags.c = decide ((s.reg rs1).toNat ≥ b.toNat) ∧ OnlyWrites 1 [rd] pc' s t

/-- R207 (with R200, R208, R209): MUL in both operand modes; the low 32 bits do not depend on signedness. -/
def Obligations.MulWritesTheLowProductAndFlags : Prop :=
  ∀ (s : State) (rd rs1 rs2 : Reg) (i : Instr) (b pc' : Word), Runs 1 s →
    (i = .mulReg rd rs1 rs2 ∧ b = s.reg rs2 ∧ pc' = s.pc ∨
      i = .mulImm rd rs1 ∧ s.imemAt s.pc = some b ∧ pc' = s.pc + 1) →
    ∃ t, exec i s = .next t ∧ t.reg rd = BitVec.ofInt 32 ((s.reg rs1).toInt * b.toInt) ∧
      t.reg rd = BitVec.ofNat 32 ((s.reg rs1).toNat * b.toNat) ∧
      t.flags.n = (t.reg rd).getLsbD 31 ∧ t.flags.z = decide (t.reg rd = 0) ∧
      (t.flags.v = true ↔ (s.reg rs1).toInt * b.toInt < -2 ^ 31 ∨ (s.reg rs1).toInt * b.toInt > 2 ^ 31 - 1) ∧
      t.flags.c = false ∧ OnlyWrites 1 [rd] pc' s t

/-- R210 (with R200, R211, R212): DIV in both operand modes. A divisor of 0 writes no register, clears N, Z and C, sets
V, and the run goes on. Any other gives the signed quotient truncated toward zero, 0x80000000 for
0x80000000 / 0xFFFFFFFF, with V = C = 0. -/
def Obligations.DivFollowsItsDefinition : Prop :=
  ∀ (s : State) (rd rs1 rs2 : Reg) (i : Instr) (b pc' : Word), Runs 1 s →
    (i = .divReg rd rs1 rs2 ∧ b = s.reg rs2 ∧ pc' = s.pc ∨
      i = .divImm rd rs1 ∧ s.imemAt s.pc = some b ∧ pc' = s.pc + 1) →
    ∃ t, exec i s = .next t ∧
      (b = 0 → t.flags = ⟨false, false, true, false⟩ ∧ OnlyWrites 1 [] pc' s t) ∧
      (b ≠ 0 →
        (s.reg rs1 = 0x80000000 ∧ b = 0xFFFFFFFF → t.reg rd = 0x80000000) ∧
        (¬(s.reg rs1 = 0x80000000 ∧ b = 0xFFFFFFFF) → (t.reg rd).toInt = (s.reg rs1).toInt.tdiv b.toInt) ∧
        t.flags.n = (t.reg rd).getLsbD 31 ∧ t.flags.z = decide (t.reg rd = 0) ∧ t.flags.v = false ∧
        t.flags.c = false ∧ OnlyWrites 1 [rd] pc' s t)

/-- R213 (with R200, R214, R215): CMP in both operand modes has exactly SUB's flags and writes no register. -/
def Obligations.CmpWritesOnlySubFlags : Prop :=
  ∀ (s : State) (rs1 rs2 : Reg) (i : Instr) (b pc' : Word), Runs 1 s →
    (i = .cmpReg rs1 rs2 ∧ b = s.reg rs2 ∧ pc' = s.pc ∨
      i = .cmpImm rs1 ∧ s.imemAt s.pc = some b ∧ pc' = s.pc + 1) →
    ∃ t, exec i s = .next t ∧
      t.flags.n = (s.reg rs1 - b).getLsbD 31 ∧ t.flags.z = decide (s.reg rs1 - b = 0) ∧
      t.flags.v = ((s.reg rs1).getLsbD 31 != b.getLsbD 31 &&
        (s.reg rs1 - b).getLsbD 31 != (s.reg rs1).getLsbD 31) ∧
      t.flags.c = decide ((s.reg rs1).toNat ≥ b.toNat) ∧ t.flags = (subOp (s.reg rs1) b).2 ∧
      OnlyWrites 1 [] pc' s t

/-- R204 (its last sentence) and R217: what the flags of a subtraction or a comparison say about the operands. -/
def Obligations.SubtractionFlagsDecideTheOrder : Prop :=
  ∀ a b : Word, cmpOp a b = (subOp a b).2 ∧ ((cmpOp a b).z = true ↔ a = b) ∧
    ((cmpOp a b).c = true ↔ a.toNat ≥ b.toNat) ∧ ((cmpOp a b).n ≠ (cmpOp a b).v ↔ a.toInt < b.toInt) ∧
    ((cmpOp a b).v = true ↔ a.toInt - b.toInt < -2 ^ 31 ∨ a.toInt - b.toInt > 2 ^ 31 - 1)

/-! ### Ports -/

/-- R270: IN reads the byte last latched into its port, an event of the same tick included; a port no event can reach
reads 0; reading changes nothing else. -/
def Obligations.InReadsTheLatch : Prop :=
  ∀ (s : State) (rd : Reg) (p : Word), Runs 1 s → s.imemAt s.pc = some p →
    ∃ t, exec (.inPort rd) s = .next t ∧ t.reg rd = ((sampleEvents s).portIn p).setWidth 32 ∧
      (tableFind s.sched s.t = none → t.reg rd = (s.portIn p).setWidth 32) ∧
      (∀ e, tableWf 0#8 s.latch = true → tableFind s.sched s.t = some e → p.toNat = linePort e.line →
        t.reg rd = (BitVec.ofInt 8 e.value).setWidth 32) ∧
      (s.Inv → 2 ≤ p.toNat → t.reg rd = 0) ∧ OnlyWrites 1 [rd] (s.pc + 1) s t ∧ t.flags = s.flags

/-- R272: OUT appends the register's low byte to its port's buffer and writes nothing else. -/
def Obligations.OutAppendsTheLowByte : Prop :=
  ∀ (s : State) (rs1 : Reg) (p : Word), Runs 1 s → s.imemAt s.pc = some p → tableWf [] s.outbuf = true →
    ∃ t, exec (.outPort rs1) s = .next t ∧ t.output p = s.output p ++ [(s.reg rs1).extractLsb' 0 8] ∧
      (∀ q, q ≠ p → t.output q = s.output q) ∧ t.pc = s.pc + 1 ∧ t.flags = s.flags ∧ Completed 1 s t ∧
      OtherRegs [] s t ∧ SameMemory s t ∧ SameControl s t ∧ SameScratch s t

/-- R274 (`OutLongMode = TRUNC`): OUTL appends bits 7:0 and then bits 23:16, one a tick; cut by the budget after
stage 0 only the first byte is there. -/
def Obligations.OutlAppendsTwoBytes : Prop :=
  ∀ (s : State) (rs1 : Reg) (p : Word), s.imemAt s.pc = some p → tableWf [] s.outbuf = true →
    (Runs 2 s →
      ∃ t, exec (.outlPort rs1) s = .next t ∧
        t.output p = s.output p ++ [(s.reg rs1).extractLsb' 0 8, (s.reg rs1).extractLsb' 16 8] ∧
        (∀ q, q ≠ p → t.output q = s.output q) ∧ t.irPort = p ∧ t.s0 = s.s0 ∧ t.s1 = s.s1 ∧ t.pc = s.pc + 1 ∧
        t.flags = s.flags ∧ Completed 2 s t ∧ OtherRegs [] s t ∧ SameMemory s t ∧ SameControl s t) ∧
    (RunsOnly 1 s →
      ∃ t, exec (.outlPort rs1) s = .next t ∧ t.output p = s.output p ++ [(s.reg rs1).extractLsb' 0 8] ∧
        (∀ q, q ≠ p → t.output q = s.output q) ∧ CutAfter 1 s t ∧ OtherRegs [] s t ∧ SameMemory s t ∧
        SameControl s t ∧ t.flags = s.flags)

/-- R262: the event of tick `t` is latched, becomes the pending request and leaves the schedule; without one nothing
changes. Neither phase, IE nor INSVC is asked. -/
def Obligations.EventSamplingLatchesAndRequests : Prop :=
  ∀ s : State, (tableFind s.sched s.t = none → sampleEvents s = s) ∧
    (∀ e, tableFind s.sched s.t = some e → tableWf 0#8 s.latch = true →
      (∀ p : Word, (sampleEvents s).portIn p =
        if p.toNat = linePort e.line then BitVec.ofInt 8 e.value else s.portIn p) ∧
      (sampleEvents s).pend = true ∧ (sampleEvents s).pline = e.line ∧
      (∀ n, tableFind (sampleEvents s).sched n = if n = s.t then none else tableFind s.sched n) ∧
      sampleEvents s = { s with
        latch := (sampleEvents s).latch, pend := true, pline := e.line, sched := (sampleEvents s).sched })

/-- R265: output buffers only grow; no step removes or changes a byte already there. -/
def Obligations.OutputBuffersOnlyGrow : Prop :=
  ∀ s t : State, tableWf [] s.outbuf = true → step s = .next t → ∀ p, s.output p <+: t.output p

/-! ### Interrupts -/

/-- R240, R242: EI sets and DI clears IE, whatever it was; neither touches PEND, INSVC or a flag. -/
def Obligations.EiAndDiWriteOnlyTheEnable : Prop :=
  encode .ei = 0x60000000 ∧ encode .di = 0x64000000 ∧
  ∀ (s : State) (i : Instr) (on : Bool), Runs 1 s → (i = .ei ∧ on = true ∨ i = .di ∧ on = false) →
    ∃ t, exec i s = .next t ∧ t.ie = on ∧ t.insvc = s.insvc ∧ t.pc = s.pc ∧ t.flags = s.flags ∧ Completed 1 s t ∧
      OtherRegs [] s t ∧ SameMemory s t ∧ SameOutput s t ∧ SameScratch s t

/-- R241, R243: after EI a request that is pending, or is sampled in the next tick, is entered at the next boundary;
after DI none is, and one that was pending, or is sampled in DI's own tick, stays pending. -/
def Obligations.EiAndDiActAtTheNextBoundary : Prop :=
  ∀ s t : State, Runs 1 s →
    (exec .ei s = .next t → s.insvc = false → (sampleEvents t).pend = true →
      interruptCheck (sampleEvents t) = enterInterrupt (sampleEvents t).pline (sampleEvents t)) ∧
    (exec .di s = .next t → interruptCheck (sampleEvents t) = sampleEvents t ∧
      ((sampleEvents s).pend = true → (sampleEvents t).pend = true))

/-- R244: IRET in a handler restores pc, flags and all registers from SNAP and clears INSVC; IE and PEND stay. -/
def Obligations.IretRestoresTheSnapshot : Prop :=
  ∀ s : State, Runs 1 s → s.insvc = true →
    ∃ t, exec .iret s = .next t ∧ t.pc = s.snap.pc ∧ t.flags = s.snap.flags ∧
      (∀ r : Reg, t.reg r = s.snap.regs[r.val]) ∧ t.insvc = false ∧ t.ie = s.ie ∧ Completed 1 s t ∧
      SameMemory s t ∧ SameOutput s t ∧ SameScratch s t

/-- R245: IRET outside a handler is fault F3 with no state changed (the tick's event apart, log 9). -/
def Obligations.IretOutsideAHandlerFaults : Prop :=
  ∀ s : State, Runs 1 s → s.insvc = false →
    exec .iret s = .fault (.iretNotInService { sampleEvents s with status := .fault .iretNotInService })

/-- R311, R312: the boundary check enters the pending line's vector exactly when PEND = 1, IE = 1 and INSVC = 0; entry
saves pc, flags and the register file and changes nothing but SNAP, pc, INSVC and PEND; the same tick goes on with the
fetch, now at the vector. -/
def Obligations.BoundaryCheckEntersTheVector : Prop :=
  ∀ s : State,
    (s.pend = true ∧ s.ie = true ∧ s.insvc = false →
      (interruptCheck s).snap.pc = s.pc ∧ (interruptCheck s).snap.flags = s.flags ∧
      (∀ r : Reg, (interruptCheck s).snap.regs[r.val] = s.reg r) ∧
      (s.pline = .line0 → (interruptCheck s).pc = s.vec0) ∧ (s.pline = .line1 → (interruptCheck s).pc = s.vec1) ∧
      interruptCheck s = { s with
        snap := (interruptCheck s).snap, pc := (interruptCheck s).pc, insvc := true, pend := false }) ∧
    (¬(s.pend = true ∧ s.ie = true ∧ s.insvc = false) → interruptCheck s = s) ∧
    (∀ (w : Word) (i : Instr), s.status = .running → s.t ≠ s.budget → s.phase = .fetch →
      (sampleEvents s).pend = true → s.ie = true → s.insvc = false →
      s.imemAt ((sampleEvents s).vector (sampleEvents s).pline) = some w → decode w = .ok i →
      step s = exec i { interruptCheck (sampleEvents s) with
        pc := (sampleEvents s).vector (sampleEvents s).pline + 1, ir := fieldsOf w, phase := .exec 0, t := s.t + 1 })

/-- R312, R313, R244: whatever the handler did to registers, flags and pc, its IRET brings back those the interrupted
program had at the boundary where it was entered. -/
def Obligations.HandlerReturnsToTheInterruptedProgram : Prop :=
  ∀ s h : State, (sampleEvents s).pend = true → s.ie = true → s.insvc = false →
    h.snap = (interruptCheck (sampleEvents s)).snap → h.insvc = true → Runs 1 h →
    ∃ t, exec .iret h = .next t ∧ t.pc = s.pc ∧ t.flags = s.flags ∧ (∀ r, t.reg r = s.reg r) ∧ t.insvc = false

/-- R314: while INSVC = 1 no step enters an interrupt (SNAP is untouched), and a step that clears INSVC has left the
machine with the snapshot's pc, flags and registers. -/
def Obligations.InterruptsDoNotNest : Prop :=
  ∀ s t : State, s.insvc = true → step s = .next t →
    t.snap = s.snap ∧ (t.insvc = false → t.pc = s.snap.pc ∧ t.flags = s.snap.flags ∧ t.regs = s.snap.regs)

/-! ### Whole-machine rules -/

/-- R25: only ADD, SUB, MUL, DIV, CMP and IRET write a flag. -/
def Obligations.OnlyAluAndIretWriteFlags : Prop :=
  ∀ (i : Instr) (s t : State), exec i s = .next t → t.flags ≠ s.flags →
    (∃ rd rs1 rs2, i = .addReg rd rs1 rs2 ∨ i = .subReg rd rs1 rs2 ∨ i = .mulReg rd rs1 rs2 ∨ i = .divReg rd rs1 rs2) ∨
    (∃ rd rs1, i = .addImm rd rs1 ∨ i = .subImm rd rs1 ∨ i = .mulImm rd rs1 ∨ i = .divImm rd rs1) ∨
    (∃ rs1 rs2, i = .cmpReg rs1 rs2) ∨ (∃ rs1, i = .cmpImm rs1) ∨ i = .iret

/-- R26, R27, R29: only EI and DI write IE, only IRET writes INSVC among the instructions, and none writes SNAP. -/
def Obligations.OnlyTheirInstructionsWriteInterruptControl : Prop :=
  ∀ (i : Instr) (s t : State), exec i s = .next t →
    (t.ie ≠ s.ie → i = .ei ∨ i = .di) ∧ (t.insvc ≠ s.insvc → i = .iret) ∧ t.snap = s.snap

/-- R50, R68, R331: no step writes instruction memory or a run parameter. -/
def Obligations.InstructionMemoryIsNeverWritten : Prop :=
  ∀ s t : State, step s = .next t → t.imem = s.imem ∧ t.dmemSize = s.dmemSize ∧ t.vec0 = s.vec0 ∧
    t.vec1 = s.vec1 ∧ t.budget = s.budget

/-- R23, R332: what the scratch registers, IR and its held port hold at a boundary, or in a stopped machine, changes
nothing: the step of a machine that differs in nothing else ends in the same way, in a state that differs in nothing else
and is again at a boundary or stopped, so this goes on over any run; and the host observes the same (OUTL's held port is
the model's field, log 10). -/
def Obligations.ScratchRegistersAreHidden : Prop :=
  ∀ s s' : State, s.phase = .fetch ∨ s.status ≠ .running → SameButScratch s s' →
    (∀ t, step s = .next t → (t.phase = .fetch ∨ t.status ≠ .running) ∧
      ∃ t', step s' = .next t' ∧ SameButScratch t t') ∧
    (∀ r u, step s = .fault (faultOf r u) → ∃ u', step s' = .fault (faultOf r u') ∧ SameButScratch u u') ∧
    (∀ x, step s ≠ .refused x) ∧
    (finalState (step s')).map State.observe = (finalState (step s)).map State.observe

/-- R120, R262, R263: an event fires in the tick of its own number and in no other, and leaves the schedule: over any step,
the events gone are those of the ticks the step ran, and the latches hold what the sampling of those ticks left. So an
event at or after the `t` a halted or budget-ended run shows, or after the faulting tick, never fires. (HALT's own tick
samples its event by R128. That a faulting tick does too is the order of R120, against the last sentence of R263: log 9.) -/
def Obligations.EventsFireOnceInTheirOwnTick : Prop :=
  ∀ s : State,
    (∀ t, step s = .next t → s.t ≤ t.t ∧ t.latch = (passTicks (t.t - s.t) s).latch ∧
      ∀ n, tableFind t.sched n = if s.t ≤ n ∧ n < t.t then none else tableFind s.sched n) ∧
    (∀ f, step s = .fault f → s.t ≤ f.final.t ∧ f.final.latch = (passTicks (f.final.t + 1 - s.t) s).latch ∧
      ∀ n, tableFind f.final.sched n = if s.t ≤ n ∧ n ≤ f.final.t then none else tableFind s.sched n)
end

