-- ==== Sys2Proof/Laws/Memory.lean ====
section
/-! SUPPORT. The laws of canonical tables and of data memory: read after write, the canonical form kept, equal reads
mean equal tables. -/

namespace Sys2Proof.Machine

variable {α : Type}

/-! ### Rising keys -/

theorem keysRise_mono {lo hi : Nat} (h : lo ≤ hi) : ∀ {m : List (Nat × α)}, keysRise hi m = true → keysRise lo m = true
  | [], _ => rfl
  | (k, _) :: m, hm => by
    simp only [keysRise, Bool.and_eq_true, decide_eq_true_eq] at hm ⊢
    exact ⟨by omega, hm.2⟩

theorem keysRise_le {lo : Nat} : ∀ {m : List (Nat × α)}, keysRise lo m = true → ∀ e ∈ m, lo ≤ e.1
  | [], _, e, he => by simp at he
  | (k, v) :: m, hm, e, he => by
    simp only [keysRise, Bool.and_eq_true, decide_eq_true_eq] at hm
    rcases List.mem_cons.1 he with rfl | he
    · exact hm.1
    · have := keysRise_le hm.2 e he
      omega

theorem tableRead_below (d : α) {lo a : Nat} (ha : a < lo) :
    ∀ {m : List (Nat × α)}, keysRise lo m = true → tableRead d m a = d
  | [], _ => rfl
  | (k, v) :: m, hm => by
    simp only [keysRise, Bool.and_eq_true, decide_eq_true_eq] at hm
    have hk : a ≠ k := by omega
    simp only [tableRead, if_neg hk]
    exact tableRead_below d (lo := k + 1) (by omega) hm.2

/-! ### Read after write -/

theorem tableRead_write_other [DecidableEq α] (d : α) {a b : Nat} (v : α) (h : b ≠ a) :
    ∀ m : List (Nat × α), tableRead d (tableWrite d m a v) b = tableRead d m b
  | [] => by
    simp only [tableWrite]
    split <;> simp [tableRead, h]
  | (k, w) :: m => by
    simp only [tableWrite]
    split
    · split <;> simp [tableRead, h]
    · split
      · next hk => subst hk; split <;> simp [tableRead, h]
      · simp only [tableRead, tableRead_write_other d v h m]

theorem tableRead_write_same [DecidableEq α] (d : α) (a : Nat) (v : α) {lo : Nat} :
    ∀ {m : List (Nat × α)}, keysRise lo m = true → tableRead d (tableWrite d m a v) a = v
  | [], _ => by
    simp only [tableWrite]
    split <;> simp_all [tableRead]
  | (k, w) :: m, hm => by
    simp only [keysRise, Bool.and_eq_true, decide_eq_true_eq] at hm
    simp only [tableWrite]
    split
    · next hak =>
      split
      · next hv =>
        rw [hv]
        exact tableRead_below d (lo := k) hak (by simp [keysRise, hm.2])
      · simp [tableRead]
    · next hak =>
      split
      · next hk =>
        subst hk
        split
        · next hv =>
          rw [hv]
          exact tableRead_below d (lo := a + 1) (by omega) hm.2
        · simp [tableRead]
      · next hk => simp only [tableRead, if_neg hk, tableRead_write_same d a v hm.2]

/-! ### The canonical form is kept -/

theorem keysRise_write [DecidableEq α] (d : α) {lo a : Nat} (v : α) (ha : lo ≤ a) :
    ∀ {m : List (Nat × α)}, keysRise lo m = true → keysRise lo (tableWrite d m a v) = true
  | [], _ => by
    simp only [tableWrite]
    split <;> simp [keysRise, ha]
  | (k, w) :: m, hm => by
    simp only [keysRise, Bool.and_eq_true, decide_eq_true_eq] at hm
    simp only [tableWrite]
    split
    · split <;> simp_all [keysRise]
    · split
      · next hk =>
        subst hk
        split
        · exact keysRise_mono (by omega) hm.2
        · simp_all [keysRise]
      · simp only [keysRise, Bool.and_eq_true, decide_eq_true_eq]
        exact ⟨hm.1, keysRise_write d v (by omega) hm.2⟩

theorem mem_tableWrite [DecidableEq α] (d : α) (a : Nat) (v : α) {e : Nat × α} :
    ∀ {m : List (Nat × α)}, e ∈ tableWrite d m a v → e ∈ m ∨ (e = (a, v) ∧ v ≠ d)
  | [], h => by
    simp only [tableWrite] at h
    split at h <;> simp_all
  | (k, w) :: m, h => by
    simp only [tableWrite] at h
    split at h
    · split at h
      · exact .inl h
      · rcases List.mem_cons.1 h with h | h
        · exact .inr ⟨h, ‹_›⟩
        · exact .inl h
    · split at h
      · split at h
        · exact .inl (List.mem_cons_of_mem _ h)
        · rcases List.mem_cons.1 h with h | h
          · exact .inr ⟨h, ‹_›⟩
          · exact .inl (List.mem_cons_of_mem _ h)
      · rcases List.mem_cons.1 h with h | h
        · exact .inl (h ▸ List.mem_cons_self)
        · exact (mem_tableWrite d a v h).imp (List.mem_cons_of_mem _) id

theorem tableWrite_wf [DecidableEq α] (d : α) (a : Nat) (v : α) {m : List (Nat × α)} (h : tableWf d m = true) :
    tableWf d (tableWrite d m a v) = true := by
  simp only [tableWf, Bool.and_eq_true, List.all_eq_true, decide_eq_true_eq] at h ⊢
  refine ⟨keysRise_write d v (Nat.zero_le _) h.1, fun e he => ?_⟩
  rcases mem_tableWrite d a v he with he | ⟨rfl, hv⟩
  · exact h.2 e he
  · exact hv

/-! ### Partial maps -/

theorem mem_tableErase {a : Nat} {e : Nat × α} : ∀ {m : List (Nat × α)}, e ∈ tableErase m a → e ∈ m ∧ e.1 ≠ a
  | [], h => by simp [tableErase] at h
  | (k, v) :: m, h => by
    simp only [tableErase] at h
    split at h
    · exact (mem_tableErase h).imp_left (List.mem_cons_of_mem _)
    · next hk =>
      rcases List.mem_cons.1 h with h | h
      · subst h; exact ⟨List.mem_cons_self, fun e => hk e.symm⟩
      · exact (mem_tableErase h).imp_left (List.mem_cons_of_mem _)

/-- A table in canonical form reads back the value written. -/
theorem tableRead_write_wf [DecidableEq α] (d : α) (a : Nat) (v : α) {m : List (Nat × α)} (h : tableWf d m = true) :
    tableRead d (tableWrite d m a v) a = v := by
  simp only [tableWf, Bool.and_eq_true] at h
  exact tableRead_write_same d a v h.1

/-- An erased entry is gone and every other stays. -/
theorem tableFind_erase {a b : Nat} :
    ∀ m : List (Nat × α), tableFind (tableErase m a) b = if b = a then none else tableFind m b
  | [] => by simp [tableErase, tableFind]
  | (k, v) :: m => by
    simp only [tableErase, tableFind]
    by_cases hk : a = k
    · subst hk
      simp only [if_true, tableFind_erase m]
      split <;> rfl
    · simp only [if_neg hk, tableFind, tableFind_erase m]
      by_cases hb : b = k
      · subst hb
        simp [Ne.symm hk]
      · simp [hb]

theorem tableErase_of_lt {lo a : Nat} (ha : a < lo) :
    ∀ {m : List (Nat × α)}, keysRise lo m = true → tableErase m a = m
  | [], _ => rfl
  | (k, v) :: m, hm => by
    simp only [keysRise, Bool.and_eq_true, decide_eq_true_eq] at hm
    have hk : a ≠ k := by omega
    have ih := tableErase_of_lt (a := a) (lo := k + 1) (by omega) hm.2
    simp only [tableErase, if_neg hk, ih]

/-- Erasing the least key a table may hold leaves only higher ones. -/
theorem keysRise_erase {a : Nat} : ∀ {m : List (Nat × α)}, keysRise a m = true → keysRise (a + 1) (tableErase m a) = true
  | [], _ => rfl
  | (k, v) :: m, hm => by
    simp only [keysRise, Bool.and_eq_true, decide_eq_true_eq] at hm
    simp only [tableErase]
    split
    · next hk =>
      subst hk
      rw [tableErase_of_lt (lo := a + 1) (by omega) hm.2]
      exact hm.2
    · next hk =>
      rw [tableErase_of_lt (lo := k + 1) (by omega) hm.2]
      simp only [keysRise, Bool.and_eq_true, decide_eq_true_eq]
      exact ⟨by omega, hm.2⟩

theorem keysRise_of_find_none {a : Nat} :
    ∀ {m : List (Nat × α)}, keysRise a m = true → tableFind m a = none → keysRise (a + 1) m = true
  | [], _, _ => rfl
  | (k, v) :: m, hm, hf => by
    simp only [keysRise, Bool.and_eq_true, decide_eq_true_eq] at hm ⊢
    simp only [tableFind] at hf
    split at hf
    · simp at hf
    · next hk => exact ⟨by omega, hm.2⟩

theorem keysRise_insert {lo a : Nat} (v : α) (ha : lo ≤ a) :
    ∀ {m : List (Nat × α)}, keysRise lo m = true → keysRise lo (tableInsert m a v) = true
  | [], _ => by simp [tableInsert, keysRise, ha]
  | (k, w) :: m, hm => by
    simp only [keysRise, Bool.and_eq_true, decide_eq_true_eq] at hm
    simp only [tableInsert]
    split
    · simp_all [keysRise]
    · split
      · next hk => subst hk; simp_all [keysRise]
      · simp only [keysRise, Bool.and_eq_true, decide_eq_true_eq]
        exact ⟨hm.1, keysRise_insert v (by omega) hm.2⟩

theorem tableFind_insert {a b : Nat} (v : α) :
    ∀ m : List (Nat × α), tableFind (tableInsert m a v) b = if b = a then some v else tableFind m b
  | [] => by simp [tableInsert, tableFind]
  | (k, w) :: m => by
    simp only [tableInsert]
    split
    · simp [tableFind]
    · split
      · next hk =>
        subst hk
        simp only [tableFind]
        split <;> simp_all
      · next hk =>
        simp only [tableFind, tableFind_insert v m]
        split
        · next hb => subst hb; rw [if_neg (fun e => hk e.symm)]
        · rfl

/-! ### Data memory -/

theorem Memory.read_write_same {m : Memory} (h : m.wf = true) (a : Nat) (b : Byte) : (m.write a b).read a = b := by
  simp only [Memory.wf, tableWf, Bool.and_eq_true] at h
  exact tableRead_write_same _ _ _ h.1

theorem Memory.read_write_other (m : Memory) {a c : Nat} (b : Byte) (h : c ≠ a) :
    (m.write a b).read c = m.read c :=
  tableRead_write_other _ _ h m

theorem Memory.write_wf {m : Memory} (h : m.wf = true) (a : Nat) (b : Byte) : (m.write a b).wf = true :=
  tableWrite_wf _ _ _ h

theorem Memory.mem_write {m : Memory} {a : Nat} {b : Byte} {e : Nat × Byte} (h : e ∈ m.write a b) :
    e ∈ m ∨ e.1 = a :=
  (mem_tableWrite _ _ _ h).imp id fun h => by rw [h.1]

theorem Memory.keysRise_ofBytes : ∀ (a : Nat) (bs : List Byte), keysRise a (Memory.ofBytes a bs) = true
  | _, [] => rfl
  | a, b :: bs => by
    simp only [Memory.ofBytes]
    split
    · exact keysRise_mono (Nat.le_succ a) (Memory.keysRise_ofBytes (a + 1) bs)
    · simp only [keysRise, Bool.and_eq_true, decide_eq_true_eq]
      exact ⟨Nat.le_refl a, Memory.keysRise_ofBytes (a + 1) bs⟩

theorem Memory.mem_ofBytes {e : Nat × Byte} :
    ∀ {a : Nat} {bs : List Byte}, e ∈ Memory.ofBytes a bs → e.1 < a + bs.length ∧ e.2 ≠ 0#8
  | _, [], h => by simp [Memory.ofBytes] at h
  | a, b :: bs, h => by
    simp only [Memory.ofBytes] at h
    split at h
    · have := Memory.mem_ofBytes h
      simp only [List.length_cons]
      exact ⟨by omega, this.2⟩
    · next hb =>
      rcases List.mem_cons.1 h with rfl | h
      · simp only [List.length_cons]
        exact ⟨by omega, hb⟩
      · have := Memory.mem_ofBytes h
        simp only [List.length_cons]
        exact ⟨by omega, this.2⟩

theorem Memory.ofBytes_wf (bs : List Byte) : (Memory.ofBytes 0 bs).wf = true := by
  simp only [Memory.wf, tableWf, Bool.and_eq_true, List.all_eq_true, decide_eq_true_eq]
  exact ⟨Memory.keysRise_ofBytes 0 bs, fun e he => (Memory.mem_ofBytes he).2⟩

theorem Memory.read_ofBytes : ∀ (a : Nat) (bs : List Byte) (j : Nat),
    (Memory.ofBytes a bs).read (a + j) = bs.getD j 0#8
  | _, [], _ => by simp [Memory.ofBytes, Memory.read, tableRead]
  | a, b :: bs, 0 => by
    simp only [Memory.ofBytes]
    split
    · next hb =>
      simp only [Nat.add_zero, List.getD_cons_zero, hb, Memory.read]
      exact tableRead_below 0#8 (lo := a + 1) (by omega) (Memory.keysRise_ofBytes (a + 1) bs)
    · simp [Memory.read, tableRead]
  | a, b :: bs, j + 1 => by
    have ih := Memory.read_ofBytes (a + 1) bs j
    rw [show a + 1 + j = a + (j + 1) by omega] at ih
    simp only [Memory.ofBytes]
    split
    · rw [ih, List.getD_cons_succ]
    · have hne : a + (j + 1) ≠ a := by omega
      simp only [Memory.read, tableRead, if_neg hne, List.getD_cons_succ]
      exact ih

end Sys2Proof.Machine
end

