-- ==== Sys2Proof/Laws/Boot.lean ====
section
/-! SUPPORT. What the boot interface can answer, said once: the words of an image, the schedule's map, and the fresh
machine or the refusal. -/

namespace Sys2Proof.Machine

/-- An image whose length is a multiple of 4 has its words, word `k` from bytes `4k` to `4k+3` (R345). -/
theorem wordsOfImage_some : ∀ l : List Byte, l.length % 4 = 0 →
    ∃ ws, wordsOfImage l = some ws ∧ 4 * ws.length = l.length ∧
      ∀ (k : Nat) (w : Word), ws[k]? = some w →
        w = wordOfBytes (l.getD (4 * k) 0) (l.getD (4 * k + 1) 0) (l.getD (4 * k + 2) 0) (l.getD (4 * k + 3) 0)
  | [], _ => ⟨[], rfl, rfl, by simp⟩
  | [_], h => by simp at h
  | [_, _], h => by simp at h
  | [_, _, _], h => by simp at h
  | b0 :: b1 :: b2 :: b3 :: bs, h => by
    obtain ⟨ws, h1, h2, h3⟩ := wordsOfImage_some bs (by simp at h; omega)
    refine ⟨wordOfBytes b0 b1 b2 b3 :: ws, by simp [wordsOfImage, h1], by simp; omega, fun k w hw => ?_⟩
    rcases k with _ | k
    · simp only [List.getElem?_cons_zero, Option.some.injEq] at hw
      simp [← hw]
    · simp only [List.getElem?_cons_succ] at hw
      have := h3 k w hw
      simpa [show 4 * (k + 1) = 4 * k + 1 + 1 + 1 + 1 by omega] using this

/-- An image of any other length has none (R307). -/
theorem wordsOfImage_none : ∀ l : List Byte, l.length % 4 ≠ 0 → wordsOfImage l = none
  | [], h => by simp at h
  | [_], _ => rfl
  | [_, _], _ => rfl
  | [_, _, _], _ => rfl
  | _ :: _ :: _ :: _ :: bs, h => by
    simp [wordsOfImage, wordsOfImage_none bs (by simp at h; omega)]

/-- The controller's map is the schedule read as a map (R261). -/
theorem tableFind_schedOf : ∀ (l : List SchedEntry) (n : Nat),
    tableFind (schedOf l) n = (l.find? (fun e => e.tick == n)).map eventOf
  | [], _ => rfl
  | e :: es, n => by
    simp only [schedOf, tableFind_insert, tableFind_schedOf es, List.find?]
    by_cases h : n = e.tick
    · simp [h]
    · have : (e.tick == n) = false := by simpa using fun h' => h h'.symm
      simp [h, this]

theorem keysRise_schedOf : ∀ l : List SchedEntry, keysRise 0 (schedOf l) = true
  | [] => rfl
  | _ :: es => keysRise_insert _ (Nat.zero_le _) (keysRise_schedOf es)

/-- Boot builds the fresh machine of accepted input, or refuses. -/
theorem boot_cases (r : RunInput) :
    (∃ ws v0 v1, wordsOfImage r.instrImage = some ws ∧ ws.length < 2 ^ 32 ∧ r.dataImage.length ≤ r.dmemSize ∧
        r.dmemSize ≤ 2 ^ 32 ∧ scheduleWf r.schedule = true ∧ r.vec0 = some v0 ∧ r.vec1 = some v1 ∧
        boot r = .next (freshMachine ws r v0 v1)) ∨
      ((wordsOfImage r.instrImage = none ∨ (∃ ws, wordsOfImage r.instrImage = some ws ∧ 2 ^ 32 ≤ ws.length) ∨
          r.dmemSize < r.dataImage.length ∨ 2 ^ 32 < r.dmemSize ∨ scheduleWf r.schedule = false ∨
          r.vec0 = none ∨ r.vec1 = none) ∧ ∃ x, boot r = .refused x) := by
  unfold boot
  cases hw : wordsOfImage r.instrImage with
  | none => exact .inr ⟨.inl rfl, _, rfl⟩
  | some ws =>
    by_cases h1 : ws.length ≥ 2 ^ 32
    · exact .inr ⟨.inr (.inl ⟨ws, rfl, h1⟩), _, if_pos h1⟩
    by_cases h2 : r.dataImage.length > r.dmemSize
    · exact .inr ⟨.inr (.inr (.inl h2)), .dataImageTooLong, by simp only [if_neg h1, if_pos h2]⟩
    by_cases h3 : r.dmemSize > 2 ^ 32
    · exact .inr ⟨.inr (.inr (.inr (.inl h3))), .dataMemoryTooLarge, by simp only [if_neg h1, if_neg h2, if_pos h3]⟩
    cases h4 : scheduleWf r.schedule with
    | false =>
      exact .inr ⟨.inr (.inr (.inr (.inr (.inl rfl)))), .illFormedSchedule, by
        simp only [if_neg h1, if_neg h2, if_neg h3, if_true]⟩
    | true =>
      cases h5 : r.vec0 with
      | none =>
        exact .inr ⟨.inr (.inr (.inr (.inr (.inr (.inl rfl))))), .missingVector, by
          simp only [if_neg h1, if_neg h2, if_neg h3, Bool.true_eq_false, if_false]⟩
      | some v0 =>
        cases h6 : r.vec1 with
        | none =>
          exact .inr ⟨.inr (.inr (.inr (.inr (.inr (.inr rfl))))), .missingVector, by
            simp only [if_neg h1, if_neg h2, if_neg h3, Bool.true_eq_false, if_false]⟩
        | some v1 =>
          exact .inl ⟨ws, v0, v1, rfl, by omega, by omega, by omega, rfl, rfl, rfl, by
            simp only [if_neg h1, if_neg h2, if_neg h3, Bool.true_eq_false, if_false]⟩

end Sys2Proof.Machine
end

