-- ==== Sys2Proof/Laws/Decode.lean ====
section
/-! SUPPORT. The encoder as arithmetic (spec/30_encoding.md R83). -/

namespace Sys2Proof

theorem encodeFields_toNat (f : Fields) : (encodeFields f).toNat =
    f.op.toNat * 2 ^ 26 + f.mode.toNat * 2 ^ 21 + f.rd.toNat * 2 ^ 17 + f.rs1.toNat * 2 ^ 13 + f.rs2.toNat * 2 ^ 9 := by
  have h1 := f.op.isLt
  have h2 := f.mode.isLt
  have h3 := f.rd.isLt
  have h4 := f.rs1.isLt
  have h5 := f.rs2.isLt
  simp only [encodeFields, BitVec.toNat_ofNat]
  omega

@[simp] theorem regOf_bitsOf (r : Reg) : regOf (bitsOf r) = r := rfl

@[simp] theorem bitsOf_regOf (b : BitVec 4) : bitsOf (regOf b) = b := rfl

end Sys2Proof
end

