-- ==== Sys2Proof/Laws/State.lean ====
section
/-! SUPPORT. One lemma per field for each named update of the state, so that no later proof unfolds one. -/

namespace Sys2Proof.Machine

/-! ### A register write changes the register file alone -/

@[simp] theorem setReg_s0 (s : State) (r : Reg) (v : Word) : (s.setReg r v).s0 = s.s0 := rfl

@[simp] theorem setReg_s1 (s : State) (r : Reg) (v : Word) : (s.setReg r v).s1 = s.s1 := rfl

@[simp] theorem setReg_pc (s : State) (r : Reg) (v : Word) : (s.setReg r v).pc = s.pc := rfl

@[simp] theorem setReg_flags (s : State) (r : Reg) (v : Word) : (s.setReg r v).flags = s.flags := rfl

@[simp] theorem setReg_ie (s : State) (r : Reg) (v : Word) : (s.setReg r v).ie = s.ie := rfl

@[simp] theorem setReg_insvc (s : State) (r : Reg) (v : Word) : (s.setReg r v).insvc = s.insvc := rfl

@[simp] theorem setReg_pend (s : State) (r : Reg) (v : Word) : (s.setReg r v).pend = s.pend := rfl

@[simp] theorem setReg_pline (s : State) (r : Reg) (v : Word) : (s.setReg r v).pline = s.pline := rfl

@[simp] theorem setReg_snap (s : State) (r : Reg) (v : Word) : (s.setReg r v).snap = s.snap := rfl

@[simp] theorem setReg_phase (s : State) (r : Reg) (v : Word) : (s.setReg r v).phase = s.phase := rfl

@[simp] theorem setReg_ir (s : State) (r : Reg) (v : Word) : (s.setReg r v).ir = s.ir := rfl

@[simp] theorem setReg_irPort (s : State) (r : Reg) (v : Word) : (s.setReg r v).irPort = s.irPort := rfl

@[simp] theorem setReg_t (s : State) (r : Reg) (v : Word) : (s.setReg r v).t = s.t := rfl

@[simp] theorem setReg_status (s : State) (r : Reg) (v : Word) : (s.setReg r v).status = s.status := rfl

@[simp] theorem setReg_sched (s : State) (r : Reg) (v : Word) : (s.setReg r v).sched = s.sched := rfl

@[simp] theorem setReg_latch (s : State) (r : Reg) (v : Word) : (s.setReg r v).latch = s.latch := rfl

@[simp] theorem setReg_outbuf (s : State) (r : Reg) (v : Word) : (s.setReg r v).outbuf = s.outbuf := rfl

@[simp] theorem setReg_imem (s : State) (r : Reg) (v : Word) : (s.setReg r v).imem = s.imem := rfl

@[simp] theorem setReg_dmem (s : State) (r : Reg) (v : Word) : (s.setReg r v).dmem = s.dmem := rfl

@[simp] theorem setReg_trace (s : State) (r : Reg) (v : Word) : (s.setReg r v).trace = s.trace := rfl

@[simp] theorem setReg_dmemSize (s : State) (r : Reg) (v : Word) : (s.setReg r v).dmemSize = s.dmemSize := rfl

@[simp] theorem setReg_vec0 (s : State) (r : Reg) (v : Word) : (s.setReg r v).vec0 = s.vec0 := rfl

@[simp] theorem setReg_vec1 (s : State) (r : Reg) (v : Word) : (s.setReg r v).vec1 = s.vec1 := rfl

@[simp] theorem setReg_budget (s : State) (r : Reg) (v : Word) : (s.setReg r v).budget = s.budget := rfl

@[simp] theorem setReg_regs (s : State) (r : Reg) (v : Word) : (s.setReg r v).regs = s.regs.set r.val v := rfl

@[simp] theorem reg_setReg_same (s : State) (r : Reg) (v : Word) : (s.setReg r v).reg r = v := by
  simp [State.reg]

theorem reg_setReg_other (s : State) {r q : Reg} (v : Word) (h : q ≠ r) : (s.setReg r v).reg q = s.reg q := by
  have h' : r.val ≠ q.val := fun e => h (Fin.ext e.symm)
  simp [State.reg, h']

/-- A register reads the same in two states with one register file. -/
theorem reg_congr {s t : State} (h : t.regs = s.regs) (r : Reg) : t.reg r = s.reg r := by
  simp [State.reg, h]

/-! ### A byte written to data memory changes data memory alone -/

@[simp] theorem setByte_regs (s : State) (a : Nat) (b : Byte) : (s.setByte a b).regs = s.regs := rfl

@[simp] theorem setByte_s0 (s : State) (a : Nat) (b : Byte) : (s.setByte a b).s0 = s.s0 := rfl

@[simp] theorem setByte_s1 (s : State) (a : Nat) (b : Byte) : (s.setByte a b).s1 = s.s1 := rfl

@[simp] theorem setByte_pc (s : State) (a : Nat) (b : Byte) : (s.setByte a b).pc = s.pc := rfl

@[simp] theorem setByte_flags (s : State) (a : Nat) (b : Byte) : (s.setByte a b).flags = s.flags := rfl

@[simp] theorem setByte_ie (s : State) (a : Nat) (b : Byte) : (s.setByte a b).ie = s.ie := rfl

@[simp] theorem setByte_insvc (s : State) (a : Nat) (b : Byte) : (s.setByte a b).insvc = s.insvc := rfl

@[simp] theorem setByte_pend (s : State) (a : Nat) (b : Byte) : (s.setByte a b).pend = s.pend := rfl

@[simp] theorem setByte_pline (s : State) (a : Nat) (b : Byte) : (s.setByte a b).pline = s.pline := rfl

@[simp] theorem setByte_snap (s : State) (a : Nat) (b : Byte) : (s.setByte a b).snap = s.snap := rfl

@[simp] theorem setByte_phase (s : State) (a : Nat) (b : Byte) : (s.setByte a b).phase = s.phase := rfl

@[simp] theorem setByte_ir (s : State) (a : Nat) (b : Byte) : (s.setByte a b).ir = s.ir := rfl

@[simp] theorem setByte_irPort (s : State) (a : Nat) (b : Byte) : (s.setByte a b).irPort = s.irPort := rfl

@[simp] theorem setByte_t (s : State) (a : Nat) (b : Byte) : (s.setByte a b).t = s.t := rfl

@[simp] theorem setByte_status (s : State) (a : Nat) (b : Byte) : (s.setByte a b).status = s.status := rfl

@[simp] theorem setByte_sched (s : State) (a : Nat) (b : Byte) : (s.setByte a b).sched = s.sched := rfl

@[simp] theorem setByte_latch (s : State) (a : Nat) (b : Byte) : (s.setByte a b).latch = s.latch := rfl

@[simp] theorem setByte_outbuf (s : State) (a : Nat) (b : Byte) : (s.setByte a b).outbuf = s.outbuf := rfl

@[simp] theorem setByte_imem (s : State) (a : Nat) (b : Byte) : (s.setByte a b).imem = s.imem := rfl

@[simp] theorem setByte_trace (s : State) (a : Nat) (b : Byte) : (s.setByte a b).trace = s.trace := rfl

@[simp] theorem setByte_dmemSize (s : State) (a : Nat) (b : Byte) : (s.setByte a b).dmemSize = s.dmemSize := rfl

@[simp] theorem setByte_vec0 (s : State) (a : Nat) (b : Byte) : (s.setByte a b).vec0 = s.vec0 := rfl

@[simp] theorem setByte_vec1 (s : State) (a : Nat) (b : Byte) : (s.setByte a b).vec1 = s.vec1 := rfl

@[simp] theorem setByte_budget (s : State) (a : Nat) (b : Byte) : (s.setByte a b).budget = s.budget := rfl

@[simp] theorem setByte_dmem (s : State) (a : Nat) (b : Byte) : (s.setByte a b).dmem = Memory.write s.dmem a b := rfl

/-! ### A port write changes the output buffers alone (R265) -/

@[simp] theorem portOut_regs (s : State) (p : Word) (b : Byte) : (s.portOut p b).regs = s.regs := rfl

@[simp] theorem portOut_s0 (s : State) (p : Word) (b : Byte) : (s.portOut p b).s0 = s.s0 := rfl

@[simp] theorem portOut_s1 (s : State) (p : Word) (b : Byte) : (s.portOut p b).s1 = s.s1 := rfl

@[simp] theorem portOut_pc (s : State) (p : Word) (b : Byte) : (s.portOut p b).pc = s.pc := rfl

@[simp] theorem portOut_flags (s : State) (p : Word) (b : Byte) : (s.portOut p b).flags = s.flags := rfl

@[simp] theorem portOut_ie (s : State) (p : Word) (b : Byte) : (s.portOut p b).ie = s.ie := rfl

@[simp] theorem portOut_insvc (s : State) (p : Word) (b : Byte) : (s.portOut p b).insvc = s.insvc := rfl

@[simp] theorem portOut_pend (s : State) (p : Word) (b : Byte) : (s.portOut p b).pend = s.pend := rfl

@[simp] theorem portOut_pline (s : State) (p : Word) (b : Byte) : (s.portOut p b).pline = s.pline := rfl

@[simp] theorem portOut_snap (s : State) (p : Word) (b : Byte) : (s.portOut p b).snap = s.snap := rfl

@[simp] theorem portOut_phase (s : State) (p : Word) (b : Byte) : (s.portOut p b).phase = s.phase := rfl

@[simp] theorem portOut_ir (s : State) (p : Word) (b : Byte) : (s.portOut p b).ir = s.ir := rfl

@[simp] theorem portOut_irPort (s : State) (p : Word) (b : Byte) : (s.portOut p b).irPort = s.irPort := rfl

@[simp] theorem portOut_t (s : State) (p : Word) (b : Byte) : (s.portOut p b).t = s.t := rfl

@[simp] theorem portOut_status (s : State) (p : Word) (b : Byte) : (s.portOut p b).status = s.status := rfl

@[simp] theorem portOut_sched (s : State) (p : Word) (b : Byte) : (s.portOut p b).sched = s.sched := rfl

@[simp] theorem portOut_latch (s : State) (p : Word) (b : Byte) : (s.portOut p b).latch = s.latch := rfl

@[simp] theorem portOut_imem (s : State) (p : Word) (b : Byte) : (s.portOut p b).imem = s.imem := rfl

@[simp] theorem portOut_dmem (s : State) (p : Word) (b : Byte) : (s.portOut p b).dmem = s.dmem := rfl

@[simp] theorem portOut_trace (s : State) (p : Word) (b : Byte) : (s.portOut p b).trace = s.trace := rfl

@[simp] theorem portOut_dmemSize (s : State) (p : Word) (b : Byte) : (s.portOut p b).dmemSize = s.dmemSize := rfl

@[simp] theorem portOut_vec0 (s : State) (p : Word) (b : Byte) : (s.portOut p b).vec0 = s.vec0 := rfl

@[simp] theorem portOut_vec1 (s : State) (p : Word) (b : Byte) : (s.portOut p b).vec1 = s.vec1 := rfl

@[simp] theorem portOut_budget (s : State) (p : Word) (b : Byte) : (s.portOut p b).budget = s.budget := rfl

@[simp] theorem portOut_outbuf (s : State) (p : Word) (b : Byte) :
    (s.portOut p b).outbuf = tableWrite [] s.outbuf p.toNat (s.output p ++ [b]) := rfl

/-! ### Interrupt entry writes SNAP, pc, INSVC and PEND (R312) -/

@[simp] theorem enterInterrupt_regs (l : Line) (s : State) : (enterInterrupt l s).regs = s.regs := rfl

@[simp] theorem enterInterrupt_s0 (l : Line) (s : State) : (enterInterrupt l s).s0 = s.s0 := rfl

@[simp] theorem enterInterrupt_s1 (l : Line) (s : State) : (enterInterrupt l s).s1 = s.s1 := rfl

@[simp] theorem enterInterrupt_flags (l : Line) (s : State) : (enterInterrupt l s).flags = s.flags := rfl

@[simp] theorem enterInterrupt_ie (l : Line) (s : State) : (enterInterrupt l s).ie = s.ie := rfl

@[simp] theorem enterInterrupt_pline (l : Line) (s : State) : (enterInterrupt l s).pline = s.pline := rfl

@[simp] theorem enterInterrupt_phase (l : Line) (s : State) : (enterInterrupt l s).phase = s.phase := rfl

@[simp] theorem enterInterrupt_ir (l : Line) (s : State) : (enterInterrupt l s).ir = s.ir := rfl

@[simp] theorem enterInterrupt_irPort (l : Line) (s : State) : (enterInterrupt l s).irPort = s.irPort := rfl

@[simp] theorem enterInterrupt_t (l : Line) (s : State) : (enterInterrupt l s).t = s.t := rfl

@[simp] theorem enterInterrupt_status (l : Line) (s : State) : (enterInterrupt l s).status = s.status := rfl

@[simp] theorem enterInterrupt_sched (l : Line) (s : State) : (enterInterrupt l s).sched = s.sched := rfl

@[simp] theorem enterInterrupt_latch (l : Line) (s : State) : (enterInterrupt l s).latch = s.latch := rfl

@[simp] theorem enterInterrupt_outbuf (l : Line) (s : State) : (enterInterrupt l s).outbuf = s.outbuf := rfl

@[simp] theorem enterInterrupt_imem (l : Line) (s : State) : (enterInterrupt l s).imem = s.imem := rfl

@[simp] theorem enterInterrupt_dmem (l : Line) (s : State) : (enterInterrupt l s).dmem = s.dmem := rfl

@[simp] theorem enterInterrupt_trace (l : Line) (s : State) : (enterInterrupt l s).trace = s.trace := rfl

@[simp] theorem enterInterrupt_dmemSize (l : Line) (s : State) : (enterInterrupt l s).dmemSize = s.dmemSize := rfl

@[simp] theorem enterInterrupt_vec0 (l : Line) (s : State) : (enterInterrupt l s).vec0 = s.vec0 := rfl

@[simp] theorem enterInterrupt_vec1 (l : Line) (s : State) : (enterInterrupt l s).vec1 = s.vec1 := rfl

@[simp] theorem enterInterrupt_budget (l : Line) (s : State) : (enterInterrupt l s).budget = s.budget := rfl

@[simp] theorem enterInterrupt_snap (l : Line) (s : State) : (enterInterrupt l s).snap = ⟨s.pc, s.flags, s.regs⟩ := rfl

@[simp] theorem enterInterrupt_pc (l : Line) (s : State) : (enterInterrupt l s).pc = s.vector l := rfl

@[simp] theorem enterInterrupt_insvc (l : Line) (s : State) : (enterInterrupt l s).insvc = true := rfl

@[simp] theorem enterInterrupt_pend (l : Line) (s : State) : (enterInterrupt l s).pend = false := rfl

/-! ### The boundary check writes nothing but what entry writes (R311) -/

@[simp] theorem interruptCheck_regs (s : State) : (interruptCheck s).regs = s.regs := by
  unfold interruptCheck; split <;> rfl

@[simp] theorem interruptCheck_s0 (s : State) : (interruptCheck s).s0 = s.s0 := by
  unfold interruptCheck; split <;> rfl

@[simp] theorem interruptCheck_s1 (s : State) : (interruptCheck s).s1 = s.s1 := by
  unfold interruptCheck; split <;> rfl

@[simp] theorem interruptCheck_flags (s : State) : (interruptCheck s).flags = s.flags := by
  unfold interruptCheck; split <;> rfl

@[simp] theorem interruptCheck_ie (s : State) : (interruptCheck s).ie = s.ie := by
  unfold interruptCheck; split <;> rfl

@[simp] theorem interruptCheck_pline (s : State) : (interruptCheck s).pline = s.pline := by
  unfold interruptCheck; split <;> rfl

@[simp] theorem interruptCheck_phase (s : State) : (interruptCheck s).phase = s.phase := by
  unfold interruptCheck; split <;> rfl

@[simp] theorem interruptCheck_ir (s : State) : (interruptCheck s).ir = s.ir := by
  unfold interruptCheck; split <;> rfl

@[simp] theorem interruptCheck_irPort (s : State) : (interruptCheck s).irPort = s.irPort := by
  unfold interruptCheck; split <;> rfl

@[simp] theorem interruptCheck_t (s : State) : (interruptCheck s).t = s.t := by
  unfold interruptCheck; split <;> rfl

@[simp] theorem interruptCheck_status (s : State) : (interruptCheck s).status = s.status := by
  unfold interruptCheck; split <;> rfl

@[simp] theorem interruptCheck_sched (s : State) : (interruptCheck s).sched = s.sched := by
  unfold interruptCheck; split <;> rfl

@[simp] theorem interruptCheck_latch (s : State) : (interruptCheck s).latch = s.latch := by
  unfold interruptCheck; split <;> rfl

@[simp] theorem interruptCheck_outbuf (s : State) : (interruptCheck s).outbuf = s.outbuf := by
  unfold interruptCheck; split <;> rfl

@[simp] theorem interruptCheck_imem (s : State) : (interruptCheck s).imem = s.imem := by
  unfold interruptCheck; split <;> rfl

@[simp] theorem interruptCheck_dmem (s : State) : (interruptCheck s).dmem = s.dmem := by
  unfold interruptCheck; split <;> rfl

@[simp] theorem interruptCheck_trace (s : State) : (interruptCheck s).trace = s.trace := by
  unfold interruptCheck; split <;> rfl

@[simp] theorem interruptCheck_dmemSize (s : State) : (interruptCheck s).dmemSize = s.dmemSize := by
  unfold interruptCheck; split <;> rfl

@[simp] theorem interruptCheck_vec0 (s : State) : (interruptCheck s).vec0 = s.vec0 := by
  unfold interruptCheck; split <;> rfl

@[simp] theorem interruptCheck_vec1 (s : State) : (interruptCheck s).vec1 = s.vec1 := by
  unfold interruptCheck; split <;> rfl

@[simp] theorem interruptCheck_budget (s : State) : (interruptCheck s).budget = s.budget := by
  unfold interruptCheck; split <;> rfl

/-! ### Event sampling writes LATCH, PEND, PLINE and SCHED (R262) -/

@[simp] theorem sampleEvents_regs (s : State) : (sampleEvents s).regs = s.regs := by
  unfold sampleEvents; split <;> rfl

@[simp] theorem sampleEvents_s0 (s : State) : (sampleEvents s).s0 = s.s0 := by
  unfold sampleEvents; split <;> rfl

@[simp] theorem sampleEvents_s1 (s : State) : (sampleEvents s).s1 = s.s1 := by
  unfold sampleEvents; split <;> rfl

@[simp] theorem sampleEvents_pc (s : State) : (sampleEvents s).pc = s.pc := by
  unfold sampleEvents; split <;> rfl

@[simp] theorem sampleEvents_flags (s : State) : (sampleEvents s).flags = s.flags := by
  unfold sampleEvents; split <;> rfl

@[simp] theorem sampleEvents_ie (s : State) : (sampleEvents s).ie = s.ie := by
  unfold sampleEvents; split <;> rfl

@[simp] theorem sampleEvents_insvc (s : State) : (sampleEvents s).insvc = s.insvc := by
  unfold sampleEvents; split <;> rfl

@[simp] theorem sampleEvents_snap (s : State) : (sampleEvents s).snap = s.snap := by
  unfold sampleEvents; split <;> rfl

@[simp] theorem sampleEvents_phase (s : State) : (sampleEvents s).phase = s.phase := by
  unfold sampleEvents; split <;> rfl

@[simp] theorem sampleEvents_ir (s : State) : (sampleEvents s).ir = s.ir := by
  unfold sampleEvents; split <;> rfl

@[simp] theorem sampleEvents_irPort (s : State) : (sampleEvents s).irPort = s.irPort := by
  unfold sampleEvents; split <;> rfl

@[simp] theorem sampleEvents_t (s : State) : (sampleEvents s).t = s.t := by
  unfold sampleEvents; split <;> rfl

@[simp] theorem sampleEvents_status (s : State) : (sampleEvents s).status = s.status := by
  unfold sampleEvents; split <;> rfl

@[simp] theorem sampleEvents_outbuf (s : State) : (sampleEvents s).outbuf = s.outbuf := by
  unfold sampleEvents; split <;> rfl

@[simp] theorem sampleEvents_imem (s : State) : (sampleEvents s).imem = s.imem := by
  unfold sampleEvents; split <;> rfl

@[simp] theorem sampleEvents_dmem (s : State) : (sampleEvents s).dmem = s.dmem := by
  unfold sampleEvents; split <;> rfl

@[simp] theorem sampleEvents_trace (s : State) : (sampleEvents s).trace = s.trace := by
  unfold sampleEvents; split <;> rfl

@[simp] theorem sampleEvents_dmemSize (s : State) : (sampleEvents s).dmemSize = s.dmemSize := by
  unfold sampleEvents; split <;> rfl

@[simp] theorem sampleEvents_vec0 (s : State) : (sampleEvents s).vec0 = s.vec0 := by
  unfold sampleEvents; split <;> rfl

@[simp] theorem sampleEvents_vec1 (s : State) : (sampleEvents s).vec1 = s.vec1 := by
  unfold sampleEvents; split <;> rfl

@[simp] theorem sampleEvents_budget (s : State) : (sampleEvents s).budget = s.budget := by
  unfold sampleEvents; split <;> rfl

/-! ### Completing a stage moves the phase alone (R123) -/

@[simp] theorem completeStage_regs (n k : Nat) (s : State) : (completeStage n k s).regs = s.regs := by
  unfold completeStage; split <;> rfl

@[simp] theorem completeStage_s0 (n k : Nat) (s : State) : (completeStage n k s).s0 = s.s0 := by
  unfold completeStage; split <;> rfl

@[simp] theorem completeStage_s1 (n k : Nat) (s : State) : (completeStage n k s).s1 = s.s1 := by
  unfold completeStage; split <;> rfl

@[simp] theorem completeStage_pc (n k : Nat) (s : State) : (completeStage n k s).pc = s.pc := by
  unfold completeStage; split <;> rfl

@[simp] theorem completeStage_flags (n k : Nat) (s : State) : (completeStage n k s).flags = s.flags := by
  unfold completeStage; split <;> rfl

@[simp] theorem completeStage_ie (n k : Nat) (s : State) : (completeStage n k s).ie = s.ie := by
  unfold completeStage; split <;> rfl

@[simp] theorem completeStage_insvc (n k : Nat) (s : State) : (completeStage n k s).insvc = s.insvc := by
  unfold completeStage; split <;> rfl

@[simp] theorem completeStage_pend (n k : Nat) (s : State) : (completeStage n k s).pend = s.pend := by
  unfold completeStage; split <;> rfl

@[simp] theorem completeStage_pline (n k : Nat) (s : State) : (completeStage n k s).pline = s.pline := by
  unfold completeStage; split <;> rfl

@[simp] theorem completeStage_snap (n k : Nat) (s : State) : (completeStage n k s).snap = s.snap := by
  unfold completeStage; split <;> rfl

@[simp] theorem completeStage_ir (n k : Nat) (s : State) : (completeStage n k s).ir = s.ir := by
  unfold completeStage; split <;> rfl

@[simp] theorem completeStage_irPort (n k : Nat) (s : State) : (completeStage n k s).irPort = s.irPort := by
  unfold completeStage; split <;> rfl

@[simp] theorem completeStage_t (n k : Nat) (s : State) : (completeStage n k s).t = s.t := by
  unfold completeStage; split <;> rfl

@[simp] theorem completeStage_status (n k : Nat) (s : State) : (completeStage n k s).status = s.status := by
  unfold completeStage; split <;> rfl

@[simp] theorem completeStage_sched (n k : Nat) (s : State) : (completeStage n k s).sched = s.sched := by
  unfold completeStage; split <;> rfl

@[simp] theorem completeStage_latch (n k : Nat) (s : State) : (completeStage n k s).latch = s.latch := by
  unfold completeStage; split <;> rfl

@[simp] theorem completeStage_outbuf (n k : Nat) (s : State) : (completeStage n k s).outbuf = s.outbuf := by
  unfold completeStage; split <;> rfl

@[simp] theorem completeStage_imem (n k : Nat) (s : State) : (completeStage n k s).imem = s.imem := by
  unfold completeStage; split <;> rfl

@[simp] theorem completeStage_dmem (n k : Nat) (s : State) : (completeStage n k s).dmem = s.dmem := by
  unfold completeStage; split <;> rfl

@[simp] theorem completeStage_trace (n k : Nat) (s : State) : (completeStage n k s).trace = s.trace := by
  unfold completeStage; split <;> rfl

@[simp] theorem completeStage_dmemSize (n k : Nat) (s : State) : (completeStage n k s).dmemSize = s.dmemSize := by
  unfold completeStage; split <;> rfl

@[simp] theorem completeStage_vec0 (n k : Nat) (s : State) : (completeStage n k s).vec0 = s.vec0 := by
  unfold completeStage; split <;> rfl

@[simp] theorem completeStage_vec1 (n k : Nat) (s : State) : (completeStage n k s).vec1 = s.vec1 := by
  unfold completeStage; split <;> rfl

@[simp] theorem completeStage_budget (n k : Nat) (s : State) : (completeStage n k s).budget = s.budget := by
  unfold completeStage; split <;> rfl

end Sys2Proof.Machine
end

