-- ==== Sys2Proof/Laws/Engine.lean ====
section
/-! SUPPORT. What each shared operation of the engine can do, said once: the operand reads, the range check, the
fetch, the guard, the sampling of events, and the execute ticks of instructions of one, two and four stages. -/

namespace Sys2Proof.Machine

/-! ### Outcomes -/

@[simp] theorem andThen_next (s : State) (k : State → Result) : andThen (.next s) k = k s := rfl

@[simp] theorem andThen_fault (r : Fault) (k : State → Result) : andThen (.fault r) k = .fault r := rfl

@[simp] theorem andThen_refused (r : Refusal) (k : State → Result) : andThen (.refused r) k = .refused r := rfl

@[simp] theorem andThen_raise (r : FaultReason) (s : State) (k : State → Result) :
    andThen (raise r s) k = raise r s := rfl

@[simp] theorem endTick_next (s : State) : endTick (.next s) = .next { s with t := s.t + 1 } := rfl

@[simp] theorem endTick_raise (r : FaultReason) (s : State) : endTick (raise r s) = raise r s := rfl

theorem andThen_assoc (o : Result) (f g : State → Result) :
    andThen (andThen o f) g = andThen o fun s => andThen (f s) g := by
  cases o <;> rfl

theorem andThen_eq_next {o : Result} {k : State → Result} {t : State} (h : andThen o k = .next t) :
    ∃ s, o = .next s ∧ k s = .next t := by
  cases o with
  | next s => exact ⟨s, rfl, h⟩
  | fault r => simp [andThen] at h
  | refused r => simp [andThen] at h

theorem raise_ne_next (r : FaultReason) (s t : State) : raise r s ≠ .next t := by simp [raise]

theorem raise_ne_refused (r : FaultReason) (s : State) (x : Refusal) : raise r s ≠ .refused x := by simp [raise]

/-- A fault carries the state it was raised in, with the status alone changed (R305, R306). -/
@[simp] theorem faultOf_final (r : FaultReason) (s : State) : (faultOf r s).final = s := by cases r <;> rfl

/-! ### Operand reads and the range check -/

theorem withExt_some {s : State} {w : Word} (h : s.imemAt s.pc = some w) (k : Word → State → Result) :
    withExt s k = k w { s with pc := s.pc + 1 } := by simp [withExt, h]

theorem withExt_none {s : State} (h : s.imemAt s.pc = none) (k : Word → State → Result) :
    withExt s k = raise (.fetchOutOfRange s.pc) s := by simp [withExt, h]

/-- A word inside the image was read, `pc` past it, or F1 with `pc` where it was (R51). -/
theorem withExt_cases (s : State) (k : Word → State → Result) :
    (∃ w, s.imemAt s.pc = some w ∧ withExt s k = k w { s with pc := s.pc + 1 }) ∨
      (s.imemAt s.pc = none ∧ withExt s k = raise (.fetchOutOfRange s.pc) s) := by
  cases h : s.imemAt s.pc with
  | some w => exact .inl ⟨w, rfl, withExt_some h k⟩
  | none => exact .inr ⟨rfl, withExt_none h k⟩

theorem withData_inside {addr : Word} {n : Nat} {s : State} (h : addr.toNat + n ≤ s.dmemSize) (k : State → Result) :
    withData addr n s k = k s := if_neg (Nat.not_lt.2 h)

theorem withData_outside {addr : Word} {n : Nat} {s : State} (h : s.dmemSize < addr.toNat + n)
    (k : State → Result) : withData addr n s k = raise (.dataOutOfRange addr n) s := if_pos h

/-- The whole access lies inside data memory, or F2 (R60). -/
theorem withData_cases (addr : Word) (n : Nat) (s : State) (k : State → Result) :
    (addr.toNat + n ≤ s.dmemSize ∧ withData addr n s k = k s) ∨
      (s.dmemSize < addr.toNat + n ∧ withData addr n s k = raise (.dataOutOfRange addr n) s) := by
  by_cases h : addr.toNat + n ≤ s.dmemSize
  · exact .inl ⟨h, withData_inside h k⟩
  · exact .inr ⟨by omega, withData_outside (by omega) k⟩

/-! ### The sampling of events, written out (R262) -/

/-- LATCH after the sampling of tick `t`. -/
def eventLatch (sched : List (Nat × Event)) (t : Nat) (latch : List Host.Cell) : List Host.Cell :=
  match tableFind sched t with
  | none => latch
  | some e => tableWrite 0#8 latch (linePort e.line) (trunc8 e.value)

/-- PEND after the sampling of tick `t`. -/
def eventPend (sched : List (Nat × Event)) (t : Nat) (pend : Bool) : Bool := pend || (tableFind sched t).isSome

/-- PLINE after the sampling of tick `t`. -/
def eventLine (sched : List (Nat × Event)) (t : Nat) (pline : Line) : Line :=
  match tableFind sched t with
  | none => pline
  | some e => e.line

theorem tableErase_of_find_none {α : Type} {a : Nat} :
    ∀ {m : List (Nat × α)}, tableFind m a = none → tableErase m a = m
  | [], _ => rfl
  | (k, v) :: m, h => by
    simp only [tableFind] at h
    split at h
    · simp at h
    · next hk => simp only [tableErase, if_neg hk, tableErase_of_find_none h]

/-- Sampling as one record update whose new fields depend on `SCHED`, `t` and the old fields alone; it commutes with
every update of another field. -/
theorem sampleEvents_eq (s : State) :
    sampleEvents s = { s with
      latch := eventLatch s.sched s.t s.latch
      pend := eventPend s.sched s.t s.pend
      pline := eventLine s.sched s.t s.pline
      sched := tableErase s.sched s.t } := by
  unfold sampleEvents eventLatch eventPend eventLine
  cases h : tableFind s.sched s.t with
  | none => simp [tableErase_of_find_none h]
  | some e => simp

/-- Nothing is sampled in a tick with no entry. -/
theorem sampleEvents_none {s : State} (h : tableFind s.sched s.t = none) : sampleEvents s = s := by
  simp [sampleEvents, h]

/-! ### The guard and one tick -/

theorem guarded_running {s : State} (hs : s.status = .running) (hb : s.t ≠ s.budget) (k : State → Result) :
    guarded s k = k s := by simp [guarded, hs, hb]

theorem guarded_budget {s : State} (hs : s.status = .running) (hb : s.t = s.budget) (k : State → Result) :
    guarded s k = .next { s with status := .budget } := by simp [guarded, hs, hb]

theorem guarded_stopped {s : State} (hs : s.status ≠ .running) (k : State → Result) : guarded s k = .next s := by
  unfold guarded
  split <;> simp_all

/-- The guard runs the tick, ends the run at the budget, or leaves a stopped machine alone. -/
theorem guarded_cases (s : State) (k : State → Result) :
    (s.status = .running ∧ s.t ≠ s.budget ∧ guarded s k = k s) ∨
      (s.status = .running ∧ s.t = s.budget ∧ guarded s k = .next { s with status := .budget }) ∨
      (s.status ≠ .running ∧ guarded s k = .next s) := by
  by_cases hs : s.status = .running
  · by_cases hb : s.t = s.budget
    · exact .inr (.inl ⟨hs, hb, guarded_budget hs hb k⟩)
    · exact .inl ⟨hs, hb, guarded_running hs hb k⟩
  · exact .inr (.inr ⟨hs, guarded_stopped hs k⟩)

theorem execTick_next {n k : Nat} {st : Stage} {s u : State} (h : st (sampleEvents s) = .next u) :
    execTick n k st s = .next { completeStage n k u with t := u.t + 1 } := by simp [execTick, h]

theorem execTick_raise {n k : Nat} {st : Stage} {s u : State} {r : FaultReason}
    (h : st (sampleEvents s) = raise r u) : execTick n k st s = raise r u := by simp [execTick, h]

theorem completeStage_running {n k : Nat} {s : State} (h : s.status = .running) :
    completeStage n k s = { s with phase := if k + 1 = n then .fetch else .exec (k + 1) } := by
  simp [completeStage, h]

/-! ### The execute ticks in a row -/

/-- At the start of an instruction all its stages are still to run. -/
theorem runStages_start {s : State} (h : s.phase.stage = 0) (st : Stage) (rest : List Stage) :
    runStages (st :: rest) s = runFrom (rest.length + 1) 0 (st :: rest) s := by
  simp [runStages, h]

/-- One stage runs and completes, then the rest follows. -/
theorem runFrom_next {n k : Nat} {st : Stage} {rest : List Stage} {s u : State} (hs : s.status = .running)
    (hb : s.t ≠ s.budget) (h : st (sampleEvents s) = .next u) :
    runFrom n k (st :: rest) s = runFrom n (k + 1) rest { completeStage n k u with t := u.t + 1 } := by
  simp [runFrom, guarded_running hs hb, execTick_next h]

/-- The same for a stage that leaves the machine running, with the completion written out (R123). -/
theorem runFrom_running {n k : Nat} {st : Stage} {rest : List Stage} {s u : State} (hs : s.status = .running)
    (hb : s.t ≠ s.budget) (h : st (sampleEvents s) = .next u) (hu : u.status = .running) :
    runFrom n k (st :: rest) s =
      runFrom n (k + 1) rest { u with phase := if k + 1 = n then .fetch else .exec (k + 1), t := u.t + 1 } := by
  rw [runFrom_next hs hb h, completeStage_running hu]

theorem runFrom_raise {n k : Nat} {st : Stage} {rest : List Stage} {s u : State} {r : FaultReason}
    (hs : s.status = .running) (hb : s.t ≠ s.budget) (h : st (sampleEvents s) = raise r u) :
    runFrom n k (st :: rest) s = raise r u := by
  simp [runFrom, guarded_running hs hb, execTick_raise h]

/-- A stopped machine runs none of the stages left. -/
theorem runFrom_stopped {n : Nat} {s : State} (hs : s.status ≠ .running) :
    ∀ (k : Nat) (stages : List Stage), runFrom n k stages s = .next s
  | _, [] => rfl
  | k, st :: rest => by simp [runFrom, guarded_stopped hs, runFrom_stopped hs (k + 1) rest]

/-- At the budget the run ends, whatever stages are left (R126). -/
theorem runFrom_budget {n k : Nat} {st : Stage} {rest : List Stage} {s : State} (hs : s.status = .running)
    (hb : s.t = s.budget) : runFrom n k (st :: rest) s = .next { s with status := .budget } := by
  simp only [runFrom, guarded_budget hs hb, andThen_next]
  exact runFrom_stopped (by simp) _ _

/-- An instruction of one stage: its stage's state, one tick later, at the boundary. -/
theorem runStages_one {st : Stage} {s u : State} (h : Runs 1 s) (hst : st (sampleEvents s) = .next u)
    (hu : u.status = .running) : runStages [st] s = .next { u with phase := .fetch, t := u.t + 1 } := by
  obtain ⟨⟨hs, hp⟩, hb⟩ := h
  rw [runStages_start hp, runFrom_next hs (by omega) hst, completeStage_running hu]
  rfl

theorem runStages_raise {st : Stage} {rest : List Stage} {s u : State} {r : FaultReason} (h : Runs 1 s)
    (hst : st (sampleEvents s) = raise r u) : runStages (st :: rest) s = raise r u := by
  obtain ⟨⟨hs, hp⟩, hb⟩ := h
  rw [runStages_start hp, runFrom_raise hs (by omega) hst]

/-! ### The passing of ticks -/

theorem passTicks_succ : ∀ (n : Nat) (s : State),
    passTicks (n + 1) s = { sampleEvents (passTicks n s) with t := (passTicks n s).t + 1 }
  | 0, _ => rfl
  | n + 1, s => by
    rw [passTicks, passTicks_succ n]
    rfl

@[simp] theorem passTicks_t : ∀ (n : Nat) (s : State), (passTicks n s).t = s.t + n
  | 0, _ => rfl
  | n + 1, s => by
    rw [passTicks, passTicks_t n]
    simp only
    omega

end Sys2Proof.Machine
end

