-- ==== Sys2Proof/Laws/Frames.lean ====
section
/-! SUPPORT. The frame predicates of Safety.lean taken apart into their fields, and their first consequences. -/

namespace Sys2Proof.Machine

theorem onlyEvents_iff {n : Nat} {s t : State} : OnlyEvents n s t ↔
    t.latch = (passTicks n s).latch ∧ t.pend = (passTicks n s).pend ∧ t.pline = (passTicks n s).pline ∧
      t.sched = (passTicks n s).sched :=
  ⟨fun h => ⟨h.latch, h.pend, h.pline, h.sched⟩, fun ⟨a, b, c, d⟩ => ⟨a, b, c, d⟩⟩

theorem neverWritten_iff {s t : State} : NeverWritten s t ↔
    t.imem = s.imem ∧ t.dmemSize = s.dmemSize ∧ t.vec0 = s.vec0 ∧ t.vec1 = s.vec1 ∧ t.budget = s.budget ∧
      t.trace = s.trace ∧ t.ir = s.ir ∧ t.snap = s.snap :=
  ⟨fun h => ⟨h.imem, h.dmemSize, h.vec0, h.vec1, h.budget, h.trace, h.ir, h.snap⟩,
    fun ⟨a, b, c, d, e, f, g, h⟩ => ⟨a, b, c, d, e, f, g, h⟩⟩

theorem completed_iff {n : Nat} {s t : State} : Completed n s t ↔
    t.t = s.t + n ∧ t.phase = .fetch ∧ t.status = .running ∧ OnlyEvents n s t ∧ NeverWritten s t :=
  ⟨fun h => ⟨h.ticks, h.phase, h.status, h.events, h.kept⟩, fun ⟨a, b, c, d, e⟩ => ⟨a, b, c, d, e⟩⟩

theorem cutAfter_iff {j : Nat} {s t : State} : CutAfter j s t ↔
    t.t = s.t + j ∧ t.phase.stage = j ∧ t.status = .budget ∧ OnlyEvents j s t ∧ NeverWritten s t :=
  ⟨fun h => ⟨h.ticks, h.stage, h.status, h.events, h.kept⟩, fun ⟨a, b, c, d, e⟩ => ⟨a, b, c, d, e⟩⟩

theorem onlyWrites_iff {n : Nat} {rs : List Reg} {pc : Word} {s t : State} : OnlyWrites n rs pc s t ↔
    Completed n s t ∧ OtherRegs rs s t ∧ t.pc = pc ∧ SameMemory s t ∧ SameOutput s t ∧ SameControl s t ∧
      SameScratch s t :=
  ⟨fun h => ⟨h.completed, h.otherRegs, h.pc, h.memory, h.output, h.control, h.scratch⟩,
    fun ⟨a, b, c, d, e, f, g⟩ => ⟨a, b, c, d, e, f, g⟩⟩

/-- A budget that lasts more ticks lasts fewer. -/
theorem Runs.mono {m n : Nat} {s : State} (h : Runs n s) (hmn : m ≤ n) : Runs m s :=
  ⟨h.1, Nat.le_trans (Nat.add_le_add_left hmn _) h.2⟩

theorem otherRegs_of_regs {s t : State} (h : t.regs = s.regs) (rs : List Reg) : OtherRegs rs s t :=
  fun r _ => reg_congr h r

theorem sameMemory_of_dmem {s t : State} (h : t.dmem = s.dmem) : SameMemory s t :=
  fun b => by simp [State.byteAt, h]

theorem sameOutput_of_outbuf {s t : State} (h : t.outbuf = s.outbuf) : SameOutput s t :=
  fun p => by simp [State.output, h]

end Sys2Proof.Machine
end

