-- ==== Sys2Proof/Laws/Operands.lean ====
section
/-! SUPPORT. The parts of a word: four bytes put in their places make the little-endian word (spec/20_memory.md R55),
and a byte of a word is what was put there (R57). -/

namespace Sys2Proof.Machine

/-- R55: `DMEM[a+3] ++ DMEM[a+2] ++ DMEM[a+1] ++ DMEM[a]`. -/
def Memory.readWord (m : Memory) (a : Nat) : Word :=
  m.read (a + 3) ++ m.read (a + 2) ++ m.read (a + 1) ++ m.read a

/-- What LD's four stages gather is the word R55 reads. -/
theorem gathered_eq_append (a b c d : Byte) :
    zext a ||| byteInPlace 1 b ||| byteInPlace 2 c ||| byteInPlace 3 d = d ++ c ++ b ++ a := by
  apply BitVec.eq_of_getLsbD_eq
  intro i hi
  simp only [zext, byteInPlace, BitVec.getLsbD_append, BitVec.getLsbD_or, BitVec.getLsbD_shiftLeft,
    BitVec.getLsbD_setWidth]
  interval_cases i <;> simp

theorem gathered_eq_readWord (m : Memory) (a : Nat) :
    zext (Memory.read m a) ||| byteInPlace 1 (Memory.read m (a + 1)) ||| byteInPlace 2 (Memory.read m (a + 2)) |||
      byteInPlace 3 (Memory.read m (a + 3)) = Memory.readWord m a :=
  gathered_eq_append _ _ _ _

@[simp] theorem zext_toNat (b : Byte) : (zext b).toNat = b.toNat := by
  have := b.isLt
  simp only [zext, BitVec.toNat_setWidth]
  omega

@[simp] theorem outLowByte_eq (v : Word) : outLowByte v = v.extractLsb' 0 8 := rfl

@[simp] theorem outHighByte_eq (v : Word) : outHighByte v = v.extractLsb' 16 8 := rfl

end Sys2Proof.Machine
end

