-- ==== Sys2Proof/Laws/PerInstr.lean ====
section
/-! SUPPORT. The families of statements made per instruction, one lemma for each constructor. -/

namespace Sys2Proof.Laws.Lookup

/-- The fields of an instruction name a row of the opcode map (R86, R90), and the lookup of that row gives the
instruction back with every register it lists. -/
def Statement (i : Instr) : Prop :=
  pairValid i.fields.op.toNat i.fields.mode.toNat = true ∧ lookup i.fields = .ok i

theorem nop : Statement .nop := ⟨rfl, rfl⟩

theorem halt : Statement .halt := ⟨rfl, rfl⟩

theorem movReg (rd rs1 : Reg) : Statement (.movReg rd rs1) := ⟨rfl, rfl⟩

theorem movImm (rd : Reg) : Statement (.movImm rd) := ⟨rfl, rfl⟩

theorem ldAbs (rd : Reg) : Statement (.ldAbs rd) := ⟨rfl, rfl⟩

theorem ldInd (rd rs1 : Reg) : Statement (.ldInd rd rs1) := ⟨rfl, rfl⟩

theorem ldbAbs (rd : Reg) : Statement (.ldbAbs rd) := ⟨rfl, rfl⟩

theorem ldbInd (rd rs1 : Reg) : Statement (.ldbInd rd rs1) := ⟨rfl, rfl⟩

theorem stAbs (rs1 : Reg) : Statement (.stAbs rs1) := ⟨rfl, rfl⟩

theorem stInd (rs1 rs2 : Reg) : Statement (.stInd rs1 rs2) := ⟨rfl, rfl⟩

theorem stbAbs (rs1 : Reg) : Statement (.stbAbs rs1) := ⟨rfl, rfl⟩

theorem stbInd (rs1 rs2 : Reg) : Statement (.stbInd rs1 rs2) := ⟨rfl, rfl⟩

theorem addReg (rd rs1 rs2 : Reg) : Statement (.addReg rd rs1 rs2) := ⟨rfl, rfl⟩

theorem addImm (rd rs1 : Reg) : Statement (.addImm rd rs1) := ⟨rfl, rfl⟩

theorem subReg (rd rs1 rs2 : Reg) : Statement (.subReg rd rs1 rs2) := ⟨rfl, rfl⟩

theorem subImm (rd rs1 : Reg) : Statement (.subImm rd rs1) := ⟨rfl, rfl⟩

theorem mulReg (rd rs1 rs2 : Reg) : Statement (.mulReg rd rs1 rs2) := ⟨rfl, rfl⟩

theorem mulImm (rd rs1 : Reg) : Statement (.mulImm rd rs1) := ⟨rfl, rfl⟩

theorem divReg (rd rs1 rs2 : Reg) : Statement (.divReg rd rs1 rs2) := ⟨rfl, rfl⟩

theorem divImm (rd rs1 : Reg) : Statement (.divImm rd rs1) := ⟨rfl, rfl⟩

theorem cmpReg (rs1 rs2 : Reg) : Statement (.cmpReg rs1 rs2) := ⟨rfl, rfl⟩

theorem cmpImm (rs1 : Reg) : Statement (.cmpImm rs1) := ⟨rfl, rfl⟩

theorem jmp : Statement .jmp := ⟨rfl, rfl⟩

theorem je : Statement .je := ⟨rfl, rfl⟩

theorem jne : Statement .jne := ⟨rfl, rfl⟩

theorem jl : Statement .jl := ⟨rfl, rfl⟩

theorem jle : Statement .jle := ⟨rfl, rfl⟩

theorem jg : Statement .jg := ⟨rfl, rfl⟩

theorem jge : Statement .jge := ⟨rfl, rfl⟩

theorem push (rs1 : Reg) : Statement (.push rs1) := ⟨rfl, rfl⟩

theorem pop (rd : Reg) : Statement (.pop rd) := ⟨rfl, rfl⟩

theorem inPort (rd : Reg) : Statement (.inPort rd) := ⟨rfl, rfl⟩

theorem outPort (rs1 : Reg) : Statement (.outPort rs1) := ⟨rfl, rfl⟩

theorem outlPort (rs1 : Reg) : Statement (.outlPort rs1) := ⟨rfl, rfl⟩

theorem ei : Statement .ei := ⟨rfl, rfl⟩

theorem di : Statement .di := ⟨rfl, rfl⟩

theorem iret : Statement .iret := ⟨rfl, rfl⟩

end Sys2Proof.Laws.Lookup
end

