-- ==== Sys2Proof/Laws/Stages.lean ====
section
/-! SUPPORT. Everything one stage of any instruction can do, said once: it goes on from a state in which only what its
instruction may write has changed, or, at stage 0 alone, it faults with nothing changed but a read extension word. -/

namespace Sys2Proof.Machine

/-- The instructions of spec/42_alu.md: they and IRET alone write the flags (R25). -/
def isAlu : Instr → Bool
  | .addReg .. | .addImm .. | .subReg .. | .subImm .. | .mulReg .. | .mulImm .. | .divReg .. | .divImm ..
  | .cmpReg .. | .cmpImm .. => true
  | _ => false

/-- What no stage writes. -/
structure KeptByStage (s u : State) : Prop where
  pend : u.pend = s.pend
  pline : u.pline = s.pline
  snap : u.snap = s.snap
  phase : u.phase = s.phase
  ir : u.ir = s.ir
  t : u.t = s.t
  sched : u.sched = s.sched
  latch : u.latch = s.latch
  imem : u.imem = s.imem
  trace : u.trace = s.trace
  dmemSize : u.dmemSize = s.dmemSize
  vec0 : u.vec0 = s.vec0
  vec1 : u.vec1 = s.vec1
  budget : u.budget = s.budget

/-- Where stage `k` of `i` may lead from `s`. -/
structure StageNext (i : Instr) (k : Nat) (s u : State) : Prop where
  kept : KeptByStage s u
  status : u.status = s.status ∨ i = .halt ∧ u.status = .halted
  ie : u.ie = s.ie ∨ i = .ei ∨ i = .di
  insvc : u.insvc = s.insvc ∨
    i = .iret ∧ u.insvc = false ∧ u.pc = s.snap.pc ∧ u.flags = s.snap.flags ∧ u.regs = s.snap.regs
  flags : u.flags = s.flags ∨ isAlu i = true ∨ i = .iret
  dmemWf : Memory.wf s.dmem = true → Memory.wf u.dmem = true
  dmemInside : (k ≠ 0 → i.stages = 4 → s.s0.toNat + 4 ≤ s.dmemSize) → (∀ e ∈ s.dmem, e.1 < s.dmemSize) →
    ∀ e ∈ u.dmem, e.1 < s.dmemSize
  access : i.stages = 4 → (k ≠ 0 → s.s0.toNat + 4 ≤ s.dmemSize) → u.s0.toNat + 4 ≤ s.dmemSize
  outbufWf : tableWf [] s.outbuf = true → tableWf [] u.outbuf = true
  outbufGrows : tableWf [] s.outbuf = true → ∀ p, s.output p <+: u.output p

/-- What stage `k` of `i` answers at `s`. -/
def StageLaw (i : Instr) (k : Nat) (s : State) (o : Result) : Prop :=
  (∃ u, o = .next u ∧ StageNext i k s u) ∨
    (k = 0 ∧ ∃ r, o = raise r s ∨
      (i.extWords = 1 ∧ s.pc.toNat < s.imem.length ∧ o = raise r { s with pc := s.pc + 1 }))

theorem stageLaw_next {i : Instr} {k : Nat} {s u : State} (h : StageNext i k s u) : StageLaw i k s (.next u) :=
  .inl ⟨u, rfl, h⟩

theorem stageLaw_ext {i : Instr} {s : State} {f : Word → State → Result} (he : i.extWords = 1)
    (h : ∀ w, (∃ u, f w { s with pc := s.pc + 1 } = .next u ∧ StageNext i 0 s u) ∨
      ∃ r, f w { s with pc := s.pc + 1 } = raise r { s with pc := s.pc + 1 }) : StageLaw i 0 s (withExt s f) := by
  rcases withExt_cases s f with ⟨w, hw, e⟩ | ⟨-, e⟩
  · have hlt : s.pc.toNat < s.imem.length := (List.getElem?_eq_some_iff.1 hw).1
    rw [e]
    rcases h w with h | ⟨r, h⟩
    · exact .inl h
    · exact .inr ⟨rfl, r, .inr ⟨he, hlt, h⟩⟩
  · rw [e]
    exact .inr ⟨rfl, _, .inl rfl⟩

theorem stageLaw_data {i : Instr} {s : State} {addr : Word} {n : Nat} {f : State → Result}
    (h : addr.toNat + n ≤ s.dmemSize → ∃ u, f s = .next u ∧ StageNext i 0 s u) :
    StageLaw i 0 s (withData addr n s f) := by
  rcases withData_cases addr n s f with ⟨hr, e⟩ | ⟨-, e⟩
  · rw [e]
    exact .inl (h hr)
  · rw [e]
    exact .inr ⟨rfl, _, .inl rfl⟩

theorem stageLaw_extData {i : Instr} {s : State} {n : Nat} {f : Word → State → Result} (he : i.extWords = 1)
    (h : ∀ w : Word, w.toNat + n ≤ s.dmemSize →
      ∃ u, f w { s with pc := s.pc + 1 } = .next u ∧ StageNext i 0 s u) :
    StageLaw i 0 s (withExt s fun w s' => withData w n s' (f w)) :=
  stageLaw_ext he fun w => by
    rcases withData_cases w n { s with pc := s.pc + 1 } (f w) with ⟨hr, e⟩ | ⟨-, e⟩
    · rw [e]
      exact .inl (h w hr)
    · exact .inr ⟨_, e⟩

/-- A stage that touches neither the data memory, S0 nor an output buffer. -/
theorem stageNext_of_kept {i : Instr} {k : Nat} {s u : State} (kept : KeptByStage s u)
    (status : u.status = s.status ∨ i = .halt ∧ u.status = .halted) (ie : u.ie = s.ie ∨ i = .ei ∨ i = .di)
    (insvc : u.insvc = s.insvc ∨
      i = .iret ∧ u.insvc = false ∧ u.pc = s.snap.pc ∧ u.flags = s.snap.flags ∧ u.regs = s.snap.regs)
    (flags : u.flags = s.flags ∨ isAlu i = true ∨ i = .iret) (dmem : u.dmem = s.dmem) (outbuf : u.outbuf = s.outbuf)
    (access : i.stages = 4 → (k ≠ 0 → s.s0.toNat + 4 ≤ s.dmemSize) → u.s0.toNat + 4 ≤ s.dmemSize) :
    StageNext i k s u where
  kept := kept
  status := status
  ie := ie
  insvc := insvc
  flags := flags
  dmemWf h := by rw [dmem]; exact h
  dmemInside _ h := by rw [dmem]; exact h
  access := access
  outbufWf h := by rw [outbuf]; exact h
  outbufGrows _ p := by simp [State.output, outbuf]

/-- A stage that writes one byte of data memory inside the access. -/
theorem stageNext_setByte {i : Instr} {k : Nat} {s u : State} {a : Nat} {b : Byte} (kept : KeptByStage s u)
    (status : u.status = s.status) (ie : u.ie = s.ie) (insvc : u.insvc = s.insvc) (flags : u.flags = s.flags)
    (outbuf : u.outbuf = s.outbuf) (dmem : u.dmem = Memory.write s.dmem a b)
    (inside : (k ≠ 0 → i.stages = 4 → s.s0.toNat + 4 ≤ s.dmemSize) → a < s.dmemSize)
    (access : i.stages = 4 → (k ≠ 0 → s.s0.toNat + 4 ≤ s.dmemSize) → u.s0.toNat + 4 ≤ s.dmemSize) :
    StageNext i k s u where
  kept := kept
  status := .inl status
  ie := .inl ie
  insvc := .inl insvc
  flags := .inl flags
  dmemWf h := by rw [dmem]; exact Memory.write_wf h a b
  dmemInside hr h e he := by
    rw [dmem] at he
    rcases Memory.mem_write he with he | he
    · exact h e he
    · rw [he]; exact inside hr
  access := access
  outbufWf h := by rw [outbuf]; exact h
  outbufGrows _ p := by simp [State.output, outbuf]

/-- A stage that appends one byte to an output buffer. -/
theorem stageNext_portOut {i : Instr} {k : Nat} {s v : State} {p : Word} {b : Byte} (kept : KeptByStage s v)
    (status : v.status = s.status) (ie : v.ie = s.ie) (insvc : v.insvc = s.insvc) (flags : v.flags = s.flags)
    (outbuf : v.outbuf = s.outbuf) (dmem : v.dmem = s.dmem) (stages : i.stages ≠ 4) :
    StageNext i k s (v.portOut p b) where
  kept := ⟨kept.pend, kept.pline, kept.snap, kept.phase, kept.ir, kept.t, kept.sched, kept.latch, kept.imem,
    kept.trace, kept.dmemSize, kept.vec0, kept.vec1, kept.budget⟩
  status := .inl status
  ie := .inl ie
  insvc := .inl insvc
  flags := .inl flags
  dmemWf h := by simpa [dmem] using h
  dmemInside _ h := by simpa [dmem] using h
  access h := absurd h stages
  outbufWf h := by
    simp only [State.portOut, outbuf]
    exact tableWrite_wf _ _ _ h
  outbufGrows h q := by
    simp only [State.output, State.portOut, outbuf]
    by_cases hq : q.toNat = p.toNat
    · rw [hq, tableRead_write_wf _ _ _ h]
      exact List.prefix_append _ _
    · rw [tableRead_write_other _ _ hq]

/-- A stage that writes registers, the scratch registers, `pc` and the flags alone. -/
theorem stageNext_fields {i : Instr} {k : Nat} {s : State} {rs : Vector Word 16} {a b pc : Word} {f : Flags}
    (flags : f = s.flags ∨ isAlu i = true)
    (access : i.stages = 4 → (k ≠ 0 → s.s0.toNat + 4 ≤ s.dmemSize) → a.toNat + 4 ≤ s.dmemSize) :
    StageNext i k s { s with regs := rs, s0 := a, s1 := b, pc := pc, flags := f } :=
  stageNext_of_kept (by constructor <;> rfl) (.inl rfl) (.inl rfl) (.inl rfl)
    (flags.elim .inl fun h => .inr (.inl h)) rfl rfl access

/-- A stage that writes one byte of its access, registers and the scratch registers. -/
theorem stageNext_store {i : Instr} {k : Nat} {s : State} {rs : Vector Word 16} {a b pc : Word} {x : Nat} {v : Byte}
    (inside : (k ≠ 0 → i.stages = 4 → s.s0.toNat + 4 ≤ s.dmemSize) → x < s.dmemSize)
    (access : i.stages = 4 → (k ≠ 0 → s.s0.toNat + 4 ≤ s.dmemSize) → a.toNat + 4 ≤ s.dmemSize) :
    StageNext i k s
      { s with regs := rs, s0 := a, s1 := b, pc := pc, dmem := Memory.write s.dmem x v } :=
  stageNext_setByte (by constructor <;> rfl) rfl rfl rfl rfl rfl rfl inside access

/-! ### Shared stages -/

theorem stageLaw_jump {i : Instr} {s : State} {cond : Flags → Bool} (he : i.extWords = 1) (h4 : i.stages ≠ 4) :
    StageLaw i 0 s (jumpStage cond s) := by
  unfold jumpStage withAbs
  refine stageLaw_ext he fun w => .inl ?_
  cases h : cond s.flags
  · exact ⟨{ s with pc := s.pc + 1 }, by simp, stageNext_fields (.inl rfl) fun h => absurd h h4⟩
  · exact ⟨{ s with pc := w }, by simp, stageNext_fields (.inl rfl) fun h => absurd h h4⟩

theorem stageLaw_loadFirst {i : Instr} {addr : Word} {s : State} : StageLaw i 0 s (loadFirst addr s) :=
  stageLaw_data fun hr => ⟨_, rfl, stageNext_fields (.inl rfl) fun _ _ => hr⟩

theorem stageLaw_loadFirstAbs {i : Instr} {s : State} (he : i.extWords = 1) :
    StageLaw i 0 s (withAbs s loadFirst) :=
  stageLaw_extData he fun _ hr => ⟨_, rfl, stageNext_fields (.inl rfl) fun _ _ => hr⟩

theorem stageLaw_loadNext {i : Instr} {k j : Nat} {s : State} (hk : k ≠ 0) : StageLaw i k s (loadNext j s) :=
  stageLaw_next (stageNext_fields (.inl rfl) fun _ h => h hk)

theorem stageLaw_loadLast {i : Instr} {k : Nat} {rd : Reg} {s : State} (hk : k ≠ 0) :
    StageLaw i k s (loadLast rd s) :=
  stageLaw_next (stageNext_fields (.inl rfl) fun _ h => h hk)

theorem stageLaw_popLast {i : Instr} {k : Nat} {rd : Reg} {s : State} (hk : k ≠ 0) :
    StageLaw i k s (popLast rd s) :=
  stageLaw_next (stageNext_fields (.inl rfl) fun _ h => h hk)

theorem stageLaw_loadByte {i : Instr} {rd : Reg} {addr : Word} {s : State} (h4 : i.stages ≠ 4) :
    StageLaw i 0 s (loadByte rd addr s) :=
  stageLaw_data fun _ => ⟨_, rfl, stageNext_fields (.inl rfl) fun h => absurd h h4⟩

theorem stageLaw_loadByteAbs {i : Instr} {rd : Reg} {s : State} (he : i.extWords = 1) (h4 : i.stages ≠ 4) :
    StageLaw i 0 s (withAbs s (loadByte rd)) :=
  stageLaw_extData he fun _ _ => ⟨_, rfl, stageNext_fields (.inl rfl) fun h => absurd h h4⟩

theorem stageLaw_storeFirst {i : Instr} {addr v : Word} {s : State} : StageLaw i 0 s (storeFirst addr v s) :=
  stageLaw_data fun hr => ⟨_, rfl, stageNext_store (fun _ => by omega) fun _ _ => hr⟩

theorem stageLaw_storeFirstAbs {i : Instr} {rs1 : Reg} {s : State} (he : i.extWords = 1) :
    StageLaw i 0 s (withAbs s fun addr s' => storeFirst addr (s'.reg rs1) s') :=
  stageLaw_extData he fun _ hr => ⟨_, rfl, stageNext_store (fun _ => by omega) fun _ _ => hr⟩

theorem stageLaw_storeNext {i : Instr} {k j : Nat} {s : State} (hk : k ≠ 0) (h4 : i.stages = 4) (hj : j < 4) :
    StageLaw i k s (storeNext j s) :=
  stageLaw_next (stageNext_store (fun h => by have := h hk h4; omega) fun _ h => h hk)

theorem stageLaw_pushLast {i : Instr} {k : Nat} {s : State} (hk : k ≠ 0) (h4 : i.stages = 4) :
    StageLaw i k s (pushLast s) :=
  stageLaw_next (stageNext_store (fun h => by have := h hk h4; omega) fun _ h => h hk)

theorem stageLaw_storeByte {i : Instr} {v addr : Word} {s : State} (h4 : i.stages ≠ 4) :
    StageLaw i 0 s (storeByte v addr s) :=
  stageLaw_data fun hr => ⟨_, rfl, stageNext_store (fun _ => by omega) fun h => absurd h h4⟩

theorem stageLaw_storeByteAbs {i : Instr} {v : Word} {s : State} (he : i.extWords = 1) (h4 : i.stages ≠ 4) :
    StageLaw i 0 s (withAbs s (storeByte v)) :=
  stageLaw_extData he fun _ hr => ⟨_, rfl, stageNext_store (fun _ => by omega) fun h => absurd h h4⟩

theorem stageLaw_quotient {i : Instr} {k : Nat} {s : State} {rd : Reg} (rf : Option Word × Flags)
    (h : isAlu i = true) (h4 : i.stages ≠ 4) (pc : Word) :
    ∃ u, writeQuotient rd rf { s with pc := pc } = .next u ∧ StageNext i k s u := by
  rcases rf with ⟨r | r, f⟩
  · exact ⟨_, rfl, stageNext_fields (.inr h) fun h => absurd h h4⟩
  · exact ⟨_, rfl, stageNext_fields (.inr h) fun h => absurd h h4⟩

theorem stageLaw_extFields {i : Instr} {s : State} {f : Word → State → Result} (he : i.extWords = 1)
    (h : ∀ w, ∃ u, f w { s with pc := s.pc + 1 } = .next u ∧ StageNext i 0 s u) : StageLaw i 0 s (withExt s f) :=
  stageLaw_ext he fun w => .inl (h w)

theorem stageLaw_halt (s : State) : StageLaw .halt 0 s (.next { s with status := .halted }) :=
  stageLaw_next (stageNext_of_kept (by constructor <;> rfl) (.inr ⟨rfl, rfl⟩) (.inl rfl) (.inl rfl) (.inl rfl) rfl rfl
    fun h => by cases h)

theorem stageLaw_enable {i : Instr} {s : State} {on : Bool} (hi : i = .ei ∨ i = .di) (h4 : i.stages ≠ 4) :
    StageLaw i 0 s (.next { s with ie := on }) :=
  stageLaw_next (stageNext_of_kept (by constructor <;> rfl) (.inl rfl) (.inr hi) (.inl rfl) (.inl rfl) rfl rfl
    fun h => absurd h h4)

theorem stageLaw_out {i : Instr} {s : State} {f : State → Byte} (he : i.extWords = 1) (h4 : i.stages ≠ 4) :
    StageLaw i 0 s (withPort s fun p s' => .next (s'.portOut p (f s'))) :=
  stageLaw_extFields he fun w => ⟨_, rfl, stageNext_portOut (by constructor <;> rfl) rfl rfl rfl rfl rfl rfl h4⟩

theorem stageLaw_outLongFirst {i : Instr} {s : State} {rs1 : Reg} (he : i.extWords = 1) (h4 : i.stages ≠ 4) :
    StageLaw i 0 s (outLongFirst rs1 s) := by
  unfold outLongFirst withPort
  exact stageLaw_extFields he fun w => ⟨_, rfl, stageNext_portOut (by constructor <;> rfl) rfl rfl rfl rfl rfl rfl h4⟩

theorem stageLaw_outLongSecond {i : Instr} {k : Nat} {s : State} {rs1 : Reg} (h4 : i.stages ≠ 4) :
    StageLaw i k s (outLongSecond rs1 s) :=
  stageLaw_next (stageNext_portOut (by constructor <;> rfl) rfl rfl rfl rfl rfl rfl h4)

theorem stageLaw_iret (s : State) : StageLaw .iret 0 s (returnFromInterrupt s) := by
  unfold returnFromInterrupt
  split
  · exact .inr ⟨rfl, _, .inl rfl⟩
  · exact stageLaw_next (stageNext_of_kept (by constructor <;> rfl) (.inl rfl) (.inl rfl)
      (.inr ⟨rfl, rfl, rfl, rfl, rfl⟩) (.inr (.inr rfl)) rfl rfl
      (by simp [Instr.stages]))

/-- What stage `k` of any instruction does. -/
theorem stage_law {i : Instr} {k : Nat} {st : Stage} (h : (microcode i)[k]? = some st) (s : State) :
    StageLaw i k s (st s) := by
  rcases k with _ | _ | _ | _ | k <;> cases i <;> cases h
  case zero.nop.refl | zero.movReg.refl =>
    exact stageLaw_next (stageNext_fields (.inl rfl) (by simp [Instr.stages]))
  case zero.halt.refl =>
    exact stageLaw_halt s
  case zero.movImm.refl | zero.inPort.refl =>
    exact stageLaw_extFields rfl fun w => ⟨_, rfl, stageNext_fields (.inl rfl) (by simp [Instr.stages])⟩
  case zero.ldAbs.refl =>
    exact stageLaw_loadFirstAbs rfl
  case zero.ldInd.refl | zero.pop.refl =>
    exact stageLaw_loadFirst
  case zero.ldbAbs.refl =>
    exact stageLaw_loadByteAbs rfl (by simp [Instr.stages])
  case zero.ldbInd.refl =>
    exact stageLaw_loadByte (by simp [Instr.stages])
  case zero.stAbs.refl =>
    exact stageLaw_storeFirstAbs rfl
  case zero.stInd.refl | zero.push.refl =>
    exact stageLaw_storeFirst
  case zero.stbAbs.refl =>
    exact stageLaw_storeByteAbs rfl (by simp [Instr.stages])
  case zero.stbInd.refl =>
    exact stageLaw_storeByte (by simp [Instr.stages])
  case zero.addReg.refl | zero.subReg.refl | zero.mulReg.refl | zero.cmpReg.refl =>
    exact stageLaw_next (stageNext_fields (.inr rfl) (by simp [Instr.stages]))
  case zero.addImm.refl | zero.subImm.refl | zero.mulImm.refl | zero.cmpImm.refl =>
    exact stageLaw_extFields rfl fun w => ⟨_, rfl, stageNext_fields (.inr rfl) (by simp [Instr.stages])⟩
  case zero.divReg.refl =>
    exact .inl (stageLaw_quotient _ rfl (by simp [Instr.stages]) _)
  case zero.divImm.refl =>
    exact stageLaw_extFields rfl fun w => stageLaw_quotient _ rfl (by simp [Instr.stages]) _
  case zero.jmp.refl | zero.je.refl | zero.jne.refl | zero.jl.refl | zero.jle.refl | zero.jg.refl | zero.jge.refl =>
    exact stageLaw_jump rfl (by simp [Instr.stages])
  case zero.outPort.refl =>
    exact stageLaw_out rfl (by simp [Instr.stages])
  case zero.outlPort.refl =>
    exact stageLaw_outLongFirst rfl (by simp [Instr.stages])
  case zero.ei.refl | zero.di.refl =>
    exact stageLaw_enable (by simp) (by simp [Instr.stages])
  case zero.iret.refl =>
    exact stageLaw_iret s
  case succ.zero.outlPort.refl =>
    exact stageLaw_outLongSecond (by simp [Instr.stages])
  case succ.zero.ldAbs.refl | succ.zero.ldInd.refl | succ.zero.pop.refl =>
    exact stageLaw_loadNext (by simp)
  case succ.succ.zero.ldAbs.refl | succ.succ.zero.ldInd.refl | succ.succ.zero.pop.refl =>
    exact stageLaw_loadNext (by simp)
  case succ.succ.succ.zero.ldAbs.refl | succ.succ.succ.zero.ldInd.refl =>
    exact stageLaw_loadLast (by simp)
  case succ.succ.succ.zero.pop.refl =>
    exact stageLaw_popLast (by simp)
  case succ.zero.stAbs.refl | succ.zero.stInd.refl | succ.zero.push.refl =>
    exact stageLaw_storeNext (by simp) rfl (by simp)
  case succ.succ.zero.stAbs.refl | succ.succ.zero.stInd.refl | succ.succ.zero.push.refl =>
    exact stageLaw_storeNext (by simp) rfl (by simp)
  case succ.succ.succ.zero.stAbs.refl | succ.succ.succ.zero.stInd.refl =>
    exact stageLaw_storeNext (by simp) rfl (by simp)
  case succ.succ.succ.zero.push.refl =>
    exact stageLaw_pushLast (by simp) rfl

/-! ### A whole instruction -/

/-- Every meaning is the run of its microcode (R86, R90). -/
theorem exec_eq_runStages (i : Instr) (s : State) : exec i s = runStages (microcode i) s := by cases i <;> rfl

/-- A tick of stage `k`: it goes on as `StageNext` says, one tick later, or faults at stage 0 alone, with nothing changed
but the tick's sampling and a read extension word (R306). -/
theorem execTick_cases {i : Instr} {k : Nat} {st : Stage} (h : (microcode i)[k]? = some st) (n : Nat) (s : State) :
    (∃ u, execTick n k st s = .next { completeStage n k u with t := u.t + 1 } ∧
        StageNext i k (sampleEvents s) u) ∨
      (k = 0 ∧ ∃ r, execTick n k st s = raise r (sampleEvents s) ∨
        (i.extWords = 1 ∧ s.pc.toNat < s.imem.length ∧
          execTick n k st s = raise r { sampleEvents s with pc := s.pc + 1 })) := by
  rcases stage_law h (sampleEvents s) with ⟨u, hu, law⟩ | ⟨hk, r, hr | ⟨he, hl, hr⟩⟩
  · exact .inl ⟨u, execTick_next hu, law⟩
  · exact .inr ⟨hk, r, .inl (execTick_raise hr)⟩
  · exact .inr ⟨hk, r, .inr ⟨he, by simpa using hl, execTick_raise (by simpa using hr)⟩⟩

/-- A relation that every stage's tick and the end of the budget keep holds between the start of an instruction and the
state it leaves. -/
theorem exec_rel {i : Instr} (R : State → State → Prop) (refl : ∀ s, R s s)
    (trans : ∀ s u t, R s u → R u t → R s t) (budget : ∀ s, R s { s with status := .budget })
    (stage : ∀ n k s u, StageNext i k (sampleEvents s) u → R s { completeStage n k u with t := u.t + 1 })
    {s t : State} (h : exec i s = .next t) : R s t := by
  have run : ∀ (n : Nat) (stages : List Stage) (k : Nat) (s : State),
      (∀ j st, stages[j]? = some st → (microcode i)[k + j]? = some st) →
      runFrom n k stages s = .next t → R s t := by
    intro n stages
    induction stages with
    | nil =>
      intro k s _ h
      cases h
      exact refl _
    | cons st rest ih =>
      intro k s hm h
      obtain ⟨u, hu, h⟩ := andThen_eq_next h
      have hrest : ∀ j st', rest[j]? = some st' → (microcode i)[k + 1 + j]? = some st' := fun j st' hj => by
        have := hm (j + 1) st' (by simpa using hj)
        rwa [show k + 1 + j = k + (j + 1) by omega]
      refine trans s u t ?_ (ih _ _ hrest h)
      rcases guarded_cases s (execTick n k st) with ⟨-, -, e⟩ | ⟨-, -, e⟩ | ⟨-, e⟩ <;> rw [e] at hu
      · have hst : (microcode i)[k]? = some st := hm 0 st rfl
        rcases execTick_cases hst n s with ⟨v, hv, law⟩ | ⟨-, r, hr | ⟨-, -, hr⟩⟩
        · rw [hv] at hu
          cases hu
          exact stage n k s v law
        · rw [hr] at hu
          exact absurd hu (raise_ne_next _ _ _)
        · rw [hr] at hu
          exact absurd hu (raise_ne_next _ _ _)
      · cases hu
        exact budget s
      · cases hu
        exact refl s
  rw [exec_eq_runStages, runStages] at h
  split at h
  · cases h
  · next st rest hd =>
    refine run _ _ _ s (fun j st' hj => ?_) h
    rw [← hd, List.getElem?_drop] at hj
    exact hj

end Sys2Proof.Machine
end

