-- ==== Sys2Proof/Laws/Step.lean ====
section
/-! SUPPORT. What a step and its fetch tick can do, said once. -/

namespace Sys2Proof.Machine

/-- A step fetches and runs an instruction, runs the rest of one, ends the run at the budget, or stands still. -/
theorem step_cases (s : State) :
    (s.status = .running ∧ s.t ≠ s.budget ∧ s.phase = .fetch ∧ step s = andThen (fetchTick s) resume) ∨
      (s.status = .running ∧ s.t ≠ s.budget ∧ (∃ k, s.phase = .exec k) ∧ step s = resume s) ∨
      (s.status = .running ∧ s.t = s.budget ∧ step s = .next { s with status := .budget }) ∨
      (s.status ≠ .running ∧ step s = .next s) := by
  unfold step
  by_cases hs : s.status = .running
  · by_cases hb : s.t = s.budget
    · exact .inr (.inr (.inl ⟨hs, hb, guarded_budget hs hb _⟩))
    · cases hp : s.phase with
      | fetch => exact .inl ⟨hs, hb, rfl, by rw [guarded_running hs hb, hp]⟩
      | exec k => exact .inr (.inl ⟨hs, hb, ⟨k, rfl⟩, by rw [guarded_running hs hb, hp]⟩)
  · exact .inr (.inr (.inr ⟨hs, guarded_stopped hs _⟩))

/-- The interrupt check enters the pending line's vector or changes nothing (R311). -/
theorem interruptCheck_cases (s : State) :
    (s.pend = true ∧ s.ie = true ∧ s.insvc = false ∧ interruptCheck s = enterInterrupt s.pline s) ∨
      interruptCheck s = s := by
  by_cases h : s.pend = true ∧ s.ie = true ∧ s.insvc = false
  · exact .inl ⟨h.1, h.2.1, h.2.2, if_pos h⟩
  · exact .inr (if_neg h)

@[simp] theorem interruptCheck_imemAt (s : State) (a : Word) : (interruptCheck s).imemAt a = s.imemAt a := by
  rcases interruptCheck_cases s with ⟨-, -, -, h⟩ | h <;> rw [h]
  rfl

@[simp] theorem sampleEvents_imemAt (s : State) (a : Word) : (sampleEvents s).imemAt a = s.imemAt a := by
  simp [State.imemAt]

/-- The word a boundary's tick fetches. -/
theorem fetchIndex_imemAt (s : State) :
    (interruptCheck (sampleEvents s)).imemAt (interruptCheck (sampleEvents s)).pc = s.imemAt s.fetchIndex := by
  simp [State.fetchIndex]

/-- F1 of a fetch tick (R51), at the vector where the tick has entered an interrupt (R315). -/
theorem fetchTick_fault {s : State} (h : s.imemAt s.fetchIndex = none) :
    fetchTick s = raise (.fetchOutOfRange s.fetchIndex) (interruptCheck (sampleEvents s)) := by
  rw [fetchTick, fetchStage, fetchIndex_imemAt, h]
  rfl

/-- The fetch tick of a valid instruction (R122). -/
theorem fetchTick_valid {s : State} {w : Word} {i : Instr} (hw : s.imemAt s.fetchIndex = some w) (hd : decode w = .ok i) :
    fetchTick s = .next { interruptCheck (sampleEvents s) with
      pc := s.fetchIndex + 1, ir := fieldsOf w, phase := .exec 0, t := (interruptCheck (sampleEvents s)).t + 1 } := by
  rw [fetchTick, fetchStage, fetchIndex_imemAt, hw]
  simp only [hd]
  rfl

/-- The fetch tick of an unknown pair (R124). -/
theorem fetchTick_unknown {s : State} {w : Word} {op : BitVec 6} {mode : BitVec 5}
    (hw : s.imemAt s.fetchIndex = some w) (hd : decode w = .error (.unknownPair op mode)) :
    fetchTick s = .next { interruptCheck (sampleEvents s) with
      pc := s.fetchIndex + 1, trace := (interruptCheck (sampleEvents s)).trace ++ [⟨op, mode, s.fetchIndex⟩],
      phase := .fetch, t := (interruptCheck (sampleEvents s)).t + 1 } := by
  rw [fetchTick, fetchStage, fetchIndex_imemAt, hw]
  simp only [hd]
  rfl

/-- A fetch tick that goes on latched a valid instruction, or skipped an unknown pair with a warning (R122, R124). -/
theorem fetchTick_next {s u : State} (h : fetchTick s = .next u) :
    ∃ w, s.imemAt s.fetchIndex = some w ∧
      ((∃ i, decode w = .ok i ∧ u = { interruptCheck (sampleEvents s) with
          pc := s.fetchIndex + 1, ir := fieldsOf w, phase := .exec 0,
          t := (interruptCheck (sampleEvents s)).t + 1 }) ∨
        (∃ op mode, decode w = .error (.unknownPair op mode) ∧ u = { interruptCheck (sampleEvents s) with
          pc := s.fetchIndex + 1,
          trace := (interruptCheck (sampleEvents s)).trace ++ [⟨op, mode, s.fetchIndex⟩],
          phase := .fetch, t := (interruptCheck (sampleEvents s)).t + 1 })) := by
  obtain ⟨v, hv, h⟩ := andThen_eq_next h
  cases h
  rw [fetchStage, fetchIndex_imemAt] at hv
  cases hw : s.imemAt s.fetchIndex with
  | none =>
    rw [hw] at hv
    exact absurd hv (raise_ne_next _ _ _)
  | some w =>
    rw [hw] at hv
    refine ⟨w, rfl, ?_⟩
    simp only at hv
    split at hv
    · next i hd =>
      cases hv
      exact .inl ⟨i, hd, rfl⟩
    · next op mode hd =>
      cases hv
      exact .inr ⟨op, mode, hd, rfl⟩

/-- A relation kept by the fetch tick, by every instruction and by the end of the budget is kept by every step. -/
theorem step_rel (R : State → State → Prop) (refl : ∀ s, R s s) (trans : ∀ s u t, R s u → R u t → R s t)
    (budget : ∀ s, R s { s with status := .budget }) (fetch : ∀ s u, fetchTick s = .next u → R s u)
    (instr : ∀ i s u, exec i s = .next u → R s u) {s t : State} (h : step s = .next t) : R s t := by
  have rest : ∀ u, resume u = .next t → R u t := by
    intro u h
    unfold resume at h
    split at h
    · cases h
      exact refl _
    · split at h
      · exact instr _ _ _ h
      · cases h
  rcases step_cases s with ⟨-, -, -, e⟩ | ⟨-, -, -, e⟩ | ⟨-, -, e⟩ | ⟨-, e⟩ <;> rw [e] at h
  · obtain ⟨u, hu, h⟩ := andThen_eq_next h
    exact trans _ _ _ (fetch _ _ hu) (rest _ h)
  · exact rest _ h
  · cases h
    exact budget s
  · cases h
    exact refl s

end Sys2Proof.Machine
end

