-- ==== Sys2Proof/Laws/Transfer.lean ====
section
/-! SUPPORT. What the shared stages of a 4-byte access do, each tick and all four together (spec/41_data_transfer.md
R162, R166). -/

namespace Sys2Proof.Machine

@[simp] theorem sampleEvents_reg (s : State) (r : Reg) : (sampleEvents s).reg r = s.reg r := by simp [State.reg]

/-- A word inside the image reads the same after the sampling of events. -/
theorem imemAt_sampled {s : State} {w : Word} (h : s.imemAt s.pc = some w) :
    (sampleEvents s).imemAt (sampleEvents s).pc = some w := by simpa [State.imemAt] using h

/-- The state a stage starts from, with `pc` written in two ways. -/
theorem sampleEvents_withPc (s : State) : { sampleEvents s with pc := s.pc } = sampleEvents s := by
  simp [sampleEvents_eq]

/-! ### Loads -/

/-- Stage 0 of a load inside data memory (R162). -/
theorem loadFirst_inside {s : State} {addr pc' : Word} (hr : addr.toNat + 4 ≤ s.dmemSize) :
    loadFirst addr { sampleEvents s with pc := pc' } =
      .next { sampleEvents s with pc := pc', s0 := addr, s1 := zext (s.byteAt addr.toNat) } := by
  simp [loadFirst, withData_inside, hr, State.byteAt]

/-- Stage 0 of a load outside it (R60). -/
theorem loadFirst_outside {s : State} {addr pc' : Word} (hr : s.dmemSize < addr.toNat + 4) :
    loadFirst addr { sampleEvents s with pc := pc' } =
      raise (.dataOutOfRange addr 4) { sampleEvents s with pc := pc' } :=
  withData_outside (by simpa using hr) _

/-- The four ticks of LD: the word in the destination, S0 and S1 as its stages leave them. -/
theorem runStages_load {st : Stage} {s : State} {rd : Reg} {addr pc' : Word} (h : Runs 4 s)
    (hr : addr.toNat + 4 ≤ s.dmemSize)
    (h0 : st (sampleEvents s) = loadFirst addr { sampleEvents s with pc := pc' }) :
    runStages [st, loadNext 1, loadNext 2, loadLast rd] s =
      .next { (passTicks 4 s).setReg rd (Memory.readWord s.dmem addr.toNat) with
        pc := pc', s0 := addr, s1 := Memory.readWord s.dmem addr.toNat, phase := .fetch } := by
  obtain ⟨⟨h1, h2⟩, h3⟩ := h
  have b0 : s.t ≠ s.budget := by omega
  have b1 : s.t + 1 ≠ s.budget := by omega
  have b2 : s.t + 1 + 1 ≠ s.budget := by omega
  have b3 : s.t + 1 + 1 + 1 ≠ s.budget := by omega
  rw [runStages_start h2, runFrom_next h1 b0 (h0.trans (loadFirst_inside hr))]
  simp [runFrom, guarded, execTick, completeStage, loadNext, loadLast, State.gathered, State.byteAt, State.setReg, h1,
    b1, b2, b3, passTicks, gathered_eq_readWord, sampleEvents_eq]

/-! ### Stores -/

/-- Data memory after the first `k` bytes of the word `v` are written from `a` on. -/
def bytesWritten (m : Memory) (a : Nat) (v : Word) : Nat → Memory
  | 0 => m
  | k + 1 => Memory.write (bytesWritten m a v k) (a + k) (byteOf k v)

theorem bytesWritten_wf {m : Memory} {a : Nat} {v : Word} (h : Memory.wf m = true) :
    ∀ k, Memory.wf (bytesWritten m a v k) = true
  | 0 => h
  | k + 1 => Memory.write_wf (bytesWritten_wf h k) _ _

theorem read_bytesWritten {m : Memory} {a : Nat} {v : Word} (h : Memory.wf m = true) :
    ∀ k j, j < k → Memory.read (bytesWritten m a v k) (a + j) = byteOf j v
  | k + 1, j, hj => by
    rcases Nat.lt_succ_iff_lt_or_eq.1 hj with hlt | rfl
    · rw [bytesWritten, Memory.read_write_other _ _ (by omega), read_bytesWritten h k j hlt]
    · exact Memory.read_write_same (bytesWritten_wf h j) _ _

theorem read_bytesWritten_other {m : Memory} {a : Nat} {v : Word} :
    ∀ k b, b < a ∨ a + k ≤ b → Memory.read (bytesWritten m a v k) b = Memory.read m b
  | 0, _, _ => rfl
  | k + 1, b, hb => by
    rw [bytesWritten, Memory.read_write_other _ _ (by omega), read_bytesWritten_other k b (by omega)]

/-- Stage 0 of a store inside data memory (R166). -/
theorem storeFirst_inside {s : State} {addr v pc' : Word} (hr : addr.toNat + 4 ≤ s.dmemSize) :
    storeFirst addr v { sampleEvents s with pc := pc' } =
      .next { sampleEvents s with
        pc := pc', s0 := addr, s1 := v, dmem := bytesWritten s.dmem addr.toNat v 1 } := by
  simp [storeFirst, withData_inside, hr, State.setByte, bytesWritten]

/-- Stage 0 of a store outside it (R60). -/
theorem storeFirst_outside {s : State} {addr v pc' : Word} (hr : s.dmemSize < addr.toNat + 4) :
    storeFirst addr v { sampleEvents s with pc := pc' } =
      raise (.dataOutOfRange addr 4) { sampleEvents s with pc := pc' } :=
  withData_outside (by simpa using hr) _

/-- The four ticks of ST. -/
theorem runStages_store {st : Stage} {s : State} {addr v pc' : Word} (h : Runs 4 s)
    (hr : addr.toNat + 4 ≤ s.dmemSize)
    (h0 : st (sampleEvents s) = storeFirst addr v { sampleEvents s with pc := pc' }) :
    runStages [st, storeNext 1, storeNext 2, storeNext 3] s =
      .next { passTicks 4 s with
        dmem := bytesWritten s.dmem addr.toNat v 4, pc := pc', s0 := addr, s1 := v, phase := .fetch } := by
  obtain ⟨⟨h1, h2⟩, h3⟩ := h
  have b0 : s.t ≠ s.budget := by omega
  have b1 : s.t + 1 ≠ s.budget := by omega
  have b2 : s.t + 1 + 1 ≠ s.budget := by omega
  have b3 : s.t + 1 + 1 + 1 ≠ s.budget := by omega
  rw [runStages_start h2, runFrom_next h1 b0 (h0.trans (storeFirst_inside hr))]
  simp [runFrom, guarded, execTick, completeStage, storeNext, State.setByte, h1, b1, b2, b3, passTicks,
    sampleEvents_eq, bytesWritten]

end Sys2Proof.Machine
end

