-- ==== Sys2Proof/Tests/Slice0.lean ====
section
/-! SUPPORT. Tests: the checks refuse what they must; every constructor's word, written out from the encoding of
spec/30_encoding.md R80 and R90 (op, mode, rd, rs1, rs2, reserved), decodes to it; one step of each instruction with
the expected result of spec/95_test_vectors.md or of the rule named; and for every obligation with hypotheses a
concrete state that meets them. -/

namespace Sys2Proof.Tests

open Sys2Proof Sys2Proof.Machine

/-! ### The checks of WellFormed refuse (R83, R86, R261, R307) -/

theorem test_encoder_input_bounds : RawFields.wf ⟨63, 31, 15, 15, 15⟩ = true ∧ RawFields.wf ⟨64, 0, 0, 0, 0⟩ = false ∧
    RawFields.wf ⟨0, 32, 0, 0, 0⟩ = false ∧ RawFields.wf ⟨0, 0, 16, 0, 0⟩ = false ∧
    RawFields.wf ⟨0, 0, 0, 16, 0⟩ = false ∧ RawFields.wf ⟨0, 0, 0, 0, 16⟩ = false := by decide

theorem test_no_encoding_out_of_range : encodeRaw ⟨64, 0, 0, 0, 0⟩ = none ∧ encodeRaw ⟨0, 0, 0, 0, 16⟩ = none := by
  decide

theorem test_pair_valid : pairValid 0x07 2 = true ∧ pairValid 0x00 1 = false ∧ pairValid 0x03 1 = false ∧
    pairValid 0x0C 2 = false ∧ pairValid 0x1B 0 = false ∧ pairValid 0x3F 31 = false := by decide

theorem test_schedule_line : scheduleWf [⟨5, 1, 3⟩] = true ∧ scheduleWf [⟨5, 2, 3⟩] = false := by decide

theorem test_schedule_tick : scheduleWf [⟨5, 0, 3⟩, ⟨6, 0, 3⟩] = true ∧ scheduleWf [⟨5, 0, 3⟩, ⟨5, 1, 3⟩] = false := by
  decide

/-- Run parameters a machine can be built from: one NOP, two data bytes, one event. -/
def goodRun : RunInput := ⟨[0, 0, 0, 0], [5, 6], [⟨2, 1, 0x1FF⟩], 50, false, 2, some 3, some 4⟩

theorem test_run_input : goodRun.wf = true ∧ RunInput.wf { goodRun with instrImage := [0, 0, 0] } = false ∧
    RunInput.wf { goodRun with dmemSize := 1 } = false ∧ RunInput.wf { goodRun with dmemSize := 2 ^ 32 + 1 } = false ∧
    RunInput.wf { goodRun with schedule := [⟨0, 2, 0⟩] } = false ∧ RunInput.wf { goodRun with vec0 := none } = false ∧
    RunInput.wf { goodRun with vec1 := none } = false := by decide

theorem test_boot_refuses : boot { goodRun with instrImage := [0, 0, 0] } = .refused .raggedImage ∧
    boot { goodRun with dmemSize := 1 } = .refused .dataImageTooLong ∧
    boot { goodRun with dmemSize := 2 ^ 32 + 1 } = .refused .dataMemoryTooLarge ∧
    boot { goodRun with schedule := [⟨0, 2, 0⟩] } = .refused .illFormedSchedule ∧
    boot { goodRun with vec0 := none } = .refused .missingVector ∧
    boot { goodRun with vec1 := none } = .refused .missingVector := ⟨rfl, rfl, rfl, rfl, rfl, rfl⟩

/-- R345: the byte at the lowest address is the low byte of the word. -/
theorem test_image_words : wordsOfImage [0x44, 0x33, 0x22, 0x11, 0, 0, 0, 4] = some [0x11223344, 0x04000000] := by decide

/-! ### Decoding, bit by bit: op, mode, rd, rs1, rs2, reserved. Unlisted fields and reserved bits are set (R93). -/

theorem test_decode_nop : decode 0b000000_00000_1111_1111_1111_111111111#32 = .ok .nop := by decide

theorem test_decode_halt : decode 0b000001_00000_0101_0101_0101_010101010#32 = .ok .halt := by decide

theorem test_decode_movReg : decode 0b000010_00001_0010_1110_1111_111111111#32 = .ok (.movReg 2 14) := by decide

theorem test_decode_movImm : decode 0b000010_00010_1000_0101_0101_010101010#32 = .ok (.movImm 8) := by decide

theorem test_decode_ldAbs : decode 0b000011_00011_0011_1111_1111_111111111#32 = .ok (.ldAbs 3) := by decide

theorem test_decode_ldInd : decode 0b000011_00100_1111_0001_0101_010101010#32 = .ok (.ldInd 15 1) := by decide

theorem test_decode_ldbAbs : decode 0b000100_00011_0010_1111_1111_111111111#32 = .ok (.ldbAbs 2) := by decide

theorem test_decode_ldbInd : decode 0b000100_00100_1000_1011_0101_010101010#32 = .ok (.ldbInd 8 11) := by decide

theorem test_decode_stAbs : decode 0b000101_00011_1111_0111_1111_111111111#32 = .ok (.stAbs 7) := by decide

theorem test_decode_stInd : decode 0b000101_00100_0101_0001_1001_010101010#32 = .ok (.stInd 1 9) := by decide

theorem test_decode_stbAbs : decode 0b000110_00011_1111_1110_1111_111111111#32 = .ok (.stbAbs 14) := by decide

theorem test_decode_stbInd : decode 0b000110_00100_0101_1011_0100_010101010#32 = .ok (.stbInd 11 4) := by decide

theorem test_decode_addReg : decode 0b000111_00001_0011_0111_1100_111111111#32 = .ok (.addReg 3 7 12) := by decide

theorem test_decode_addImm : decode 0b000111_00010_1111_0001_0101_010101010#32 = .ok (.addImm 15 1) := by decide

theorem test_decode_subReg : decode 0b001000_00001_0010_1110_0101_111111111#32 = .ok (.subReg 2 14 5) := by decide

theorem test_decode_subImm : decode 0b001000_00010_1000_1011_0101_010101010#32 = .ok (.subImm 8 11) := by decide

theorem test_decode_mulReg : decode 0b001001_00001_0011_0111_1100_111111111#32 = .ok (.mulReg 3 7 12) := by decide

theorem test_decode_mulImm : decode 0b001001_00010_1111_0001_0101_010101010#32 = .ok (.mulImm 15 1) := by decide

theorem test_decode_divReg : decode 0b001010_00001_0010_1110_0101_111111111#32 = .ok (.divReg 2 14 5) := by decide

theorem test_decode_divImm : decode 0b001010_00010_1000_1011_0101_010101010#32 = .ok (.divImm 8 11) := by decide

theorem test_decode_cmpReg : decode 0b001011_00001_1111_0111_1100_111111111#32 = .ok (.cmpReg 7 12) := by decide

theorem test_decode_cmpImm : decode 0b001011_00010_0101_0001_0101_010101010#32 = .ok (.cmpImm 1) := by decide

theorem test_decode_jmp : decode 0b001100_00011_1111_1111_1111_111111111#32 = .ok .jmp := by decide

theorem test_decode_je : decode 0b001101_00011_0101_0101_0101_010101010#32 = .ok .je := by decide

theorem test_decode_jne : decode 0b001110_00011_1111_1111_1111_111111111#32 = .ok .jne := by decide

theorem test_decode_jl : decode 0b001111_00011_0101_0101_0101_010101010#32 = .ok .jl := by decide

theorem test_decode_jle : decode 0b010000_00011_1111_1111_1111_111111111#32 = .ok .jle := by decide

theorem test_decode_jg : decode 0b010001_00011_0101_0101_0101_010101010#32 = .ok .jg := by decide

theorem test_decode_jge : decode 0b010010_00011_1111_1111_1111_111111111#32 = .ok .jge := by decide

theorem test_decode_push : decode 0b010011_00001_0101_0001_0101_010101010#32 = .ok (.push 1) := by decide

theorem test_decode_pop : decode 0b010100_00001_0010_1111_1111_111111111#32 = .ok (.pop 2) := by decide

theorem test_decode_inPort : decode 0b010101_00101_1000_0101_0101_010101010#32 = .ok (.inPort 8) := by decide

theorem test_decode_outPort : decode 0b010110_00101_1111_0111_1111_111111111#32 = .ok (.outPort 7) := by decide

theorem test_decode_outlPort : decode 0b010111_00101_0101_0001_0101_010101010#32 = .ok (.outlPort 1) := by decide

theorem test_decode_ei : decode 0b011000_00000_1111_1111_1111_111111111#32 = .ok .ei := by decide

theorem test_decode_di : decode 0b011001_00000_0101_0101_0101_010101010#32 = .ok .di := by decide

theorem test_decode_iret : decode 0b011010_00000_1111_1111_1111_111111111#32 = .ok .iret := by decide

/-- The D-ENC rows that name no instruction (R94). -/
theorem test_decode_unknown : decode 0x6C000000 = .error (.unknownPair 0x1B 0) ∧
    decode 0x00C00000 = .error (.unknownPair 0 6) ∧ decode 0x00200000 = .error (.unknownPair 0 1) ∧
    decode 0x0C200000 = .error (.unknownPair 3 1) ∧ decode 0x30400000 = .error (.unknownPair 0x0C 2) ∧
    decode 0xFFFFFFFF = .error (.unknownPair 0x3F 31) := by decide

/-- The encoder vectors of D-ENC (R83, R84). -/
theorem test_encode : encode (.addReg 1 2 3) = 0x1C224600 ∧ encode (.movImm 15) = 0x085E0000 ∧
    encode (.push 15) = 0x4C21E000 ∧ encode (.pop 15) = 0x503E0000 ∧ encode (.stInd 1 2) = 0x14802400 ∧
    encode (.inPort 3) = 0x54A60000 := by decide

/-! ### One step of each instruction -/

/-- A fresh machine with these words, 16 bytes of data memory and both vectors given. -/
def loaded (words : List Word) : State :=
  { State.reset with imem := words, dmemSize := 16, budget := 100, vec0 := 4, vec1 := 7 }

/-- A field of the state a step leaves for observation. -/
def seen {α : Type} (f : State → α) (o : Result) : Option α := (finalState o).map f

/-- The bytes vector M1 leaves in data memory. -/
def bytesM1 : Memory := [(3, 0x44), (4, 0x33), (5, 0x22), (6, 0x11)]

/-- R127, R360. -/
theorem test_nop : seen (fun s => (s.pc, s.t, s.phase)) (step (loaded [0])) = some (1, 2, .fetch) := by decide

/-- R128. -/
theorem test_halt : seen (fun s => (s.status, s.t)) (step (loaded [0x04000000])) = some (.halted, 2) := by decide

/-- R160. -/
theorem test_movReg : seen (fun s => (s.reg 3, s.reg 1)) (step ((loaded [0x08262000]).setReg 1 0x80000001)) =
    some (0x80000001, 0x80000001) := by decide

/-- Program M1, word 0: all 32 bits of the immediate (R92). -/
theorem test_movImm : seen (fun s => (s.reg 1, s.pc)) (step (loaded [0x08420000, 0x11223344])) =
    some (0x11223344, 2) := by decide

/-- Program M1, word 6: little-endian, misaligned. -/
theorem test_ldAbs : seen (fun s => (s.reg 3, s.t)) (step { loaded [0x0C660000, 2] with dmem := bytesM1 }) =
    some (0x22334400, 5) := by decide

/-- R163: the address register is also the destination. -/
theorem test_ldInd : seen (fun s => s.reg 4) (step ({ loaded [0x0C888000] with dmem := bytesM1 }.setReg 4 3)) =
    some 0x11223344 := by decide

/-- Program M1, word 4. -/
theorem test_ldbAbs : seen (fun s => s.reg 2) (step { loaded [0x10640000, 3] with dmem := bytesM1 }) = some 0x44 := by
  decide

/-- R165, D28: no sign extension. -/
theorem test_ldbInd : seen (fun s => s.reg 2) (step ({ loaded [0x10848000] with dmem := [(3, 0xF4)] }.setReg 4 3)) =
    some 0xF4 := by decide

/-- Program M1, word 2. -/
theorem test_stAbs : seen (fun s => s.dmem) (step ((loaded [0x14602000, 3]).setReg 1 0x11223344)) = some bytesM1 := by
  decide

/-- Program M2, words 2 and 4: the last word in range, and one byte past it with nothing written. -/
theorem test_stAbs_edge :
    seen (fun s => (s.dmem, s.status)) (step ({ loaded [0x14602000, 4] with dmemSize := 8 }.setReg 1 0xFFFFFFFF)) =
      some ([(4, 0xFF), (5, 0xFF), (6, 0xFF), (7, 0xFF)], .running) ∧
    seen (fun s => (s.dmem, s.status)) (step ({ loaded [0x14602000, 5] with dmemSize := 8 }.setReg 1 0xFFFFFFFF)) =
      some ([], .fault (.dataOutOfRange 5 4)) := by decide

/-- R167. -/
theorem test_stInd : seen (fun s => s.dmem) (step (((loaded [0x14802400]).setReg 1 0x11223344).setReg 2 3)) =
    some bytesM1 := by decide

/-- R168: only the low byte. -/
theorem test_stbAbs : seen (fun s => s.dmem) (step ((loaded [0x18602000, 15]).setReg 1 0x1FE)) = some [(15, 0xFE)] := by
  decide

/-- R169, R60: one byte past the end. -/
theorem test_stbInd : seen (fun s => (s.dmem, s.status)) (step (((loaded [0x18802400]).setReg 1 0x1FE).setReg 2 16)) =
    some ([], .fault (.dataOutOfRange 16 1)) := by decide

/-- Vector S1. -/
theorem test_addReg : seen (fun s => (s.reg 3, s.flags))
    (step (((loaded [0x1C262400]).setReg 1 0x7FFFFFFF).setReg 2 1)) =
    some (0x80000000, ⟨true, false, true, false⟩) := by decide

/-- D-ALU, ADD row 3. -/
theorem test_addImm : seen (fun s => (s.reg 3, s.flags)) (step ((loaded [0x1C462000, 0x80000000]).setReg 1 0x80000000)) =
    some (0, ⟨false, true, true, true⟩) := by decide

/-- Aliasing vector D40. -/
theorem test_addReg_alias : seen (fun s => s.reg 1) (step ((loaded [0x1C222200]).setReg 1 5)) = some 10 := by decide

/-- Vector S2. -/
theorem test_subReg : seen (fun s => (s.reg 3, s.flags)) (step (((loaded [0x20262400]).setReg 1 3).setReg 2 7)) =
    some (0xFFFFFFFC, ⟨true, false, false, false⟩) := by decide

/-- D-ALU, SUB row 4. -/
theorem test_subImm : seen (fun s => (s.reg 3, s.flags)) (step ((loaded [0x20462000, 1]).setReg 1 0x80000000)) =
    some (0x7FFFFFFF, ⟨false, false, true, true⟩) := by decide

/-- D-ALU, MUL row 2. -/
theorem test_mulReg : seen (fun s => (s.reg 3, s.flags))
    (step (((loaded [0x24262400]).setReg 1 0x10000).setReg 2 0x10000)) = some (0, ⟨false, true, true, false⟩) := by
  decide

/-- D-ALU, MUL row 4. -/
theorem test_mulImm : seen (fun s => (s.reg 3, s.flags)) (step ((loaded [0x24462000, 0xFFFFFFFF]).setReg 1 0x80000000)) =
    some (0x80000000, ⟨true, false, true, false⟩) := by decide

/-- Vector S3. -/
theorem test_divReg_zero : seen (fun s => (s.reg 3, s.flags))
    (step (((loaded [0x28262400]).setReg 1 9).setReg 3 0x55)) = some (0x55, ⟨false, false, true, false⟩) := by decide

/-- D-ALU, DIV row 3: toward zero. -/
theorem test_divReg : seen (fun s => (s.reg 3, s.flags))
    (step (((loaded [0x28262400]).setReg 1 0xFFFFFFF9).setReg 2 2)) =
    some (0xFFFFFFFD, ⟨true, false, false, false⟩) := by decide

/-- D-ALU, DIV row 6. -/
theorem test_divImm : seen (fun s => (s.reg 3, s.flags)) (step ((loaded [0x28462000, 0xFFFFFFFF]).setReg 1 0x80000000)) =
    some (0x80000000, ⟨true, false, false, false⟩) := by decide

/-- D-ALU, CMP row 5. -/
theorem test_cmpReg : seen (fun s => (s.reg 0, s.flags))
    (step (((loaded [0x2C202400]).setReg 1 0x80000000).setReg 2 1)) = some (0, ⟨false, false, true, true⟩) := by decide

/-- D-ALU, CMP row 3. -/
theorem test_cmpImm : seen (fun s => (s.reg 0, s.flags)) (step ((loaded [0x2C402000, 1]).setReg 1 0xFFFFFFFF)) =
    some (0, ⟨true, false, false, true⟩) := by decide

/-- Where a jump to word 9 leads in the five flag states of table D-JMP: 0101, 1000, 0001, 1010, 0011. -/
def jumpsTo (w : Word) : List (Option Word) :=
  [⟨false, true, false, true⟩, ⟨true, false, false, false⟩, ⟨false, false, false, true⟩, ⟨true, false, true, false⟩,
    ⟨false, false, true, true⟩].map fun f => seen (fun s => s.pc) (step { loaded [w, 9] with flags := f })

/-- Table D-JMP, a column each. -/
theorem test_jmp : jumpsTo 0x30600000 = [some 9, some 9, some 9, some 9, some 9] := by decide

theorem test_je : jumpsTo 0x34600000 = [some 9, some 2, some 2, some 2, some 2] := by decide

theorem test_jne : jumpsTo 0x38600000 = [some 2, some 9, some 9, some 9, some 9] := by decide

theorem test_jl : jumpsTo 0x3C600000 = [some 2, some 9, some 2, some 2, some 9] := by decide

theorem test_jle : jumpsTo 0x40600000 = [some 9, some 9, some 2, some 2, some 9] := by decide

theorem test_jg : jumpsTo 0x44600000 = [some 2, some 2, some 9, some 9, some 2] := by decide

theorem test_jge : jumpsTo 0x48600000 = [some 9, some 2, some 9, some 9, some 2] := by decide

/-- Program M4, word 2. -/
theorem test_push : seen (fun s => (s.reg 15, s.dmem)) (step ((loaded [0x4C21E000]).setReg 15 0x10)) =
    some (0x0C, [(12, 0x10)]) := by decide

/-- Program M3. -/
theorem test_push_wraps : seen (fun s => (s.status, s.t, s.pc, s.reg 15)) (step { loaded [0x4C202000] with dmemSize := 8 }) =
    some (.fault (.dataOutOfRange 0xFFFFFFFC 4), 1, 1, 0) := by decide

/-- Program M4, word 3. -/
theorem test_pop_r15 : seen (fun s => s.reg 15)
    (step ({ loaded [0x503E0000] with dmem := [(12, 0x10)] }.setReg 15 0x0C)) = some 0x10 := by decide

/-- R172. -/
theorem test_pop : seen (fun s => (s.reg 1, s.reg 15, s.dmem))
    (step ({ loaded [0x50220000] with dmem := bytesM1 }.setReg 15 3)) = some (0x11223344, 7, bytesM1) := by decide

/-- Vector IO1, words 1 and 2: the event of IN's own tick, its low byte alone (D19). -/
theorem test_inPort : seen (fun s => (s.reg 1, s.pend, s.pline))
    (step { loaded [0x54A20000, 0] with sched := [(1, ⟨.line0, 0x1FF⟩)] }) = some (0xFF, true, .line0) := by decide

/-- Vector IO1, word 3: a port no event reaches. -/
theorem test_inPort_seven : seen (fun s => s.reg 2)
    (step { loaded [0x54A40000, 7] with sched := [(1, ⟨.line0, 0x1FF⟩)] }) = some 0 := by decide

/-- Vector IO1, word 7. -/
theorem test_outPort : seen (fun s => s.outbuf) (step ((loaded [0x58A06000, 7]).setReg 3 0x141)) =
    some [(7, [0x41])] := by decide

/-- The OUTL vector of D-IO. -/
theorem test_outlPort : seen (fun s => (s.outbuf, s.t)) (step ((loaded [0x5CA08000, 2]).setReg 4 0x12345678)) =
    some ([(2, [0x78, 0x34])], 3) := by decide

/-- R240. -/
theorem test_ei : seen (fun s => s.ie) (step (loaded [0x60000000])) = some true := by decide

/-- R242: a pending request stays. -/
theorem test_di : seen (fun s => (s.ie, s.pend)) (step { loaded [0x64000000] with pend := true, insvc := true, ie := true }) =
    some (false, true) := by decide

/-- Vector I5. -/
theorem test_iret_outside : seen (fun s => (s.status, s.t, s.pc)) (step (loaded [0x68000000])) =
    some (.fault .iretNotInService, 1, 1) := by decide

/-- Vector I1, ticks 4 and 5: line 1 is entered at `pc = 2`, IRET is fetched at the vector and leads back. -/
theorem test_iret : seen (fun s => (s.pc, s.insvc, s.pend, s.snap.pc, s.t))
    (step { loaded [0, 0x60000000, 0x04000000, 0x68000000] with
      pc := 2, ie := true, pend := true, pline := .line1, vec1 := 3, t := 4 }) =
    some (2, false, false, 2, 6) := by decide

/-! ### The engine -/

/-- Vector F1. -/
theorem test_fetch_past_image : seen (fun s => (s.status, s.pc, s.t)) (step { loaded [0] with pc := 1, t := 2 }) =
    some (.fault (.fetchOutOfRange 1), 1, 2) := by decide

/-- Vector F3. -/
theorem test_missing_extension : seen (fun s => (s.status, s.pc, s.t)) (step (loaded [0x30600000])) =
    some (.fault (.fetchOutOfRange 1), 1, 1) := by decide

/-- R124. -/
theorem test_unknown_pair : seen (fun s => (s.pc, s.t, s.trace, s.phase)) (step (loaded [0x00C00000])) =
    some (1, 1, [⟨0, 6, 0⟩], .fetch) := by decide

/-- Vector B1: the budget falls inside ST. -/
theorem test_budget_inside_store : seen (fun s => (s.status, s.t, s.dmem))
    (step ({ loaded [0, 0, 0x14602000, 0] with pc := 2, t := 2, budget := 5 }.setReg 1 0xAABBCCDD)) =
    some (.budget, 5, [(0, 0xDD), (1, 0xCC)]) := by decide

/-! ### Witnesses: for every obligation with hypotheses, a state and operands that meet them -/

/-- A machine before stage 0, with the extension words 4 and 9, two bytes in data memory, and a stack at 8. -/
def ready : State :=
  (({ State.reset with imem := [4, 9], dmem := [(0, 7), (5, 6)], dmemSize := 8, budget := 100, phase := .exec 0 }.setReg
    1 5).setReg 2 4).setReg 15 8

/-- The same with a budget of exactly `n` ticks. -/
def readyFor (n : Nat) : State := { ready with budget := n }

/-- A request of line 1, sampled in the fetch tick itself, with a NOP at the vector. -/
def requested : State := { loaded [0] with ie := true, vec1 := 0, sched := [(0, ⟨.line1, 3⟩)] }

theorem readyFor_runs (n : Nat) : Runs n (readyFor n) := ⟨⟨rfl, rfl⟩, Nat.le_of_eq (Nat.zero_add n)⟩

theorem readyFor_runsOnly (n : Nat) : RunsOnly n (readyFor n) := ⟨⟨rfl, rfl⟩, Nat.zero_add n⟩

theorem witness_EncoderAndDecoderAreInverse :
    RawFields.wf ⟨63, 31, 15, 15, 15⟩ = true ∧ RawFields.wf ⟨63, 31, 15, 15, 16⟩ = false := by decide

theorem witness_StepRunsTheDecodedInstruction :
    ((loaded [0x1C224600]).status = .running ∧ (loaded [0x1C224600]).t ≠ (loaded [0x1C224600]).budget ∧
      (loaded [0x1C224600]).phase = .fetch ∧
      (loaded [0x1C224600]).imemAt (loaded [0x1C224600]).fetchIndex = some 0x1C224600 ∧
      decode 0x1C224600 = .ok (.addReg 1 2 3)) ∧
    (ready.status = .running ∧ ready.t ≠ ready.budget ∧ ready.phase = .exec 0 ∧ lookup ready.ir = .ok .nop) := by
  decide

/-- The same pair with other operands, and a word whose operands are read where the map lists them. -/
theorem witness_EncodingsAreTheListedWords :
    decode 0x0C888000 = .ok (.ldInd 4 4) ∧ (0x0C888000 : Word) &&& 0xFFE00000#32 = BitVec.ofNat 32 0x0C800000 ∧
      decode 0x14802400 = .ok (.stInd 1 2) ∧ listedFields (.stInd 1 2) = [(.rs1, 1), (.rs2, 2)] := by
  decide

/-- Two words of one row, and two of one unknown pair, that differ in every bit the lookup does not read. -/
theorem witness_UnknownPairsAreRejectedByName :
    (0x14800000 : Word) &&& 0xFFE00000#32 = 0x149FFFFF &&& 0xFFE00000#32 ∧ decode 0x14800000 = .ok (.stInd 0 0) ∧
      (0x00C00000 : Word) &&& 0xFFE00000#32 = 0x00DFFFFF &&& 0xFFE00000#32 ∧
      decode 0x00C00000 = .error (.unknownPair 0 6) := by
  decide

theorem witness_UnknownPairIsSkipped :
    (loaded [0x00C00000]).status = .running ∧ (loaded [0x00C00000]).t ≠ (loaded [0x00C00000]).budget ∧
      (loaded [0x00C00000]).phase = .fetch ∧
      (loaded [0x00C00000]).imemAt (loaded [0x00C00000]).fetchIndex = some 0x00C00000 ∧
      decode 0x00C00000 = .error (.unknownPair 0 6) := by decide

/-- The same with the vector past the image. -/
def pastVector : State := { requested with vec1 := 1 }

/-- An empty image; an event entered at a vector past the image; an extension word past the image. -/
theorem witness_ReadsPastTheImageFault :
    ((loaded []).status = .running ∧ (loaded []).t ≠ (loaded []).budget ∧ (loaded []).phase = .fetch ∧
      (loaded []).imem.length ≤ (loaded []).fetchIndex.toNat) ∧
    (pastVector.status = .running ∧ pastVector.t ≠ pastVector.budget ∧ pastVector.phase = .fetch ∧
      pastVector.fetchIndex = 1 ∧ pastVector.imem.length ≤ pastVector.fetchIndex.toNat) ∧
    ((Instr.movImm 1).extWords = 1 ∧ Runs 1 { readyFor 1 with pc := 2 } ∧
      { readyFor 1 with pc := 2 }.imem.length ≤ { readyFor 1 with pc := 2 }.pc.toNat) :=
  ⟨by decide, by decide, rfl, readyFor_runs 1, by decide⟩

theorem witness_StoppedMachineRunsNoTick : { ready with status := .halted }.status ≠ .running := by decide

theorem witness_BudgetEndsTheRun : (readyFor 0).status = .running ∧ (readyFor 0).t = (readyFor 0).budget := by decide

theorem witness_InstructionOccupiesItsTicks :
    (loaded [0]).status = .running ∧ (loaded [0]).phase = .fetch ∧
      (loaded [0]).imemAt (loaded [0]).fetchIndex = some 0 ∧ decode 0 = .ok .nop ∧
      (∃ t, step (loaded [0]) = .next t ∧ t.status = .running) ∧ decode 0x04000000 = .ok .halt ∧
      ∃ t, step (loaded [0x04000000]) = .next t ∧ t.status = .halted :=
  ⟨rfl, rfl, rfl, rfl, ⟨_, rfl, rfl⟩, rfl, ⟨_, rfl, rfl⟩⟩

theorem witness_FaultsArePrecise :
    (∃ f, exec .iret ready = .fault f ∧ f.final.pc = ready.pc) ∧
      ∃ f, exec (.ldAbs 1) { ready with dmemSize := 7 } = .fault f ∧ f.final.pc = ready.pc + 1 :=
  ⟨⟨_, rfl, rfl⟩, ⟨_, rfl, rfl⟩⟩

theorem witness_FreshMachineHoldsTheResetValues : ∃ s, boot goodRun = .next s ∧ s.imem[0]? = some 0 := ⟨_, rfl, rfl⟩

theorem witness_BootIsWellFormed : ∃ s, boot goodRun = .next s := ⟨_, rfl⟩

/-- A machine in the middle of a load of the last word of data memory. -/
def midLoad : State := { ready with phase := .exec 1, ir := fieldsOf 0x0C888000, s0 := 4 }

theorem midLoad_inv : midLoad.Inv where
  dmemWf := rfl
  dmemInside := by decide
  dmemSizeMax := by decide
  imemShort := by decide
  latchWf := rfl
  latchPorts := by decide
  outbufWf := rfl
  schedAhead := rfl
  stageLegal k h := by
    cases h
    exact ⟨.ldInd 4 4, rfl, by decide⟩
  accessInside _ _ _ _ _ := by decide
  inBudget := by decide
  notFaulted r h := by cases (show Status.running = .fault r from h)

theorem witness_StepKeepsWellFormed : midLoad.Inv ∧ ∃ t, step midLoad = .next t := ⟨midLoad_inv, _, rfl⟩

theorem witness_WellFormedStepIsNeverRefused : midLoad.Inv := midLoad_inv

theorem witness_NopOnlyAdvancesTime : Runs 1 (readyFor 1) := readyFor_runs 1

theorem witness_HaltStopsTheRun : Runs 1 (readyFor 1) := readyFor_runs 1

/-- A machine before a jump to word 4, with the flags of an equality, of a less and of a greater. -/
def flagged (n z v : Bool) : State := { readyFor 1 with flags := ⟨n, z, v, false⟩ }

theorem flagged_runs (n z v : Bool) : Runs 1 (flagged n z v) ∧ (flagged n z v).imemAt (flagged n z v).pc = some 4 :=
  ⟨readyFor_runs 1, rfl⟩

theorem witness_JumpsFollowTheirConditions :
    Runs 1 (flagged true false false) ∧
      (flagged true false false).imemAt (flagged true false false).pc = some 4 ∧
      false = (flagged true false false).flags.z ∧ true = (!(flagged true false false).flags.z) ∧
      true = ((flagged true false false).flags.n != (flagged true false false).flags.v) ∧
      true = ((flagged false true false).flags.z || (flagged false true false).flags.n != (flagged false true false).flags.v) ∧
      true = (!(flagged true false true).flags.z && (flagged true false true).flags.n == (flagged true false true).flags.v) ∧
      false = ((flagged false false true).flags.n == (flagged false false true).flags.v) :=
  ⟨(flagged_runs _ _ _).1, by decide⟩

/-- CMP of registers 1 and 2 (5 and 4), or of 5 and the word 9, with a jump fetched next. -/
def comparing (words : List Word) : State := { ready with imem := words }

/-- A comparison has been run, and the next step fetches the jump `j` with its target 9, no interrupt entered. -/
def JumpNext (j : Instr) (w : Word) (t : State) : Prop :=
  t.t + 2 ≤ t.budget ∧ interruptCheck (sampleEvents t) = sampleEvents t ∧ t.imemAt t.pc = some w ∧ decode w = .ok j ∧
    t.imemAt (t.pc + 1) = some 9

theorem witness_CompareThenJumpDecidesTheOrder_reg :
    Runs 1 (comparing [0x48600000, 9]) ∧ (4 : Word) = (comparing [0x48600000, 9]).reg 2 ∧
      (∃ t, exec (.cmpReg 1 2) (comparing [0x34600000, 9]) = .next t ∧ JumpNext .je 0x34600000 t) ∧
      (∃ t, exec (.cmpReg 1 2) (comparing [0x44600000, 9]) = .next t ∧ JumpNext .jg 0x44600000 t) ∧
      (∃ t, exec (.cmpReg 1 2) (comparing [0x48600000, 9]) = .next t ∧ JumpNext .jge 0x48600000 t) :=
  ⟨⟨⟨rfl, rfl⟩, by decide⟩, by decide, ⟨_, rfl, by decide, rfl, rfl, rfl, rfl⟩, ⟨_, rfl, by decide, rfl, rfl, rfl, rfl⟩,
    ⟨_, rfl, by decide, rfl, rfl, rfl, rfl⟩⟩

theorem witness_CompareThenJumpDecidesTheOrder_imm :
    Runs 1 (comparing [9, 0x3C600000, 9]) ∧ (comparing [9, 0x3C600000, 9]).imemAt 0 = some 9 ∧
      (∃ t, exec (.cmpImm 1) (comparing [9, 0x38600000, 9]) = .next t ∧ JumpNext .jne 0x38600000 t) ∧
      (∃ t, exec (.cmpImm 1) (comparing [9, 0x3C600000, 9]) = .next t ∧ JumpNext .jl 0x3C600000 t) ∧
      (∃ t, exec (.cmpImm 1) (comparing [9, 0x40600000, 9]) = .next t ∧ JumpNext .jle 0x40600000 t) :=
  ⟨⟨⟨rfl, rfl⟩, by decide⟩, by decide, ⟨_, rfl, by decide, rfl, rfl, rfl, rfl⟩, ⟨_, rfl, by decide, rfl, rfl, rfl, rfl⟩,
    ⟨_, rfl, by decide, rfl, rfl, rfl, rfl⟩⟩

theorem witness_MovWritesItsDestination : Runs 1 (readyFor 1) ∧ (readyFor 1).imemAt (readyFor 1).pc = some 4 :=
  ⟨readyFor_runs 1, rfl⟩

/-- Both addressing forms reach the last word (4) of 8 bytes. With 7 bytes the same access is out of range. -/
theorem witness_LoadWordGathersFourBytes :
    ((readyFor 4).imemAt (readyFor 4).pc = some 4 ∧ (readyFor 4).reg 2 = 4) ∧ Runs 4 (readyFor 4) ∧
      (4 : Word).toNat + 4 ≤ (readyFor 4).dmemSize ∧
      Runs 1 { readyFor 1 with dmemSize := 7 } ∧ { readyFor 1 with dmemSize := 7 }.dmemSize < (4 : Word).toNat + 4 ∧
      RunsOnly 0 (readyFor 0) ∧ RunsOnly 1 (readyFor 1) ∧ RunsOnly 2 (readyFor 2) ∧ RunsOnly 3 (readyFor 3) :=
  ⟨by decide, readyFor_runs 4, by decide, readyFor_runs 1, by decide, readyFor_runsOnly 0, readyFor_runsOnly 1,
    readyFor_runsOnly 2, readyFor_runsOnly 3⟩

/-- The last byte (7) and the first address past it, in both forms. -/
theorem witness_LoadByteZeroExtends :
    Runs 1 (readyFor 1) ∧ (4 : Word).toNat + 1 ≤ (readyFor 1).dmemSize ∧
      ({ readyFor 1 with imem := [7] }.imemAt 0 = some 7 ∧ (7 : Word).toNat + 1 ≤ (readyFor 1).dmemSize) ∧
      ({ readyFor 1 with imem := [8] }.imemAt 0 = some 8 ∧ (readyFor 1).dmemSize < (8 : Word).toNat + 1) ∧
      (((readyFor 1).setReg 2 7).reg 2 = 7 ∧ (readyFor 1).reg 15 = 8) :=
  ⟨readyFor_runs 1, by decide⟩

theorem witness_StoreWordWritesFourBytes :
    Memory.wf (readyFor 4).dmem = true ∧ ((readyFor 4).imemAt (readyFor 4).pc = some 4 ∧ (readyFor 4).reg 2 = 4) ∧
      Runs 4 (readyFor 4) ∧ (4 : Word).toNat + 4 ≤ (readyFor 4).dmemSize ∧
      Runs 1 { readyFor 1 with dmemSize := 7 } ∧ { readyFor 1 with dmemSize := 7 }.dmemSize < (4 : Word).toNat + 4 ∧
      RunsOnly 0 (readyFor 0) ∧ RunsOnly 1 (readyFor 1) ∧ RunsOnly 2 (readyFor 2) ∧ RunsOnly 3 (readyFor 3) :=
  ⟨rfl, by decide, readyFor_runs 4, by decide, readyFor_runs 1, by decide, readyFor_runsOnly 0, readyFor_runsOnly 1,
    readyFor_runsOnly 2, readyFor_runsOnly 3⟩

theorem witness_StoreByteWritesTheLowByte :
    Runs 1 (readyFor 1) ∧ Memory.wf (readyFor 1).dmem = true ∧
      ({ readyFor 1 with imem := [7] }.imemAt 0 = some 7 ∧ (7 : Word).toNat + 1 ≤ (readyFor 1).dmemSize) ∧
      ({ readyFor 1 with imem := [8] }.imemAt 0 = some 8 ∧ (readyFor 1).dmemSize < (8 : Word).toNat + 1) ∧
      (((readyFor 1).setReg 2 7).reg 2 = 7 ∧ (readyFor 1).reg 15 = 8) :=
  ⟨readyFor_runs 1, by decide⟩

theorem witness_PushStoresBelowTheStackPointer :
    Memory.wf (readyFor 4).dmem = true ∧ Runs 4 (readyFor 4) ∧
      (readyFor 4).pushAddr.toNat + 4 ≤ (readyFor 4).dmemSize ∧
      Runs 1 ((readyFor 1).setReg 15 0) ∧
      ((readyFor 1).setReg 15 0).dmemSize < ((readyFor 1).setReg 15 0).pushAddr.toNat + 4 ∧
      (((readyFor 1).setReg 15 3).reg 15).toNat < 4 ∧ (readyFor 1).dmemSize < 2 ^ 32 ∧
      RunsOnly 0 (readyFor 0) ∧ RunsOnly 3 (readyFor 3) ∧ (readyFor 3).pushAddr.toNat + 4 ≤ (readyFor 3).dmemSize :=
  ⟨rfl, readyFor_runs 4, by decide, readyFor_runs 1, by decide, by decide, by decide, readyFor_runsOnly 0,
    readyFor_runsOnly 3, by decide⟩

theorem witness_PopLoadsFromTheStackPointer :
    Runs 4 ((readyFor 4).setReg 15 4) ∧ (((readyFor 4).setReg 15 4).reg 15).toNat + 4 ≤ (readyFor 4).dmemSize ∧
      Runs 1 ((readyFor 1).setReg 15 5) ∧ (readyFor 1).dmemSize < (((readyFor 1).setReg 15 5).reg 15).toNat + 4 ∧
      RunsOnly 0 (readyFor 0) ∧ RunsOnly 3 ((readyFor 3).setReg 15 4) ∧
      (((readyFor 3).setReg 15 4).reg 15).toNat + 4 ≤ (readyFor 3).dmemSize :=
  ⟨readyFor_runs 4, by decide, readyFor_runs 1, by decide, readyFor_runsOnly 0, readyFor_runsOnly 3, by decide⟩

/-- PUSH R1 with `POP R2`, or `POP R15`, fetched next. -/
theorem witness_PopUndoesPush :
    Memory.wf ready.dmem = true ∧ Runs 4 (comparing [0x50240000]) ∧ ready.pushAddr.toNat + 4 ≤ ready.dmemSize ∧
      decode 0x50240000 = .ok (.pop 2) ∧ decode 0x503E0000 = .ok (.pop 15) ∧
      ∃ t, exec (.push 1) (comparing [0x50240000]) = .next t ∧ t.t + 5 ≤ t.budget ∧
        interruptCheck (sampleEvents t) = sampleEvents t ∧ t.imemAt t.pc = some 0x50240000 :=
  ⟨rfl, ⟨⟨rfl, rfl⟩, by decide⟩, by decide, by decide, by decide, _, rfl, by decide, rfl, rfl⟩

/-- The word at 4 is the last of 8 bytes: its first byte (4, the extension word and R2) and its last (7) by both forms. -/
theorem witness_ByteAndWordAccessesAgree :
    (4 : Word).toNat + 4 ≤ ready.dmemSize ∧ Runs 4 ready ∧ Runs 1 ready ∧ ready.imemAt ready.pc = some 4 ∧
      4 = ready.reg 2 ∧ (7 : Word).toNat = (4 : Word).toNat + 3 ∧ (comparing [7]).imemAt 0 = some 7 ∧
      (ready.setReg 3 7).reg 3 = 7 ∧ SameMemory ready (comparing [7]) ∧ SameMemory ready (ready.setReg 3 7) :=
  ⟨by decide, ⟨⟨rfl, rfl⟩, by decide⟩, ⟨⟨rfl, rfl⟩, by decide⟩, by decide, by decide, by decide, by decide, by decide,
    fun _ => rfl, fun _ => rfl⟩

/-- ST at 4 and LDB at 4 or 7; STB at 4 or 7 and LD at 4. -/
theorem witness_ByteAndWordAccessesAgree_stores :
    Memory.wf ready.dmem = true ∧
      (∃ t, exec (.stInd 1 2) ready = .next t ∧ SameMemory t { comparing [7] with dmem := t.dmem }) ∧
      (∃ t, exec (.stAbs 1) ready = .next t ∧ SameMemory t { ready with dmem := t.dmem }) ∧
      (∃ u, exec (.stbInd 1 2) ready = .next u ∧ SameMemory u { ready with dmem := u.dmem }) ∧
      ∃ u, exec (.stbAbs 1) (comparing [7]) = .next u ∧ SameMemory u { ready with dmem := u.dmem } :=
  ⟨rfl, ⟨_, rfl, fun _ => rfl⟩, ⟨_, rfl, fun _ => rfl⟩, ⟨_, rfl, fun _ => rfl⟩, _, rfl, fun _ => rfl⟩

/-- Both operand modes of the ALU: registers 1 and 2, or register 1 and the extension word. -/
theorem witness_AddWritesTheSumAndFlags :
    Runs 1 (readyFor 1) ∧ (4 : Word) = (readyFor 1).reg 2 ∧ (readyFor 1).imemAt (readyFor 1).pc = some 4 :=
  ⟨readyFor_runs 1, by decide⟩

theorem witness_SubWritesTheDifferenceAndFlags :
    Runs 1 (readyFor 1) ∧ (4 : Word) = (readyFor 1).reg 2 ∧ (readyFor 1).imemAt (readyFor 1).pc = some 4 :=
  ⟨readyFor_runs 1, by decide⟩

theorem witness_MulWritesTheLowProductAndFlags :
    Runs 1 (readyFor 1) ∧ (4 : Word) = (readyFor 1).reg 2 ∧ (readyFor 1).imemAt (readyFor 1).pc = some 4 :=
  ⟨readyFor_runs 1, by decide⟩

/-- An ordinary quotient, the one that overflows, and a divisor of 0 in both operand modes. -/
theorem witness_DivFollowsItsDefinition :
    Runs 1 (readyFor 1) ∧ (4 : Word) ≠ 0 ∧ (4 : Word) = (readyFor 1).reg 2 ∧
      (readyFor 1).imemAt (readyFor 1).pc = some 4 ∧ ¬((readyFor 1).reg 1 = 0x80000000 ∧ (4 : Word) = 0xFFFFFFFF) ∧
      Runs 1 (((readyFor 1).setReg 1 0x80000000).setReg 2 0xFFFFFFFF) ∧
      (((readyFor 1).setReg 1 0x80000000).setReg 2 0xFFFFFFFF).reg 1 = 0x80000000 ∧
      (((readyFor 1).setReg 1 0x80000000).setReg 2 0xFFFFFFFF).reg 2 = 0xFFFFFFFF ∧
      (readyFor 1).reg 3 = 0 ∧ Runs 1 { readyFor 1 with imem := [0] } ∧
      { readyFor 1 with imem := [0] }.imemAt 0 = some 0 :=
  ⟨readyFor_runs 1, by decide, by decide, by decide, by decide, readyFor_runs 1, by decide, by decide, by decide,
    readyFor_runs 1, by decide⟩

theorem witness_CmpWritesOnlySubFlags :
    Runs 1 (readyFor 1) ∧ (4 : Word) = (readyFor 1).reg 2 ∧ (readyFor 1).imemAt (readyFor 1).pc = some 4 :=
  ⟨readyFor_runs 1, by decide⟩

/-- No event; an event of this tick on the port read; a port no event can reach. -/
theorem witness_InReadsTheLatch :
    Runs 1 (readyFor 1) ∧ (readyFor 1).imemAt (readyFor 1).pc = some 4 ∧
      tableFind (readyFor 1).sched (readyFor 1).t = none ∧
      (Runs 1 { readyFor 1 with imem := [1], sched := [(0, ⟨.line1, 0x1FF⟩)] } ∧
        { readyFor 1 with imem := [1], sched := [(0, ⟨.line1, 0x1FF⟩)] }.imemAt 0 = some 1 ∧
        tableWf 0#8 (readyFor 1).latch = true ∧
        tableFind [(0, (⟨.line1, 0x1FF⟩ : Event))] 0 = some ⟨.line1, 0x1FF⟩ ∧
        (1 : Word).toNat = linePort .line1) ∧
      (midLoad.Inv ∧ Runs 1 { midLoad with phase := .exec 0, imem := [2] } ∧ 2 ≤ (2 : Word).toNat) :=
  ⟨readyFor_runs 1, rfl, rfl, ⟨readyFor_runs 1, by decide⟩, midLoad_inv, ⟨⟨rfl, rfl⟩, by decide⟩, by decide⟩

theorem witness_OutAppendsTheLowByte :
    Runs 1 { readyFor 1 with outbuf := [(4, [9])] } ∧
      { readyFor 1 with outbuf := [(4, [9])] }.imemAt 0 = some 4 ∧ tableWf [] [(4, [(9 : Byte)])] = true :=
  ⟨readyFor_runs 1, by decide⟩

theorem witness_OutlAppendsTwoBytes :
    (readyFor 2).imemAt (readyFor 2).pc = some 4 ∧ tableWf [] (readyFor 2).outbuf = true ∧ Runs 2 (readyFor 2) ∧
      RunsOnly 1 (readyFor 1) :=
  ⟨rfl, rfl, readyFor_runs 2, readyFor_runsOnly 1⟩

theorem witness_EventSamplingLatchesAndRequests :
    tableFind ready.sched ready.t = none ∧
      tableFind { ready with sched := [(0, ⟨.line1, -1⟩)] }.sched 0 = some ⟨.line1, -1⟩ ∧
      tableWf 0#8 ready.latch = true := by decide

/-- A NOP with an event in its fetch tick, one in its stage tick and one after it; IRET faulting in the tick of an event,
which was sampled first (R120); and an event entered at a vector past the image (R315). -/
theorem witness_EventsFireOnceInTheirOwnTick :
    (∃ t, step { loaded [0] with sched := [(0, ⟨.line0, 1⟩), (1, ⟨.line1, 2⟩), (2, ⟨.line0, 3⟩)] } = .next t ∧
      t.sched = [(2, ⟨.line0, 3⟩)] ∧ t.latch = [(0, 1), (1, 2)]) ∧
    (∃ f, step { loaded [0x68000000] with sched := [(1, ⟨.line1, 2⟩), (2, ⟨.line0, 3⟩)] } = .fault f ∧
      f.final.t = 1 ∧ f.final.sched = [(2, ⟨.line0, 3⟩)] ∧ f.final.latch = [(1, 2)]) ∧
    ∃ f, step { loaded [0] with ie := true, vec0 := 9, sched := [(0, ⟨.line0, 1⟩)] } = .fault f ∧
      f.final.t = 0 ∧ f.final.insvc = true ∧ f.final.pc = 9 ∧ f.final.sched = [] ∧ f.final.latch = [(0, 1)] :=
  ⟨⟨_, rfl, rfl, rfl⟩, ⟨_, rfl, rfl, rfl, rfl⟩, _, rfl, rfl, rfl, rfl, rfl, rfl⟩

theorem witness_OutputBuffersOnlyGrow :
    tableWf [] (loaded [0x58A06000, 7]).outbuf = true ∧ ∃ t, step (loaded [0x58A06000, 7]) = .next t := ⟨rfl, _, rfl⟩

theorem witness_EiAndDiWriteOnlyTheEnable : Runs 1 (readyFor 1) := readyFor_runs 1

/-- A request pending before EI, and one held by DI. -/
theorem witness_EiAndDiActAtTheNextBoundary :
    Runs 1 { readyFor 2 with pend := true } ∧ { readyFor 2 with pend := true }.insvc = false ∧
      (∃ t, exec .ei { readyFor 2 with pend := true } = .next t ∧ (sampleEvents t).pend = true) ∧
      ∃ t, exec .di { readyFor 2 with pend := true } = .next t :=
  ⟨⟨⟨rfl, rfl⟩, by decide⟩, rfl, ⟨_, rfl, rfl⟩, ⟨_, rfl⟩⟩

theorem witness_IretRestoresTheSnapshot :
    Runs 1 { readyFor 1 with insvc := true } ∧ { readyFor 1 with insvc := true }.insvc = true :=
  ⟨readyFor_runs 1, rfl⟩

theorem witness_IretOutsideAHandlerFaults : Runs 1 (readyFor 1) ∧ (readyFor 1).insvc = false := ⟨readyFor_runs 1, rfl⟩

/-- A request on each line that is taken, and one that is not. -/
theorem witness_BoundaryCheckEntersTheVector :
    ({ ready with pend := true, ie := true }.pend = true ∧ { ready with pend := true, ie := true }.ie = true ∧
      { ready with pend := true, ie := true }.insvc = false ∧ ready.pline = .line0 ∧
      { ready with pline := .line1 }.pline = .line1) ∧
      ¬(ready.pend = true ∧ ready.ie = true ∧ ready.insvc = false) := by decide

theorem witness_BoundaryCheckEntersTheVector_fetch :
    requested.status = .running ∧ requested.t ≠ requested.budget ∧ requested.phase = .fetch ∧
      (sampleEvents requested).pend = true ∧ requested.ie = true ∧ requested.insvc = false ∧
      requested.imemAt ((sampleEvents requested).vector (sampleEvents requested).pline) = some 0 ∧
      decode 0 = .ok .nop := by decide

theorem witness_HandlerReturnsToTheInterruptedProgram :
    (sampleEvents { ready with pend := true, ie := true }).pend = true ∧
      Runs 1 { readyFor 1 with
        insvc := true, snap := (interruptCheck (sampleEvents { ready with pend := true, ie := true })).snap } :=
  ⟨rfl, readyFor_runs 1⟩

/-- A handler's IRET: INSVC is 1 before the step and 0 after it. -/
theorem witness_InterruptsDoNotNest :
    { loaded [0x68000000] with insvc := true }.insvc = true ∧
      ∃ t, step { loaded [0x68000000] with insvc := true } = .next t ∧ t.insvc = false := ⟨rfl, _, rfl, rfl⟩

theorem witness_OnlyAluAndIretWriteFlags : ∃ t, exec (.subReg 3 1 1) ready = .next t ∧ t.flags ≠ ready.flags :=
  ⟨_, rfl, by decide⟩

theorem witness_OnlyTheirInstructionsWriteInterruptControl :
    (∃ t, exec .ei ready = .next t ∧ t.ie ≠ ready.ie) ∧
      ∃ t, exec .iret { ready with insvc := true } = .next t ∧ t.insvc ≠ true :=
  ⟨⟨_, rfl, by decide⟩, ⟨_, rfl, by decide⟩⟩

theorem witness_InstructionMemoryIsNeverWritten : ∃ t, step (loaded [0x14602000, 3]) = .next t := ⟨_, rfl⟩

/-- A boundary whose step goes on, one whose step faults, and a stopped machine, each beside one that differs in every
hidden register. -/
theorem witness_ScratchRegistersAreHidden :
    (loaded [0x0C888000]).phase = .fetch ∧
      SameButScratch (loaded [0x0C888000]) { loaded [0x0C888000] with s0 := 1, s1 := 2, irPort := 3, ir := fieldsOf 4 } ∧
      (∃ t, step (loaded [0x0C888000]) = .next t) ∧
      (∃ u, step (loaded [0x68000000]) = .fault (faultOf .iretNotInService u)) ∧
      { midLoad with status := .halted }.status ≠ .running :=
  ⟨rfl, ⟨1, 2, 3, fieldsOf 4, rfl⟩, ⟨_, rfl⟩, ⟨_, rfl⟩, by decide⟩

end Sys2Proof.Tests
end

section
/-! PROOFS. What `boot` answers when it answers a machine, and the values that machine holds. -/

namespace Sys2Proof.Machine

/-- A machine that boot answers is the fresh machine of accepted input. -/
theorem boot_next_inv {r : RunInput} {s : State} (h : boot r = .next s) :
    ∃ ws v0 v1, wordsOfImage r.instrImage = some ws ∧ ws.length < 2 ^ 32 ∧ r.dataImage.length ≤ r.dmemSize ∧
      r.dmemSize ≤ 2 ^ 32 ∧ scheduleWf r.schedule = true ∧ r.vec0 = some v0 ∧ r.vec1 = some v1 ∧
      s = freshMachine ws r v0 v1 := by
  obtain ⟨ws, v0, v1, hws, hlen, hdata, hsize, hsched, hv0, hv1, hb⟩ | ⟨-, x, hb⟩ := boot_cases r
  · rw [hb] at h
    injection h with hs
    exact ⟨ws, v0, v1, hws, hlen, hdata, hsize, hsched, hv0, hv1, hs.symm⟩
  · rw [hb] at h
    cases h

/-- R345: an image's word as the sum of its bytes by place value. -/
theorem wordOfBytes_toNat (b0 b1 b2 b3 : Byte) : (wordOfBytes b0 b1 b2 b3).toNat =
    b0.toNat + b1.toNat * 2 ^ 8 + b2.toNat * 2 ^ 16 + b3.toNat * 2 ^ 24 := by
  have h0 := b0.isLt
  have h1 := b1.isLt
  have h2 := b2.isLt
  simp only [wordOfBytes, BitVec.toNat_append]
  rw [← Nat.shiftLeft_add_eq_or_of_lt h2, ← Nat.shiftLeft_add_eq_or_of_lt h1, ← Nat.shiftLeft_add_eq_or_of_lt h0]
  simp only [Nat.shiftLeft_eq]
  omega

/-- An image that has words has a length that is a multiple of 4 (R307). -/
theorem length_mod_of_wordsOfImage {l : List Byte} {ws : List Word} (h : wordsOfImage l = some ws) :
    l.length % 4 = 0 := by
  by_contra hl
  rw [wordsOfImage_none l hl] at h
  cases h

/-- The words of an image: how many there are, and the value of each (R345). -/
theorem wordsOfImage_spec {l : List Byte} {ws : List Word} (h : wordsOfImage l = some ws) :
    4 * ws.length = l.length ∧ ∀ (k : Nat) (w : Word), ws[k]? = some w → w.toNat =
      (l.getD (4 * k) 0).toNat + (l.getD (4 * k + 1) 0).toNat * 2 ^ 8 +
      (l.getD (4 * k + 2) 0).toNat * 2 ^ 16 + (l.getD (4 * k + 3) 0).toNat * 2 ^ 24 := by
  obtain ⟨ws', hws', hlen, hword⟩ := wordsOfImage_some l (length_mod_of_wordsOfImage h)
  obtain rfl : ws' = ws := Option.some.inj (hws'.symm.trans h)
  exact ⟨hlen, fun k w hk => by rw [hword k w hk, wordOfBytes_toNat]⟩

section
variable (ws : List Word) (r : RunInput) (v0 v1 : Word)

/-- Every register is 0 in a fresh machine (R34). -/
@[simp] theorem freshMachine_reg (q : Reg) : (freshMachine ws r v0 v1).reg q = 0 :=
  Vector.getElem_replicate q.isLt

/-- Every register of SNAP is 0 in a fresh machine (R34). -/
@[simp] theorem freshMachine_snap_reg (q : Reg) : (freshMachine ws r v0 v1).snap.regs[q.val] = 0 :=
  Vector.getElem_replicate q.isLt

/-- R53: the data image byte for byte, and 0x00 past its end. -/
@[simp] theorem freshMachine_byteAt (a : Nat) : (freshMachine ws r v0 v1).byteAt a = r.dataImage.getD a 0 := by
  have h := Memory.read_ofBytes 0 r.dataImage a
  rw [Nat.zero_add] at h
  exact h

end

/-- Settles O18: boot answers only the fresh machine of the input, whose images are read by `wordsOfImage_spec` and
`freshMachine_byteAt`, whose schedule is read by `tableFind_schedOf`, and whose other fields are those of reset or
given. -/
theorem freshMachineHoldsTheResetValues : Obligations.FreshMachineHoldsTheResetValues := by
  unfold Obligations.FreshMachineHoldsTheResetValues
  intro r s h
  obtain ⟨ws, v0, v1, hws, -, -, -, -, hv0, hv1, rfl⟩ := boot_next_inv h
  obtain ⟨hlen, hwords⟩ := wordsOfImage_spec hws
  have hregs := freshMachine_reg ws r v0 v1
  have hsnap := freshMachine_snap_reg ws r v0 v1
  have hdata := freshMachine_byteAt ws r v0 v1
  have hsched := tableFind_schedOf r.schedule
  exact ⟨hregs, rfl, rfl, rfl, rfl, rfl, rfl, rfl, rfl, rfl, rfl, hsnap, rfl, rfl, rfl, rfl,
    fun _ => rfl, fun _ => rfl, hlen, hwords, hdata, hsched, rfl, rfl, hv0, hv1⟩

end Sys2Proof.Machine
end

section
/-! PROOFS. The loads and stores run to their end, in both address forms, and the bytes they read and write
(spec/20_memory.md R55, R57; spec/41_data_transfer.md R162 to R169). -/

namespace Sys2Proof.Machine

/-! ### The address operand -/

/-- `i` is the ABS form `abs` with the extension word `addr`, or the IND form `ind` with `addr` in the register `r`;
`pc'` is pc past the operand. -/
def AddressForm (abs ind : Instr) (r : Reg) (i : Instr) (s : State) (addr pc' : Word) : Prop :=
  i = abs ∧ s.imemAt s.pc = some addr ∧ pc' = s.pc + 1 ∨ i = ind ∧ addr = s.reg r ∧ pc' = s.pc

/-- An address operand in one of its two forms leaves some pc behind. -/
theorem addressForm_of_operand {abs ind i : Instr} {r : Reg} {s : State} {addr : Word}
    (h : i = abs ∧ s.imemAt s.pc = some addr ∨ i = ind ∧ addr = s.reg r) :
    ∃ pc', AddressForm abs ind r i s addr pc' :=
  h.elim (fun ⟨hi, ha⟩ => ⟨_, .inl ⟨hi, ha, rfl⟩⟩) (fun ⟨hi, ha⟩ => ⟨_, .inr ⟨hi, ha, rfl⟩⟩)

/-- Both forms of an instruction whose first stage reads its address and goes on as `k`: that stage hands `k` the
address, with pc past the operand. -/
theorem AddressForm.firstStage {abs ind i : Instr} {r : Reg} {s : State} {addr pc' : Word} {rest : List Stage}
    (hi : AddressForm abs ind r i s addr pc') (k : State → Word → State → Result)
    (habs : exec abs s = runStages ((fun u => withAbs u (k u)) :: rest) s)
    (hind : exec ind s = runStages ((fun u => withInd r u (k u)) :: rest) s) :
    ∃ st : Stage, exec i s = runStages (st :: rest) s ∧
      st (sampleEvents s) = k (sampleEvents s) addr { sampleEvents s with pc := pc' } := by
  obtain ⟨rfl, hw, rfl⟩ | ⟨rfl, rfl, rfl⟩ := hi
  · refine ⟨_, habs, (withExt_some (imemAt_sampled hw) _).trans ?_⟩
    rw [sampleEvents_pc]
  · refine ⟨_, hind, ?_⟩
    rw [withInd, sampleEvents_reg, sampleEvents_withPc]

/-! ### The four accesses inside data memory -/

section
variable {i : Instr} {s : State} {q r : Reg} {addr pc' : Word}

/-- R162, R163: LD ends four ticks later with the word at its address in the destination. -/
theorem exec_load (hi : AddressForm (.ldAbs q) (.ldInd q r) r i s addr pc') (h : Runs 4 s)
    (hr : addr.toNat + 4 ≤ s.dmemSize) :
    exec i s = .next { (passTicks 4 s).setReg q (Memory.readWord s.dmem addr.toNat) with
      pc := pc', s0 := addr, s1 := Memory.readWord s.dmem addr.toNat, phase := .fetch } := by
  obtain ⟨st, hexec, hst⟩ := hi.firstStage (fun _ => loadFirst) rfl rfl
  rw [hexec, runStages_load h hr hst]

/-- R164, R165: LDB ends one tick later with the zero-extended byte at its address in the destination. -/
theorem exec_loadByte (hi : AddressForm (.ldbAbs q) (.ldbInd q r) r i s addr pc') (h : Runs 1 s)
    (hr : addr.toNat + 1 ≤ s.dmemSize) :
    exec i s = .next { (passTicks 1 s).setReg q (zext (s.byteAt addr.toNat)) with
      pc := pc', phase := .fetch } := by
  obtain ⟨st, hexec, hst⟩ := hi.firstStage (fun _ => loadByte q) rfl rfl
  have hnext : st (sampleEvents s) =
      .next ({ sampleEvents s with pc := pc' }.setReg q (zext (s.byteAt addr.toNat))) := by
    rw [hst, loadByte, withData_inside (by simpa using hr)]
    simp [State.byteAt]
  rw [hexec, runStages_one h hnext (by simpa using h.1.1)]
  simp [passTicks, State.setReg]

/-- R166, R167: ST ends four ticks later with the register's four bytes written from its address on. -/
theorem exec_store (hi : AddressForm (.stAbs q) (.stInd q r) r i s addr pc') (h : Runs 4 s)
    (hr : addr.toNat + 4 ≤ s.dmemSize) :
    exec i s = .next { passTicks 4 s with
      dmem := bytesWritten s.dmem addr.toNat (s.reg q) 4, pc := pc', s0 := addr, s1 := s.reg q, phase := .fetch } := by
  obtain ⟨st, hexec, hst⟩ := hi.firstStage (fun _ a u => storeFirst a (u.reg q) u) rfl rfl
  have hreg : State.reg { sampleEvents s with pc := pc' } q = s.reg q := reg_congr (sampleEvents_regs s) q
  rw [hreg] at hst
  rw [hexec, runStages_store h hr hst]

/-- R168, R169: STB ends one tick later with the register's low byte written at its address. -/
theorem exec_storeByte (hi : AddressForm (.stbAbs q) (.stbInd q r) r i s addr pc') (h : Runs 1 s)
    (hr : addr.toNat + 1 ≤ s.dmemSize) :
    exec i s = .next { passTicks 1 s with
      dmem := Memory.write s.dmem addr.toNat (byteOf 0 (s.reg q)), pc := pc', phase := .fetch } := by
  obtain ⟨st, hexec, hst⟩ := hi.firstStage (fun u => storeByte (u.reg q)) rfl rfl
  have hnext : st (sampleEvents s) =
      .next ({ sampleEvents s with pc := pc' }.setByte addr.toNat (byteOf 0 (s.reg q))) := by
    rw [hst, storeByte, withData_inside (by simpa using hr), sampleEvents_reg]
  rw [hexec, runStages_one h hnext (by simpa using h.1.1)]
  simp [passTicks, State.setByte]

end

/-! ### What the four accesses read and write -/

/-- R57: byte `j` of the word at `a` is the byte at `a + j`. -/
theorem byteOf_readWord (m : Memory) (a : Nat) {j : Nat} (hj : j < 4) :
    byteOf j (Memory.readWord m a) = Memory.read m (a + j) := by
  -- bit by bit: each of the 32 positions falls in one of the four appended bytes
  apply BitVec.eq_of_getLsbD_eq
  intro b hb
  simp only [byteOf, Memory.readWord, BitVec.getLsbD_extractLsb', BitVec.getLsbD_append]
  interval_cases j <;> interval_cases b <;> rfl

section
variable {i : Instr} {s : State} {q r : Reg} {addr : Word}

/-- LD completes with the word at its address in the destination. -/
theorem exec_load_reg (hi : i = .ldAbs q ∧ s.imemAt s.pc = some addr ∨ i = .ldInd q r ∧ addr = s.reg r)
    (h : Runs 4 s) (hr : addr.toNat + 4 ≤ s.dmemSize) :
    ∃ t, exec i s = .next t ∧ t.reg q = Memory.readWord s.dmem addr.toNat := by
  obtain ⟨pc', hi⟩ := addressForm_of_operand hi
  exact ⟨_, exec_load hi h hr, reg_setReg_same _ _ _⟩

/-- LDB completes with the zero-extended byte at its address in the destination. -/
theorem exec_loadByte_reg (hi : i = .ldbAbs q ∧ s.imemAt s.pc = some addr ∨ i = .ldbInd q r ∧ addr = s.reg r)
    (h : Runs 1 s) (hr : addr.toNat + 1 ≤ s.dmemSize) :
    ∃ t, exec i s = .next t ∧ t.reg q = zext (s.byteAt addr.toNat) := by
  obtain ⟨pc', hi⟩ := addressForm_of_operand hi
  exact ⟨_, exec_loadByte hi h hr, reg_setReg_same _ _ _⟩

/-- ST completes with byte `j` of the register at `addr + j`. -/
theorem exec_store_byteAt (hi : i = .stAbs q ∧ s.imemAt s.pc = some addr ∨ i = .stInd q r ∧ addr = s.reg r)
    (h : Runs 4 s) (hr : addr.toNat + 4 ≤ s.dmemSize) (hwf : Memory.wf s.dmem = true) :
    ∃ t, exec i s = .next t ∧ ∀ j < 4, t.byteAt (addr.toNat + j) = byteOf j (s.reg q) := by
  obtain ⟨pc', hi⟩ := addressForm_of_operand hi
  exact ⟨_, exec_store hi h hr, read_bytesWritten hwf 4⟩

/-- STB completes with the register's low byte at its address and every other byte as before. -/
theorem exec_storeByte_byteAt (hi : i = .stbAbs q ∧ s.imemAt s.pc = some addr ∨ i = .stbInd q r ∧ addr = s.reg r)
    (h : Runs 1 s) (hr : addr.toNat + 1 ≤ s.dmemSize) (hwf : Memory.wf s.dmem = true) :
    ∃ t, exec i s = .next t ∧ t.byteAt addr.toNat = byteOf 0 (s.reg q) ∧
      ∀ b, b ≠ addr.toNat → t.byteAt b = s.byteAt b := by
  obtain ⟨pc', hi⟩ := addressForm_of_operand hi
  exact ⟨_, exec_storeByte hi h hr, Memory.read_write_same hwf _ _, fun _ => Memory.read_write_other _ _⟩

end

/-- Settles O35: byte `j` of the word LD gathers is the byte at `a + j` (`byteOf_readWord`), which is the byte LDB loads
and the one ST or STB has written there. -/
theorem byteAndWordAccessesAgree : Obligations.ByteAndWordAccessesAgree := by
  unfold Obligations.ByteAndWordAccessesAgree
  intro s s' rd rd' ra rb addr addr' j hj hr hsize haddr
  have hr' : addr'.toNat + 1 ≤ s'.dmemSize := by omega
  refine ⟨?load, ?store, ?storeByte⟩
  case load =>
    intro i i' h h' hmem hi hi'
    obtain ⟨t, ht, hword⟩ := exec_load_reg hi h hr
    obtain ⟨u, hu, hbyte⟩ := exec_loadByte_reg hi' h' hr'
    refine ⟨t, u, ht, hu, hbyte.trans (congrArg zext ?_)⟩
    calc s'.byteAt addr'.toNat = s.byteAt (addr.toNat + j) := by rw [hmem, haddr]
      _ = byteOf j (t.reg rd) := by rw [hword, byteOf_readWord _ _ hj, State.byteAt]
  case store =>
    intro i i' t h hwf hi ht h' hmem hi'
    obtain ⟨t', ht', hstored⟩ := exec_store_byteAt hi h hr hwf
    cases ht'.symm.trans ht
    obtain ⟨u, hu, hbyte⟩ := exec_loadByte_reg hi' h' hr'
    refine ⟨u, hu, hbyte.trans (congrArg zext ?_)⟩
    calc s'.byteAt addr'.toNat = t.byteAt (addr.toNat + j) := by rw [hmem, haddr]
      _ = byteOf j (s.reg rd) := hstored j hj
  case storeByte =>
    intro i i' u h' hwf hi' hu h hmem hi
    obtain ⟨u', hu', hstored, hother⟩ := exec_storeByte_byteAt hi' h' hr' hwf
    cases hu'.symm.trans hu
    obtain ⟨t, ht, hword⟩ := exec_load_reg hi h hr
    refine ⟨t, ht, fun k hk => ?_⟩
    have hread : byteOf k (t.reg rd) = u.byteAt (addr.toNat + k) := by
      rw [hword, byteOf_readWord _ _ hk, ← hmem, State.byteAt]
    refine hread.trans ?_
    split
    next hkj => rw [hkj, ← haddr]; exact hstored
    next hkj => exact hother _ (by omega)

end Sys2Proof.Machine
end

section
/-! PROOFS. The decoder and the encoder (spec/30_encoding.md R80 to R94): the five fields of a word and of an encoding,
and what the lookup of a pair can answer. -/

namespace Sys2Proof
open Machine

/-! ### The fields of a word -/

/-- R80, R82: the value of each field of a word. -/
theorem fieldsOf_toNat (w : Word) :
    (fieldsOf w).op.toNat = w.toNat / 2 ^ 26 ∧ (fieldsOf w).mode.toNat = w.toNat / 2 ^ 21 % 32 ∧
      (fieldsOf w).rd.toNat = w.toNat / 2 ^ 17 % 16 ∧ (fieldsOf w).rs1.toNat = w.toNat / 2 ^ 13 % 16 ∧
      (fieldsOf w).rs2.toNat = w.toNat / 2 ^ 9 % 16 := by
  have hw := w.isLt
  have hfield (start len : Nat) : (w.extractLsb' start len).toNat = w.toNat / 2 ^ start % 2 ^ len := by
    rw [BitVec.extractLsb'_toNat, Nat.shiftRight_eq_div_pow]
  exact ⟨(hfield 26 6).trans (Nat.mod_eq_of_lt (by omega)), hfield 21 5, hfield 17 4, hfield 13 4, hfield 9 4⟩

/-- Two records of fields are equal when the values of the five fields are. -/
theorem Fields.eq_of_toNat {f g : Fields} (hop : f.op.toNat = g.op.toNat) (hmode : f.mode.toNat = g.mode.toNat)
    (hrd : f.rd.toNat = g.rd.toNat) (hrs1 : f.rs1.toNat = g.rs1.toNat) (hrs2 : f.rs2.toNat = g.rs2.toNat) : f = g := by
  cases f
  cases g
  simp only [Fields.mk.injEq, BitVec.toNat_eq]
  exact ⟨hop, hmode, hrd, hrs1, hrs2⟩

/-- R85: decoding undoes encoding, field by field. -/
@[simp] theorem fieldsOf_encodeFields (f : Fields) : fieldsOf (encodeFields f) = f := by
  obtain ⟨hop, hmode, hrd, hrs1, hrs2⟩ := fieldsOf_toNat (encodeFields f)
  rw [encodeFields_toNat] at hop hmode hrd hrs1 hrs2
  have := f.op.isLt
  have := f.mode.isLt
  have := f.rd.isLt
  have := f.rs1.isLt
  have := f.rs2.isLt
  apply Fields.eq_of_toNat <;> omega

/-- R85: encoding the fields of a word clears bits 8:0. -/
theorem encodeFields_fieldsOf (w : Word) : encodeFields (fieldsOf w) = w &&& 0xFFFFFE00#32 := by
  have hmask : w &&& 0xFFFFFE00#32 = w >>> 9 <<< 9 := (BitVec.shiftLeft_ushiftRight (n := 9)).symm
  obtain ⟨hop, hmode, hrd, hrs1, hrs2⟩ := fieldsOf_toNat w
  apply BitVec.eq_of_toNat_eq
  rw [hmask, encodeFields_toNat, hop, hmode, hrd, hrs1, hrs2, BitVec.toNat_shiftLeft, BitVec.toNat_ushiftRight,
    Nat.shiftLeft_eq, Nat.shiftRight_eq_div_pow]
  have := w.isLt
  omega

/-- A word with bits 8:0 clear is the encoding of its own fields and of no others. -/
theorem eq_encodeFields_iff {w : Word} (hw : w &&& 0xFFFFFE00#32 = w) (f : Fields) :
    w = encodeFields f ↔ fieldsOf w = f := by
  constructor
  · rintro rfl
    exact fieldsOf_encodeFields f
  · rintro rfl
    rw [encodeFields_fieldsOf, hw]

/-- The fields of a masked word are the masked fields. -/
theorem fieldsOf_and (w m : Word) : fieldsOf (w &&& m) =
    ⟨(fieldsOf w).op &&& (fieldsOf m).op, (fieldsOf w).mode &&& (fieldsOf m).mode, (fieldsOf w).rd &&& (fieldsOf m).rd,
      (fieldsOf w).rs1 &&& (fieldsOf m).rs1, (fieldsOf w).rs2 &&& (fieldsOf m).rs2⟩ := by
  simp only [fieldsOf, BitVec.extractLsb'_and]

/-! ### The fields an instruction's pair lists -/

/-- The pair of an instruction lists the register field `q` (R90, column `fields`). -/
def Instr.lists (i : Instr) (q : RegField) : Bool := (listedFields i).any (fun p => p.1 == q)

/-- The fields `f` with every register field that the pair of `i` does not list cleared. -/
def Instr.keepListed (i : Instr) (f : Fields) : Fields where
  op := f.op
  mode := f.mode
  rd := if i.lists .rd then f.rd else 0
  rs1 := if i.lists .rs1 then f.rs1 else 0
  rs2 := if i.lists .rs2 then f.rs2 else 0

/-- The fields of `i`, with the register fields that its pair does not list taken from `f`. -/
def Instr.fieldsOver (i : Instr) (f : Fields) : Fields where
  op := i.fields.op
  mode := i.fields.mode
  rd := if i.lists .rd then i.fields.rd else f.rd
  rs1 := if i.lists .rs1 then i.fields.rs1 else f.rs1
  rs2 := if i.lists .rs2 then i.fields.rs2 else f.rs2

/-- The mask of an instruction keeps op, mode and the listed register fields, and no other bit. -/
theorem fieldsOf_usedMask (i : Instr) : fieldsOf i.usedMask = i.keepListed
    ⟨.allOnes 6, .allOnes 5, .allOnes 4, .allOnes 4, .allOnes 4⟩ := by
  cases i <;> simp only [Instr.usedMask] <;> rfl

/-- No mask keeps a reserved bit (R80). -/
theorem usedMask_and_clearReserved (i : Instr) : i.usedMask &&& 0xFFFFFE00#32 = i.usedMask := by
  unfold Instr.usedMask
  split <;> rfl

/-- Masking a word to the bits its pair reads clears the fields the pair does not list. -/
theorem fieldsOf_and_usedMask (w : Word) (i : Instr) :
    fieldsOf (w &&& i.usedMask) = i.keepListed (fieldsOf w) := by
  have hreg : ∀ (b : BitVec 4) (p : Bool), (b &&& if p then .allOnes 4 else 0) = if p then b else 0 := by
    intro b p
    cases p
    · exact BitVec.and_zero
    · exact BitVec.and_allOnes
  rw [fieldsOf_and, fieldsOf_usedMask]
  simp only [Instr.keepListed, BitVec.and_allOnes, hreg]

/-! ### What a lookup answers -/

/-- R93: the lookup of an instruction's own pair gives it back, whatever the fields the pair does not list hold. -/
theorem lookup_fieldsOver (i : Instr) (f : Fields) : lookup (i.fieldsOver f) = .ok i := by
  cases i <;> rfl

/-- The lookup answers an instruction whose fields are those read, but for the ones its pair does not list. -/
theorem keepListed_of_lookup {f : Fields} {i : Instr} (h : lookup f = .ok i) : i.keepListed f = i.fields := by
  unfold lookup at h
  split at h
  case h_38 => cases h
  all_goals
    next hop hmode =>
      cases h
      exact Fields.eq_of_toNat hop hmode rfl rfl rfl

/-- Fields that agree with an instruction's in all that its pair lists are its fields over themselves. -/
theorem fieldsOver_of_keepListed {f : Fields} {i : Instr} (h : i.keepListed f = i.fields) : i.fieldsOver f = f := by
  have hself : ∀ (b : BitVec 4) (p : Bool), (if p then if p then b else 0 else b) = b := by
    intro b p
    cases p <;> rfl
  rw [Instr.fieldsOver, ← h]
  simp only [Instr.keepListed, hself]

theorem lookup_eq_ok_iff {f : Fields} {i : Instr} : lookup f = .ok i ↔ i.keepListed f = i.fields :=
  ⟨keepListed_of_lookup, fun h => fieldsOver_of_keepListed h ▸ lookup_fieldsOver i f⟩

/-- R90: the lookup answers an instruction on a row of the opcode map and rejects every other pair by name. -/
theorem lookup_cases (f : Fields) :
    (pairValid f.op.toNat f.mode.toNat = true ∧ ∃ i, lookup f = .ok i) ∨
      (pairValid f.op.toNat f.mode.toNat = false ∧ lookup f = .error (.unknownPair f.op f.mode)) := by
  unfold lookup
  split
  case h_38 =>
    -- the last arm, where the pair is none of the 37: each op lists no mode but those of the arms before
    refine .inr ⟨?_, rfl⟩
    unfold pairValid
    split <;> grind
  all_goals
    next hop hmode =>
      rw [hop, hmode]
      exact .inl ⟨rfl, _, rfl⟩

/-- R86: the pair of an instruction that is answered is the pair read. -/
theorem pair_of_lookup {f : Fields} {i : Instr} (h : lookup f = .ok i) :
    f.op = i.fields.op ∧ f.mode = i.fields.mode := by
  rw [← keepListed_of_lookup h]
  exact ⟨rfl, rfl⟩

/-- R83, R90: the `match` word of a row is the encoding of its pair. -/
theorem listedMatch_eq (i : Instr) : listedMatch i = i.fields.op.toNat * 2 ^ 26 + i.fields.mode.toNat * 2 ^ 21 := by
  cases i <;> simp [listedMatch, Instr.fields]

/-- R80: words that agree in bits 31:21 have the same pair. -/
theorem pair_eq_of_and_eq {w w' : Word} (h : w &&& 0xFFE00000#32 = w' &&& 0xFFE00000#32) :
    (fieldsOf w).op = (fieldsOf w').op ∧ (fieldsOf w).mode = (fieldsOf w').mode := by
  have hmask : fieldsOf 0xFFE00000#32 = ⟨.allOnes 6, .allOnes 5, 0, 0, 0⟩ := rfl
  have hfields := congrArg fieldsOf h
  simp only [fieldsOf_and, hmask, BitVec.and_allOnes, Fields.mk.injEq] at hfields
  obtain ⟨hop, hmode, -⟩ := hfields
  exact ⟨hop, hmode⟩

/-- R86: the lookup answers an instruction exactly on the rows of the opcode map. -/
theorem exists_lookup_iff {f : Fields} : (∃ i, lookup f = .ok i) ↔ pairValid f.op.toNat f.mode.toNat = true := by
  obtain ⟨hrow, hok⟩ | ⟨hrow, herr⟩ := lookup_cases f
  · exact iff_of_true hok hrow
  · simp [hrow, herr]

/-- R86, R94: the lookup rejects exactly the pairs that are no row, each by its own name. -/
theorem lookup_eq_error_iff {f : Fields} {x : DecodeReject} :
    lookup f = .error x ↔ pairValid f.op.toNat f.mode.toNat = false ∧ .unknownPair f.op f.mode = x := by
  obtain ⟨hrow, i, hok⟩ | ⟨hrow, herr⟩ := lookup_cases f
  · simp [hrow, hok]
  · simp [hrow, herr]

/-- R86: two words with the same pair find the same row of the opcode map. -/
theorem lookup_row_of_same_pair {f f' : Fields} {i : Instr} (hop : f.op = f'.op) (hmode : f.mode = f'.mode)
    (h : lookup f = .ok i) : ∃ i', lookup f' = .ok i' ∧ listedMatch i' = listedMatch i := by
  have hrow := exists_lookup_iff.1 ⟨i, h⟩
  rw [hop, hmode] at hrow
  obtain ⟨i', h'⟩ := exists_lookup_iff.2 hrow
  obtain ⟨hiop, himode⟩ := pair_of_lookup h
  obtain ⟨hiop', himode'⟩ := pair_of_lookup h'
  refine ⟨i', h', ?_⟩
  rw [listedMatch_eq, listedMatch_eq, ← hiop, ← himode, ← hiop', ← himode', hop, hmode]

/-! ### The encoder's input -/

/-- R83: what the encoder requires of its five numbers. -/
theorem RawFields.wf_iff {f : RawFields} :
    f.wf = true ↔ f.op < 64 ∧ f.mode < 32 ∧ f.rd < 16 ∧ f.rs1 < 16 ∧ f.rs2 < 16 := by
  simp [RawFields.wf, and_assoc]

/-- R83: five numbers in range have an encoding, the one of fields with these values. -/
theorem encodeRaw_of_wf {f : RawFields} (h : f.wf = true) : ∃ g : Fields, encodeRaw f = some (encodeFields g) ∧
    g.op.toNat = f.op ∧ g.mode.toNat = f.mode ∧ g.rd.toNat = f.rd ∧ g.rs1.toNat = f.rs1 ∧ g.rs2.toNat = f.rs2 := by
  obtain ⟨hop, hmode, hrd, hrs1, hrs2⟩ := RawFields.wf_iff.1 h
  exact ⟨_, if_pos h, Nat.mod_eq_of_lt hop, Nat.mod_eq_of_lt hmode, Nat.mod_eq_of_lt hrd, Nat.mod_eq_of_lt hrs1,
    Nat.mod_eq_of_lt hrs2⟩

/-! ### The obligations -/

/-- Settles O3: the word masked to the bits its pair reads is the encoding of `i` exactly when its listed fields are
those of `i` (`eq_encodeFields_iff`), and these alone decide the lookup (`lookup_eq_ok_iff`). -/
theorem decodeReadsOnlyTheListedBits : Obligations.DecodeReadsOnlyTheListedBits := by
  unfold Obligations.DecodeReadsOnlyTheListedBits
  intro w i
  have hclear : w &&& i.usedMask &&& 0xFFFFFE00#32 = w &&& i.usedMask := by
    rw [BitVec.and_assoc, usedMask_and_clearReserved]
  rw [decode, encode, lookup_eq_ok_iff, eq_encodeFields_iff hclear, fieldsOf_and_usedMask]

/-- Settles O1: numbers in range are the fields of a word (`encodeRaw_of_wf`) with the value `encodeFields_toNat`, and
the two round trips are `fieldsOf_encodeFields` and `encodeFields_fieldsOf`. -/
theorem encoderAndDecoderAreInverse : Obligations.EncoderAndDecoderAreInverse := by
  unfold Obligations.EncoderAndDecoderAreInverse
  refine ⟨?inRange, ?outOfRange, fieldsOf_encodeFields, encodeFields_fieldsOf⟩
  case inRange =>
    intro f hwf
    obtain ⟨g, hg, hop, hmode, hrd, hrs1, hrs2⟩ := encodeRaw_of_wf hwf
    refine ⟨encodeFields g, hg, ?_⟩
    rw [encodeFields_toNat, fieldsOf_encodeFields, hop, hmode, hrd, hrs1, hrs2]
    exact ⟨rfl, rfl, rfl, rfl, rfl, rfl⟩
  case outOfRange =>
    intro f hwf
    exact if_neg (by simp [hwf])

/-- Settles O5: whether a lookup answers is whether its pair is a row (`exists_lookup_iff`, `lookup_eq_error_iff`), and
words that agree in bits 31:21 have the same pair (`pair_eq_of_and_eq`). -/
theorem unknownPairsAreRejectedByName : Obligations.UnknownPairsAreRejectedByName := by
  unfold Obligations.UnknownPairsAreRejectedByName
  refine ⟨?rejected, ?decoded, ?samePair, by decide⟩
  case rejected =>
    intro w
    obtain ⟨hop, hmode, -⟩ := fieldsOf_toNat w
    rw [decode, lookup_eq_error_iff, hop, hmode]
    exact and_iff_left rfl
  case decoded =>
    intro w
    obtain ⟨hop, hmode, -⟩ := fieldsOf_toNat w
    rw [← hop, ← hmode]
    exact exists_lookup_iff
  case samePair =>
    intro w w' h
    obtain ⟨hop, hmode⟩ := pair_eq_of_and_eq h
    refine ⟨fun i hi => lookup_row_of_same_pair hop hmode hi, fun x hx => ?_⟩
    rw [decode, lookup_eq_error_iff] at hx ⊢
    rwa [← hop, ← hmode]

end Sys2Proof
end

section
/-! PROOFS. Control flow of the engine (spec/40_engine.md R122 to R128): the step of an unknown
pair, the frame of an instruction of one stage, and NOP and HALT. -/

namespace Sys2Proof.Machine

/-! ### A step at a boundary -/

/-- At a running boundary with budget left the step is the fetch tick and what it leads to (R120). -/
theorem step_of_fetch {s : State} (hs : s.status = .running) (hb : s.t ≠ s.budget) (hp : s.phase = .fetch) :
    step s = andThen (fetchTick s) resume := by
  rw [step, guarded_running hs hb]
  simp only [hp]

/-- At a boundary no instruction is under way (R124). -/
theorem resume_of_fetch {s : State} (hp : s.phase = .fetch) : resume s = .next s := by
  simp only [resume, hp]

/-- Settles O10: the fetch tick of an unknown pair (`fetchTick_unknown`) ends at the boundary, where nothing is left to
run (`resume_of_fetch`). -/
theorem unknownPairIsSkipped : Obligations.UnknownPairIsSkipped := by
  unfold Obligations.UnknownPairIsSkipped
  intro s w op mode hs hb hp hw hd
  rw [step_of_fetch hs hb hp, fetchTick_unknown hw hd, andThen_next, resume_of_fetch rfl]
  simp [hp]

/-! ### The frame of one stage's tick -/

/-- A stage that changes nothing writes none of what stages must keep. -/
theorem KeptByStage.refl (s : State) : KeptByStage s s := by constructor <;> rfl

section
variable {s u : State} (kept : KeptByStage (sampleEvents s) u)
include kept

/-- The tick of a stage changes the input side and the pending slot by its own sampling alone (R262). -/
theorem KeptByStage.onlyEvents (p : Phase) (n : Nat) : OnlyEvents 1 s { u with phase := p, t := n } :=
  ⟨kept.latch, kept.pend, kept.pline, kept.sched⟩

/-- The tick of a stage writes nothing of what no instruction writes. -/
theorem KeptByStage.neverWritten (p : Phase) (n : Nat) : NeverWritten s { u with phase := p, t := n } := by
  obtain ⟨-, -, hsnap, -, hir, -, -, -, himem, htrace, hsize, hvec0, hvec1, hbudget⟩ := kept
  simp [neverWritten_iff, hsnap, hir, himem, htrace, hsize, hvec0, hvec1, hbudget]

/-- A stage that leaves the machine running completes an instruction of one stage (R123, R125). -/
theorem KeptByStage.completed (hu : u.status = .running) :
    Completed 1 s { u with phase := .fetch, t := u.t + 1 } where
  ticks := by simp [kept.t]
  phase := rfl
  status := hu
  events := kept.onlyEvents _ _
  kept := kept.neverWritten _ _

end

/-! ### A stage that stops the machine -/

/-- A stage that stops the machine is not completed (R123). -/
theorem completeStage_stopped {n k : Nat} {s : State} (h : s.status ≠ .running) : completeStage n k s = s := by
  unfold completeStage
  split
  case h_1 hr => exact absurd hr h
  all_goals rfl

/-- A first stage that stops the machine is the whole of its instruction: its tick counts and no stage follows. -/
theorem runStages_stopped {st : Stage} {rest : List Stage} {s u : State} (h : Runs 1 s)
    (hst : st (sampleEvents s) = .next u) (hu : u.status ≠ .running) :
    runStages (st :: rest) s = .next { u with t := u.t + 1 } := by
  obtain ⟨⟨hs, hp⟩, hb⟩ := h
  rw [runStages_start hp, runFrom_next hs (by omega) hst, completeStage_stopped hu]
  exact runFrom_stopped (s := { u with t := u.t + 1 }) hu _ _

/-! ### NOP and HALT -/

/-- The sampling of a tick, and whatever a stage does to the phase, the status and the clock, touches no register, byte
of data memory, output buffer, control bit or scratch register (R262). -/
theorem sampleEvents_frame (s : State) (p : Phase) (x : Status) (n : Nat) {t : State}
    (ht : t = { sampleEvents s with phase := p, status := x, t := n }) :
    OtherRegs [] s t ∧ SameMemory s t ∧ SameOutput s t ∧ SameControl s t ∧ SameScratch s t := by
  subst ht
  exact ⟨otherRegs_of_regs (sampleEvents_regs s) [], sameMemory_of_dmem (sampleEvents_dmem s),
    sameOutput_of_outbuf (sampleEvents_outbuf s), ⟨sampleEvents_ie s, sampleEvents_insvc s⟩,
    sampleEvents_s0 s, sampleEvents_s1 s, sampleEvents_irPort s⟩

/-- The sampling of a tick leaves a running machine running. -/
theorem Runs.sampled_running {n : Nat} {s : State} (h : Runs n s) : (sampleEvents s).status = .running := by
  obtain ⟨⟨hs, -⟩, -⟩ := h
  rw [sampleEvents_status, hs]

/-- R127: NOP's tick is its sampling and the completion of its stage. -/
theorem exec_nop {s : State} (h : Runs 1 s) :
    exec .nop s = .next { sampleEvents s with phase := .fetch, t := (sampleEvents s).t + 1 } :=
  runStages_one h rfl h.sampled_running

/-- R128: HALT's tick counts, and its stage is not completed, so the phase stays. -/
theorem exec_halt {s : State} (h : Runs 1 s) :
    exec .halt s = .next { sampleEvents s with status := .halted, t := (sampleEvents s).t + 1 } := by
  refine runStages_stopped (u := { sampleEvents s with status := .halted }) h ?stage ?stops
  case stage => rfl
  case stops => simp

/-- Settles O23: bits 31:21 are the ones that NOP's pair reads (`decodeReadsOnlyTheListedBits`), and `exec_nop` is the
whole next state. -/
theorem nopOnlyAdvancesTime : Obligations.NopOnlyAdvancesTime := by
  unfold Obligations.NopOnlyAdvancesTime
  refine ⟨fun w => decodeReadsOnlyTheListedBits w .nop, fun s h => ?_⟩
  have completed := (KeptByStage.refl _).completed h.sampled_running
  obtain ⟨regs, memory, output, control, scratch⟩ :=
    sampleEvents_frame s .fetch (sampleEvents s).status ((sampleEvents s).t + 1) rfl
  exact ⟨_, exec_nop h, ⟨completed, regs, sampleEvents_pc s, memory, output, control, scratch⟩, sampleEvents_flags s⟩

/-- Settles O24: `exec_halt` is the whole next state, and the run loop's guard lets no tick run in it
(`guarded_stopped`). -/
theorem haltStopsTheRun : Obligations.HaltStopsTheRun := by
  unfold Obligations.HaltStopsTheRun
  refine ⟨by decide, fun s h => ?_⟩
  have kept : KeptByStage (sampleEvents s) { sampleEvents s with status := .halted } := by constructor <;> rfl
  obtain ⟨regs, memory, output, control, scratch⟩ :=
    sampleEvents_frame s (sampleEvents s).phase .halted ((sampleEvents s).t + 1) rfl
  exact ⟨_, exec_halt h, rfl, congrArg (· + 1) (sampleEvents_t s), sampleEvents_pc s, sampleEvents_flags s,
    kept.onlyEvents _ _, kept.neverWritten _ _, regs, memory, output, control, scratch, guarded_stopped (by simp) tick⟩

end Sys2Proof.Machine
end

section
/-! PROOFS. The ALU instructions (spec/42_alu.md R200 to R217): the five functions and their flags as arithmetic, and
the one tick of an instruction that reads two operands and writes the flags and at most one register. -/

namespace Sys2Proof.Machine

/-! ### The five functions -/

/-- R201: the result and the flags of ADD. -/
theorem addOp_eq (a b : Word) : addOp a b = (a + b,
    ⟨(a + b).getLsbD 31, decide (a + b = 0),
      a.getLsbD 31 == b.getLsbD 31 && (a + b).getLsbD 31 != a.getLsbD 31,
      decide (a.toNat + b.toNat > 2 ^ 32 - 1)⟩) := rfl

/-- R204: the result and the flags of SUB. -/
theorem subOp_eq (a b : Word) : subOp a b = (a - b,
    ⟨(a - b).getLsbD 31, decide (a - b = 0),
      a.getLsbD 31 != b.getLsbD 31 && (a - b).getLsbD 31 != a.getLsbD 31,
      decide (a.toNat ≥ b.toNat)⟩) := rfl

/-- The signed difference fits in 32 bits and is the result's value; or it is too small or too large, which takes
operands of opposite signs, and the result has the second operand's sign. -/
theorem toInt_sub_cases (a b : Word) :
    -2 ^ 31 ≤ a.toInt - b.toInt ∧ a.toInt - b.toInt ≤ 2 ^ 31 - 1 ∧ (a - b).toInt = a.toInt - b.toInt ∨
      a.toInt - b.toInt < -2 ^ 31 ∧ a.toInt < 0 ∧ 0 ≤ b.toInt ∧ 0 ≤ (a - b).toInt ∨
      a.toInt - b.toInt > 2 ^ 31 - 1 ∧ 0 ≤ a.toInt ∧ b.toInt < 0 ∧ (a - b).toInt < 0 := by
  have := a.le_toInt
  have := a.toInt_lt
  have := b.le_toInt
  have := b.toInt_lt
  rw [BitVec.toInt_sub, Int.bmod_def]
  omega

/-- R204: V says that the signed difference does not fit in 32 bits. -/
theorem subOp_v_iff (a b : Word) :
    (subOp a b).2.v = true ↔ a.toInt - b.toInt < -2 ^ 31 ∨ a.toInt - b.toInt > 2 ^ 31 - 1 := by
  have hv : (subOp a b).2.v = true ↔
      ¬(a.toInt < 0 ↔ b.toInt < 0) ∧ ¬((a - b).toInt < 0 ↔ a.toInt < 0) := by
    simp [subOp, resultFlags, BitVec.msb_eq_toInt]
  rw [hv]
  rcases toInt_sub_cases a b with fits | tooSmall | tooLarge <;> omega

/-- R217: N and V differ exactly when the first operand is the smaller one, both read as signed. -/
theorem subOp_n_ne_v_iff (a b : Word) : (subOp a b).2.n ≠ (subOp a b).2.v ↔ a.toInt < b.toInt := by
  have hn : (subOp a b).2.n = true ↔ (a - b).toInt < 0 := by
    simp [subOp, resultFlags, BitVec.msb_eq_toInt]
  rw [ne_eq, Bool.eq_iff_iff, hn, subOp_v_iff]
  rcases toInt_sub_cases a b with fits | tooSmall | tooLarge <;> omega

/-- R207: the low 32 bits of the product are the same for both readings of the operands. -/
theorem mulOp_fst (a b : Word) : (mulOp a b).1 = BitVec.ofNat 32 (a.toNat * b.toNat) := by
  calc BitVec.ofInt 32 (a.toInt * b.toInt) = a * b := by
        rw [BitVec.ofInt_mul, BitVec.ofInt_toInt, BitVec.ofInt_toInt]
    _ = BitVec.ofNat 32 (a.toNat * b.toNat) := by
        rw [BitVec.ofNat_mul, BitVec.ofNat_toNat, BitVec.ofNat_toNat, BitVec.setWidth_eq, BitVec.setWidth_eq]

/-- R207: V says that the signed product does not fit in 32 bits. -/
theorem mulOp_v_iff (a b : Word) :
    (mulOp a b).2.v = true ↔ a.toInt * b.toInt < -2 ^ 31 ∨ a.toInt * b.toInt > 2 ^ 31 - 1 := by
  simp only [mulOp, resultFlags, Bool.or_eq_true, decide_eq_true_eq]

/-- The quotient truncated toward zero, by the signs and the magnitudes of its operands. -/
theorem tdiv_eq_of_signs (x y : Int) : x.tdiv y =
    if decide (x < 0) = decide (y < 0) then ((x.natAbs / y.natAbs : Nat) : Int)
    else -((x.natAbs / y.natAbs : Nat) : Int) := by
  -- `Int.tdiv` is defined by these four cases
  rcases x with m | m <;> rcases y with n | n
  case ofNat.ofNat => exact (if_pos (by simp [Int.not_lt.2 (Int.natCast_nonneg _)])).symm
  case ofNat.negSucc => exact (if_neg (by simp)).symm
  case negSucc.ofNat => exact (if_neg (by simp)).symm
  case negSucc.negSucc => exact (if_pos (by simp)).symm

/-- R210 writes out the library's signed division. -/
theorem truncQuotient_eq_sdiv (a b : Word) : truncQuotient a b = a.sdiv b := by
  have hq : truncQuotient a b = BitVec.ofInt 32 (a.toInt.tdiv b.toInt) := by
    rw [tdiv_eq_of_signs, truncQuotient]
    split
    · rw [BitVec.ofInt_natCast]
    · rfl
  rw [hq, ← BitVec.toInt_inj, BitVec.toInt_ofInt, BitVec.toInt_sdiv]

/-- R210: without overflow the quotient's signed value is exact. -/
theorem truncQuotient_toInt {a b : Word} (h : ¬(a = 0x80000000 ∧ b = 0xFFFFFFFF)) :
    (truncQuotient a b).toInt = a.toInt.tdiv b.toInt := by
  rw [truncQuotient_eq_sdiv, BitVec.toInt_sdiv_of_ne_or_ne]
  exact not_and_or.1 h

/-- R210: a divisor of 0 gives no result and sets V alone. -/
theorem divOp_zero (a : Word) : divOp a 0 = (none, ⟨false, false, true, false⟩) := if_pos rfl

/-- R210: any other divisor gives a quotient, whose flags are N and Z. -/
theorem divOp_of_ne_zero (a : Word) {b : Word} (hb : b ≠ 0) : ∃ r : Word,
    divOp a b = (some r, ⟨r.getLsbD 31, decide (r = 0), false, false⟩) ∧
      (a = 0x80000000 ∧ b = 0xFFFFFFFF → r = 0x80000000) ∧
      (¬(a = 0x80000000 ∧ b = 0xFFFFFFFF) → r.toInt = a.toInt.tdiv b.toInt) := by
  refine ⟨_, if_neg hb, fun h => if_pos h, fun h => ?_⟩
  rw [if_neg h, truncQuotient_toInt h]

/-! ### One tick -/

/-- `i` is the REG form `reg` with `b` in the register `r`, or the IMM form `imm` with the extension word `b`; `pc'` is
pc past the operand. -/
def OperandForm (reg imm : Instr) (r : Reg) (i : Instr) (s : State) (b pc' : Word) : Prop :=
  i = reg ∧ b = s.reg r ∧ pc' = s.pc ∨ i = imm ∧ s.imemAt s.pc = some b ∧ pc' = s.pc + 1

/-- What is left of the tick that wrote the registers `regs` and the flags `f`: nothing else has changed but the sampled
events, pc and the clock. -/
def aluState (s : State) (pc' : Word) (regs : Vector Word 16) (f : Flags) : State :=
  { sampleEvents s with pc := pc', regs := regs, flags := f, phase := .fetch, t := (sampleEvents s).t + 1 }

/-- R200: such a tick completes the instruction and writes nothing but the registers that `regs` changes, the flags and
pc. -/
theorem aluState_onlyWrites {s : State} {rs : List Reg} {regs : Vector Word 16} (h : Runs 1 s) (pc' : Word) (f : Flags)
    (hregs : ∀ r : Reg, r ∉ rs → regs[r.val] = s.reg r) : OnlyWrites 1 rs pc' s (aluState s pc' regs f) where
  completed := KeptByStage.completed (u := { sampleEvents s with pc := pc', regs := regs, flags := f })
    (by constructor <;> rfl) h.sampled_running
  otherRegs := hregs
  pc := rfl
  memory := sameMemory_of_dmem (sampleEvents_dmem s)
  output := sameOutput_of_outbuf (sampleEvents_outbuf s)
  control := ⟨sampleEvents_ie s, sampleEvents_insvc s⟩
  scratch := ⟨sampleEvents_s0 s, sampleEvents_s1 s, sampleEvents_irPort s⟩

section
variable {reg imm i : Instr} {rd rs1 rs2 : Reg} {s : State} {b pc' : Word}

/-- Both forms of an instruction of one stage that reads its two operands and goes on as `k`: `k` is handed the
operands, with pc past them. -/
theorem OperandForm.exec_next (hi : OperandForm reg imm rs2 i s b pc') (h : Runs 1 s)
    {k : Word → Word → State → Result} {regs : Vector Word 16} {f : Flags}
    (hreg : exec reg s = runStages [fun u => withRegReg rs1 rs2 u k] s)
    (himm : exec imm s = runStages [fun u => withRegImm rs1 u k] s)
    (hk : k (s.reg rs1) b { sampleEvents s with pc := pc' } =
      .next { sampleEvents s with pc := pc', regs := regs, flags := f }) :
    exec i s = .next (aluState s pc' regs f) := by
  obtain ⟨rfl, rfl, rfl⟩ | ⟨rfl, hw, rfl⟩ := hi
  · refine hreg.trans (runStages_one h (Eq.trans ?_ hk) h.sampled_running)
    rw [withRegReg, sampleEvents_reg, sampleEvents_reg, sampleEvents_withPc]
  · refine himm.trans (runStages_one h (Eq.trans ?_ hk) h.sampled_running)
    rw [withRegImm, withExt_some (imemAt_sampled hw), sampleEvents_pc]
    exact congrArg (k · b _) (sampleEvents_reg s rs1)

/-- An instruction whose stage writes back a result and its flags completes with these two and writes nothing else. -/
theorem OperandForm.writesResult (hi : OperandForm reg imm rs2 i s b pc') (h : Runs 1 s)
    {k : Word → Word → State → Result} {r : Word} {f : Flags}
    (hreg : exec reg s = runStages [fun u => withRegReg rs1 rs2 u k] s)
    (himm : exec imm s = runStages [fun u => withRegImm rs1 u k] s)
    (hk : k (s.reg rs1) b = writeResult rd (r, f)) :
    ∃ t, exec i s = .next t ∧ t.reg rd = r ∧ t.flags = f ∧ OnlyWrites 1 [rd] pc' s t := by
  refine ⟨_, hi.exec_next h hreg himm (congrFun hk _), Vector.getElem_set_self _, rfl, aluState_onlyWrites h _ _ ?_⟩
  intro q hq
  exact (reg_setReg_other (sampleEvents s) r (by simpa using hq)).trans (sampleEvents_reg s q)

/-- An instruction whose stage writes back flags alone completes with these and writes nothing else. -/
theorem OperandForm.writesFlags (hi : OperandForm reg imm rs2 i s b pc') (h : Runs 1 s)
    {k : Word → Word → State → Result} {f : Flags}
    (hreg : exec reg s = runStages [fun u => withRegReg rs1 rs2 u k] s)
    (himm : exec imm s = runStages [fun u => withRegImm rs1 u k] s)
    (hk : k (s.reg rs1) b = writeFlags f) :
    ∃ t, exec i s = .next t ∧ t.flags = f ∧ OnlyWrites 1 [] pc' s t :=
  ⟨_, hi.exec_next h hreg himm (congrFun hk _), rfl, aluState_onlyWrites h _ _ fun q _ => sampleEvents_reg s q⟩

end

/-! ### The obligations -/

/-- Settles O36: the tick writes back `addOp`, written out by `addOp_eq`. -/
theorem addWritesTheSumAndFlags : Obligations.AddWritesTheSumAndFlags := by
  unfold Obligations.AddWritesTheSumAndFlags
  intro s rd rs1 rs2 i b pc' h hi
  obtain ⟨t, ht, hr, hf, frame⟩ := OperandForm.writesResult (rs1 := rs1) hi h rfl rfl
    (congrArg (writeResult rd) (addOp_eq (s.reg rs1) b))
  refine ⟨t, ht, hr, ?_⟩
  rw [hf]
  exact ⟨rfl, rfl, rfl, rfl, frame⟩

/-- Settles O37: the tick writes back `subOp`, written out by `subOp_eq`; V is the signed overflow by `subOp_v_iff`. -/
theorem subWritesTheDifferenceAndFlags : Obligations.SubWritesTheDifferenceAndFlags := by
  unfold Obligations.SubWritesTheDifferenceAndFlags
  intro s rd rs1 rs2 i b pc' h hi
  obtain ⟨t, ht, hr, hf, frame⟩ := OperandForm.writesResult (rs1 := rs1) hi h rfl rfl
    (congrArg (writeResult rd) (subOp_eq (s.reg rs1) b))
  refine ⟨t, ht, hr, ?_⟩
  rw [hf]
  exact ⟨rfl, rfl, rfl, subOp_v_iff (s.reg rs1) b, rfl, frame⟩

/-- Settles O38: the tick writes back `mulOp`, whose result and V are `mulOp_fst` and `mulOp_v_iff`. -/
theorem mulWritesTheLowProductAndFlags : Obligations.MulWritesTheLowProductAndFlags := by
  unfold Obligations.MulWritesTheLowProductAndFlags
  intro s rd rs1 rs2 i b pc' h hi
  obtain ⟨t, ht, hr, hf, frame⟩ := OperandForm.writesResult (rd := rd) (rs1 := rs1)
    (k := fun a b => writeResult rd (mulOp a b)) hi h rfl rfl rfl
  refine ⟨t, ht, hr, hr.trans (mulOp_fst (s.reg rs1) b), ?_⟩
  rw [hf, hr]
  exact ⟨rfl, rfl, mulOp_v_iff (s.reg rs1) b, rfl, frame⟩

/-- Settles O39: the tick writes back `divOp`: flags alone for a divisor of 0 (`divOp_zero`), else a quotient
(`divOp_of_ne_zero`). -/
theorem divFollowsItsDefinition : Obligations.DivFollowsItsDefinition := by
  unfold Obligations.DivFollowsItsDefinition
  intro s rd rs1 rs2 i b pc' h hi
  by_cases hb : b = 0
  · have hk : writeQuotient rd (divOp (s.reg rs1) b) = writeFlags ⟨false, false, true, false⟩ := by
      rw [hb, divOp_zero]
      rfl
    obtain ⟨t, ht, hf, frame⟩ := OperandForm.writesFlags (rs1 := rs1)
      (k := fun a b => writeQuotient rd (divOp a b)) hi h rfl rfl hk
    exact ⟨t, ht, fun _ => ⟨hf, frame⟩, fun hne => absurd hb hne⟩
  · obtain ⟨r, hdiv, hoverflow, hexact⟩ := divOp_of_ne_zero (s.reg rs1) hb
    obtain ⟨t, ht, hr, hf, frame⟩ := OperandForm.writesResult (rs1 := rs1)
      (k := fun a b => writeQuotient rd (divOp a b)) hi h rfl rfl (congrArg (writeQuotient rd) hdiv)
    refine ⟨t, ht, fun h0 => absurd h0 hb, fun _ => ?_⟩
    rw [hf, hr]
    exact ⟨hoverflow, hexact, rfl, rfl, rfl, rfl, frame⟩

/-- Settles O40: the tick writes back SUB's flags, written out by `subOp_eq`, and no result. -/
theorem cmpWritesOnlySubFlags : Obligations.CmpWritesOnlySubFlags := by
  unfold Obligations.CmpWritesOnlySubFlags
  intro s rs1 rs2 i b pc' h hi
  obtain ⟨t, ht, hf, frame⟩ := OperandForm.writesFlags (rs1 := rs1) (k := fun a b => writeFlags (cmpOp a b))
    hi h rfl rfl rfl
  refine ⟨t, ht, ?_⟩
  rw [hf, cmpOp, subOp_eq]
  exact ⟨rfl, rfl, rfl, rfl, rfl, frame⟩

/-- Settles O41: CMP's flags are SUB's by definition, and what these say is `subOp_n_ne_v_iff` and `subOp_v_iff`. -/
theorem subtractionFlagsDecideTheOrder : Obligations.SubtractionFlagsDecideTheOrder := by
  unfold Obligations.SubtractionFlagsDecideTheOrder
  intro a b
  exact ⟨rfl, decide_eq_true_iff.trans sub_eq_zero, decide_eq_true_iff, subOp_n_ne_v_iff a b, subOp_v_iff a b⟩

end Sys2Proof.Machine
end

section
/-! PROOFS. EI and DI and the boundary check of the tick that follows them (spec/43_interrupt_control.md R240 to R243). -/

namespace Sys2Proof.Machine

/-! ### The tick of EI and of DI -/

/-- R240: EI's tick is its sampling, the set enable and the completion of its stage. -/
theorem exec_ei {s : State} (h : Runs 1 s) :
    exec .ei s = .next { sampleEvents s with ie := true, phase := .fetch, t := (sampleEvents s).t + 1 } :=
  runStages_one (u := { sampleEvents s with ie := true }) h rfl h.sampled_running

/-- R242: DI's tick is its sampling, the cleared enable and the completion of its stage. -/
theorem exec_di {s : State} (h : Runs 1 s) :
    exec .di s = .next { sampleEvents s with ie := false, phase := .fetch, t := (sampleEvents s).t + 1 } :=
  runStages_one (u := { sampleEvents s with ie := false }) h rfl h.sampled_running

/-! ### The boundary check and the request -/

/-- R311: a request that is enabled outside a handler is entered. -/
theorem interruptCheck_enters {s : State} (hpend : s.pend = true) (hie : s.ie = true) (hinsvc : s.insvc = false) :
    interruptCheck s = enterInterrupt s.pline s := if_pos ⟨hpend, hie, hinsvc⟩

/-- R311: with interrupts disabled the check changes nothing. -/
theorem interruptCheck_disabled {s : State} (hie : s.ie = false) : interruptCheck s = s := by
  rcases interruptCheck_cases s with ⟨-, henabled, -, -⟩ | hsame
  · exact absurd henabled (by simp [hie])
  · exact hsame

/-- R262: sampling never takes a request back. -/
theorem sampleEvents_pend_of_pend {s : State} (h : s.pend = true) : (sampleEvents s).pend = true := by
  simp [sampleEvents_eq, eventPend, h]

/-! ### The obligation -/

/-- Settles O48: EI leaves IE set and INSVC as it was (`exec_ei`), which with the request is the condition of
`interruptCheck_enters`; DI leaves IE clear (`exec_di`), so the check changes nothing (`interruptCheck_disabled`), and the
request that DI's tick left stays through the next sampling (`sampleEvents_pend_of_pend`). -/
theorem eiAndDiActAtTheNextBoundary : Obligations.EiAndDiActAtTheNextBoundary := by
  unfold Obligations.EiAndDiActAtTheNextBoundary
  intro s t h
  constructor
  · intro hei hinsvc hpend
    cases (exec_ei h).symm.trans hei
    exact interruptCheck_enters hpend (by simp) (by simp [hinsvc])
  · intro hdi
    cases (exec_di h).symm.trans hdi
    exact ⟨interruptCheck_disabled (by simp), fun hpend => sampleEvents_pend_of_pend hpend⟩

end Sys2Proof.Machine
end

section
/-! PROOFS. The sampling of a tick's event: its latch, the request and the schedule (spec/44_io.md R260 to R263). -/

namespace Sys2Proof.Machine

/-! ### The tables after a sampled event -/

/-- R262: in a tick with an entry, sampling is the four writes of its event. -/
theorem sampleEvents_some {s : State} {e : Event} (h : tableFind s.sched s.t = some e) :
    sampleEvents s = { s with
      latch := tableWrite 0#8 s.latch (linePort e.line) (trunc8 e.value)
      pend := true
      pline := e.line
      sched := tableErase s.sched s.t } := by
  simp [sampleEvents, h]

/-- R260, R262: the port of the event's line reads the low byte of its value, every other port what it read before. -/
theorem portIn_sampleEvents_some {s : State} {e : Event} (h : tableFind s.sched s.t = some e)
    (hlatch : tableWf 0#8 s.latch = true) (p : Word) :
    (sampleEvents s).portIn p = if p.toNat = linePort e.line then BitVec.ofInt 8 e.value else s.portIn p := by
  rw [sampleEvents_some h]
  split
  · next hport =>
    rw [State.portIn, hport]
    exact tableRead_write_wf _ _ _ hlatch
  · next hport => exact tableRead_write_other _ _ hport _

/-- R262: sampling takes the tick's own entry, if there is one, out of the schedule and no other. -/
theorem tableFind_sched_sampleEvents (s : State) (n : Nat) :
    tableFind (sampleEvents s).sched n = if n = s.t then none else tableFind s.sched n := by
  rw [sampleEvents_eq]
  exact tableFind_erase _

/-! ### The obligation -/

/-- Settles O45: without an entry sampling is the identity (`sampleEvents_none`); with one it is the four writes of
`sampleEvents_some`, read back by `portIn_sampleEvents_some` and `tableFind_sched_sampleEvents`. -/
theorem eventSamplingLatchesAndRequests : Obligations.EventSamplingLatchesAndRequests := by
  unfold Obligations.EventSamplingLatchesAndRequests
  intro s
  refine ⟨sampleEvents_none, fun e he hlatch => ?_⟩
  have hsample := sampleEvents_some he
  refine ⟨portIn_sampleEvents_some he hlatch, ?pend, ?pline, tableFind_sched_sampleEvents s, ?frame⟩
  case pend => rw [hsample]
  case pline => rw [hsample]
  case frame => rw [hsample]

end Sys2Proof.Machine
end

section
/-! PROOFS. The boundary check and the step that enters an interrupt (spec/60_exceptions.md R311, R312). -/

namespace Sys2Proof.Machine

/-! ### The entry -/

/-- R311: a request that is missing, disabled or inside a handler is not entered. -/
theorem interruptCheck_passes {s : State} (h : ¬(s.pend = true ∧ s.ie = true ∧ s.insvc = false)) :
    interruptCheck s = s := if_neg h

/-- R312: the entry writes SNAP, pc, INSVC and PEND and nothing else. -/
theorem enterInterrupt_frame (l : Line) (s : State) :
    enterInterrupt l s = { s with
      snap := (enterInterrupt l s).snap, pc := (enterInterrupt l s).pc, insvc := true, pend := false } := rfl

/-- R312, R315: a boundary that enters an interrupt fetches at the vector of the pending line. -/
theorem fetchIndex_of_entry {s : State} (hpend : (sampleEvents s).pend = true) (hie : s.ie = true)
    (hinsvc : s.insvc = false) : s.fetchIndex = (sampleEvents s).vector (sampleEvents s).pline := by
  rw [State.fetchIndex, interruptCheck_enters hpend (by simp [hie]) (by simp [hinsvc]), enterInterrupt_pc]

/-! ### The step of a valid instruction -/

/-- R123: in the middle of an instruction what is left of the step is the instruction whose fields IR holds. -/
theorem resume_of_exec {s : State} {k : Nat} {w : Word} {i : Instr} (hp : s.phase = .exec k)
    (hir : s.ir = fieldsOf w) (hd : decode w = .ok i) : resume s = exec i s := by
  rw [decode, ← hir] at hd
  simp only [resume, hp, hd]

/-- R122, R123: at a running boundary the step fetches a valid instruction and runs it. -/
theorem step_of_valid {s : State} {w : Word} {i : Instr} (hs : s.status = .running) (hb : s.t ≠ s.budget)
    (hp : s.phase = .fetch) (hw : s.imemAt s.fetchIndex = some w) (hd : decode w = .ok i) :
    step s = exec i { interruptCheck (sampleEvents s) with
      pc := s.fetchIndex + 1, ir := fieldsOf w, phase := .exec 0, t := s.t + 1 } := by
  rw [step_of_fetch hs hb hp, fetchTick_valid hw hd, andThen_next, resume_of_exec rfl rfl hd,
    interruptCheck_t, sampleEvents_t]

/-! ### The obligation -/

/-- Settles O51: the check is the entry under R311's condition (`interruptCheck_enters`) and the identity otherwise
(`interruptCheck_passes`), and a boundary that enters fetches its instruction at the vector (`fetchIndex_of_entry`,
`step_of_valid`). -/
theorem boundaryCheckEntersTheVector : Obligations.BoundaryCheckEntersTheVector := by
  unfold Obligations.BoundaryCheckEntersTheVector
  intro s
  refine ⟨?entered, interruptCheck_passes, ?fetched⟩
  case entered =>
    rintro ⟨hpend, hie, hinsvc⟩
    rw [interruptCheck_enters hpend hie hinsvc]
    exact ⟨rfl, rfl, fun _ => rfl, fun hline => congrArg s.vector hline, fun hline => congrArg s.vector hline,
      enterInterrupt_frame s.pline s⟩
  case fetched =>
    intro w i hs hb hp hpend hie hinsvc hw hd
    have hvector := fetchIndex_of_entry hpend hie hinsvc
    rw [← hvector] at hw ⊢
    exact step_of_valid hs hb hp hw hd

end Sys2Proof.Machine
end

section
/-! PROOFS. The instruction words of the opcode map (spec/30_encoding.md R83, R87, R90): the round trip of every
instruction, the listed match words and fields, and the stages column. -/

namespace Sys2Proof
open Machine

/-! ### The round trip -/

/-- An instruction's fields, with the ones its pair does not list taken from themselves, are its fields. -/
theorem fieldsOver_self (i : Instr) : i.fieldsOver i.fields = i.fields := by
  simp only [Instr.fieldsOver, ite_self]

/-- R86, R90: the lookup of an instruction's own fields gives the instruction back. -/
@[simp] theorem lookup_fields (i : Instr) : lookup i.fields = .ok i := by
  rw [← fieldsOver_self i]
  exact lookup_fieldsOver i i.fields

/-- Settles O2: the fields survive the encoding (`fieldsOf_encodeFields`) and name the instruction (`lookup_fields`). -/
theorem decodeOfEncodeIsTheInstruction : Obligations.DecodeOfEncodeIsTheInstruction := by
  unfold Obligations.DecodeOfEncodeIsTheInstruction
  intro i
  rw [decode, encode, fieldsOf_encodeFields, lookup_fields]

/-! ### The pair's bits -/

/-- R80: bits 31:21 of a word are its op and its mode. -/
theorem toNat_and_pairMask (w : Word) : (w &&& 0xFFE00000#32).toNat =
    (fieldsOf w).op.toNat * 2 ^ 26 + (fieldsOf w).mode.toNat * 2 ^ 21 := by
  have hmask : w &&& 0xFFE00000#32 = w >>> 21 <<< 21 := (BitVec.shiftLeft_ushiftRight (n := 21)).symm
  obtain ⟨hop, hmode, -⟩ := fieldsOf_toNat w
  rw [hmask, hop, hmode, BitVec.toNat_shiftLeft, BitVec.toNat_ushiftRight, Nat.shiftLeft_eq, Nat.shiftRight_eq_div_pow]
  have := w.isLt
  omega

/-- R90: a word has the match word of a row in bits 31:21 exactly when it has the row's pair. -/
theorem and_pairMask_eq_listedMatch_iff {w : Word} {i : Instr} :
    w &&& 0xFFE00000#32 = BitVec.ofNat 32 (listedMatch i) ↔
      (fieldsOf w).op = i.fields.op ∧ (fieldsOf w).mode = i.fields.mode := by
  have := i.fields.op.isLt
  have := i.fields.mode.isLt
  have := (fieldsOf w).op.isLt
  have := (fieldsOf w).mode.isLt
  rw [BitVec.toNat_eq, BitVec.toNat_eq, BitVec.toNat_eq, toNat_and_pairMask, listedMatch_eq, BitVec.toNat_ofNat]
  omega

/-! ### The operands' bits -/

/-- The value of a register field. -/
def Fields.reg (f : Fields) : RegField → BitVec 4
  | .rd => f.rd
  | .rs1 => f.rs1
  | .rs2 => f.rs2

/-- R80: a register field of a word is the four bits from its lowest on. -/
theorem fieldsOf_reg_toNat (w : Word) (q : RegField) :
    ((fieldsOf w).reg q).toNat = w.toNat / 2 ^ q.lowBit % 16 := by
  obtain ⟨-, -, hrd, hrs1, hrs2⟩ := fieldsOf_toNat w
  cases q
  case rd => exact hrd
  case rs1 => exact hrs1
  case rs2 => exact hrs2

/-- Clearing the fields that a pair does not list leaves a listed one alone. -/
theorem keepListed_reg {i : Instr} {q : RegField} (h : i.lists q = true) (f : Fields) :
    (i.keepListed f).reg q = f.reg q := by
  cases q <;> exact if_pos h

/-- Every operand that the opcode map lists stands in the instruction's fields in its place. -/
theorem fields_reg_of_listed {i : Instr} : ∀ p ∈ listedFields i, i.fields.reg p.1 = bitsOf p.2 := by
  cases i <;> simp [listedFields, Instr.fields, Fields.reg]

/-- R83: what the listed operands add to the word is what the register fields add. -/
theorem sum_operandValue (i : Instr) : ((listedFields i).map operandValue).sum =
    i.fields.rd.toNat * 2 ^ 17 + i.fields.rs1.toNat * 2 ^ 13 + i.fields.rs2.toNat * 2 ^ 9 := by
  cases i <;> simp [listedFields, operandValue, RegField.lowBit, Instr.fields, bitsOf, Nat.add_assoc]

/-- Settles O4: the word is the pair's part (`listedMatch_eq`) and the operands' part (`sum_operandValue`) of
`encodeFields_toNat`; bits 31:21 are the pair (`and_pairMask_eq_listedMatch_iff`), which selects the row; and a decoded
word's listed fields are the instruction's (`keepListed_of_lookup`). -/
theorem encodingsAreTheListedWords : Obligations.EncodingsAreTheListedWords := by
  unfold Obligations.EncodingsAreTheListedWords
  refine ⟨?value, ?selects, ?selected, ?operands⟩
  case value =>
    intro i
    rw [encode, encodeFields_toNat, listedMatch_eq, sum_operandValue]
    omega
  case selects =>
    intro w i h
    exact and_pairMask_eq_listedMatch_iff.2 (pair_of_lookup h)
  case selected =>
    intro w i h
    obtain ⟨hop, hmode⟩ := and_pairMask_eq_listedMatch_iff.1 h
    exact lookup_row_of_same_pair hop.symm hmode.symm (lookup_fields i)
  case operands =>
    intro w i h p hp
    have hlists : i.lists p.1 = true := List.any_eq_true.2 ⟨p, hp, beq_self_eq_true p.1⟩
    calc w.toNat / 2 ^ p.1.lowBit % 16 = ((fieldsOf w).reg p.1).toNat := (fieldsOf_reg_toNat w p.1).symm
      _ = (i.fields.reg p.1).toNat := by rw [← keepListed_of_lookup h, keepListed_reg hlists]
      _ = p.2.val := by rw [fields_reg_of_listed p hp]; rfl

/-! ### The rows of the tables -/

/-- Settles O6: the eleven words decoded. -/
theorem specWordsDecodeAsListed : Obligations.SpecWordsDecodeAsListed := by
  unfold Obligations.SpecWordsDecodeAsListed
  decide

/-- Settles O7: row by row of the microcode table. -/
theorem microcodeHasTheListedStages : Obligations.MicrocodeHasTheListedStages := by
  unfold Obligations.MicrocodeHasTheListedStages
  intro i
  cases i <;> rfl

end Sys2Proof
end

section
/-! PROOFS. A step as the ticks of the run loop (spec/40_engine.md R120 to R126). -/

namespace Sys2Proof.Machine

/-! ### The microcode of an instruction under way -/

theorem length_microcode (i : Instr) : (microcode i).length = i.stages := microcodeHasTheListedStages i

/-- R87: an instruction takes one to four stages. -/
theorem stages_bounds (i : Instr) : 0 < i.stages ∧ i.stages ≤ 4 := by
  cases i <;> simp [Instr.stages]

/-- The first of the stages left from `k` on is stage `k`, and the others are those left from `k + 1` on. -/
theorem of_drop_eq_cons {α : Type} {l rest : List α} {k : Nat} {x : α} (h : l.drop k = x :: rest) :
    l[k]? = some x ∧ l.drop (k + 1) = rest ∧ rest.length + k + 1 = l.length := by
  refine ⟨?first, ?others, ?length⟩
  case first => rw [← List.head?_drop, h, List.head?_cons]
  case others => rw [← List.tail_drop, h, List.tail_cons]
  case length =>
    have := congrArg List.length h
    rw [List.length_drop, List.length_cons] at this
    omega

/-! ### Turns of the run loop -/

section
variable {n : Nat} {s u : State}

theorem runLoopTurn_running (hs : s.status = .running) (hb : s.t ≠ s.budget) : runLoopTurn s = tick s :=
  guarded_running hs hb tick

/-- A turn that ends inside an instruction is followed by the next one. -/
theorem ticksToBoundary_goesOn {k : Nat} (h : runLoopTurn s = .next u) (hs : u.status = .running)
    (hp : u.phase = .exec k) : ticksToBoundary (n + 1) s = ticksToBoundary n u := by
  simp only [ticksToBoundary, h, andThen_next, hs, hp]

/-- A turn that ends at a boundary, or stops the machine, is the last. -/
theorem ticksToBoundary_ends (h : runLoopTurn s = .next u) (hu : u.phase = .fetch ∨ u.status ≠ .running) :
    ticksToBoundary (n + 1) s = .next u := by
  simp only [ticksToBoundary, h, andThen_next]
  split
  · next hs hp => simp [hs, hp] at hu
  · rfl

/-- A turn that answers no state is the last. -/
theorem ticksToBoundary_stops (h : ∀ u, runLoopTurn s ≠ .next u) : ticksToBoundary (n + 1) s = runLoopTurn s := by
  rw [ticksToBoundary]
  cases hr : runLoopTurn s with
  | next u => exact absurd hr (h u)
  | fault f => rfl
  | refused x => rfl

end

/-! ### The tick at a boundary -/

/-- R120: at a boundary the tick is the fetch tick. -/
theorem tick_of_fetch {s : State} (hp : s.phase = .fetch) : tick s = fetchTick s := by
  simp only [tick, hp]

/-- A fetch tick goes on, or is F1 where the fetch index is past the image. -/
theorem fetchTick_cases (s : State) : (∃ u, fetchTick s = .next u) ∨
    fetchTick s = raise (.fetchOutOfRange s.fetchIndex) (interruptCheck (sampleEvents s)) := by
  cases hw : s.imemAt s.fetchIndex with
  | none => exact .inr (fetchTick_fault hw)
  | some w =>
    cases hd : decode w with
    | ok i => exact .inl ⟨_, fetchTick_valid hw hd⟩
    | error x =>
      obtain ⟨op, mode⟩ := x
      exact .inl ⟨_, fetchTick_unknown hw hd⟩

/-- A fetch tick ends at stage 0 of the instruction in IR, or at the boundary after an unknown pair. -/
theorem fetchTick_leads {s u : State} (h : fetchTick s = .next u) :
    u.status = s.status ∧ u.t = s.t + 1 ∧
      ((∃ i, u.phase = .exec 0 ∧ lookup u.ir = .ok i) ∨ u.phase = .fetch) := by
  obtain ⟨w, -, ⟨i, hd, rfl⟩ | ⟨op, mode, -, rfl⟩⟩ := fetchTick_next h
  · exact ⟨by simp, by simp, .inl ⟨i, rfl, hd⟩⟩
  · exact ⟨by simp, by simp, .inr rfl⟩

/-! ### The tick of a stage -/

section
variable {i : Instr} {k : Nat} {st : Stage} {s : State}

/-- R120, R123: inside an instruction the tick is that of the stage its phase names. -/
theorem tick_of_stage (hp : s.phase = .exec k) (hi : lookup s.ir = .ok i) (hst : (microcode i)[k]? = some st) :
    tick s = execTick (microcode i).length k st s := by
  simp only [tick, hp, execStageTick, hi, hst]

/-- An EXEC phase past the instruction's stages has no tick (log 12). -/
theorem tick_of_no_stage (hp : s.phase = .exec k) (hi : lookup s.ir = .ok i) (hst : (microcode i)[k]? = none) :
    tick s = .refused .noSuchStage := by
  simp only [tick, hp, execStageTick, hi, hst]

/-- A stage's tick that goes on has done what its stage may do. -/
theorem execTick_next_inv {n : Nat} {u : State} (hst : (microcode i)[k]? = some st) (h : execTick n k st s = .next u) :
    ∃ v, StageNext i k (sampleEvents s) v ∧ u = { completeStage n k v with t := v.t + 1 } := by
  obtain ⟨v, hv, law⟩ | ⟨-, r, hr | ⟨-, -, hr⟩⟩ := execTick_cases hst n s
  · cases hv.symm.trans h
    exact ⟨v, law, rfl⟩
  · exact absurd (hr.symm.trans h) (raise_ne_next _ _ _)
  · exact absurd (hr.symm.trans h) (raise_ne_next _ _ _)

/-- R306: a stage's tick that faults is that of stage 0, and has done nothing but its sampling and the read of an
extension word. -/
theorem execTick_fault_inv {n : Nat} {f : Fault} (hst : (microcode i)[k]? = some st)
    (h : execTick n k st s = .fault f) : k = 0 ∧ ∃ (r : FaultReason) (pc' : Word),
      f = faultOf r { sampleEvents s with pc := pc', status := .fault r } ∧
        (pc' = s.pc ∨ i.extWords = 1 ∧ pc' = s.pc + 1 ∧ s.pc.toNat < s.imem.length) := by
  obtain ⟨v, hv, -⟩ | ⟨hk, r, hr | ⟨hext, hlt, hr⟩⟩ := execTick_cases hst n s
  · cases hv.symm.trans h
  · cases hr.symm.trans h
    exact ⟨hk, r, s.pc, by rw [← sampleEvents_withPc s], .inl rfl⟩
  · cases hr.symm.trans h
    exact ⟨hk, r, s.pc + 1, rfl, .inr ⟨hext, rfl, hlt⟩⟩

/-- A stage's tick is not refused. -/
theorem execTick_ne_refused {n : Nat} (hst : (microcode i)[k]? = some st) (x : Refusal) :
    execTick n k st s ≠ .refused x := by
  obtain ⟨v, hv, -⟩ | ⟨-, r, hr | ⟨-, -, hr⟩⟩ := execTick_cases hst n s
  · simp [hv]
  · rw [hr]
    exact raise_ne_refused _ _ _
  · rw [hr]
    exact raise_ne_refused _ _ _

/-- R123: a stage's tick that leaves the machine running ends at the boundary after the last stage and before the next
stage of the same instruction otherwise; a stage that stops the machine is HALT's, and is not completed. -/
theorem execTick_leads {u : State} (hst : (microcode i)[k]? = some st)
    (h : execTick (microcode i).length k st s = .next u) (hs : s.status = .running) :
    u.t = s.t + 1 ∧ u.ir = s.ir ∧
      (u.status = .running ∧ u.phase = (if k + 1 = (microcode i).length then .fetch else .exec (k + 1)) ∨
        u.status = .halted ∧ u.phase = s.phase ∧ i = .halt) := by
  obtain ⟨v, law, rfl⟩ := execTick_next_inv hst h
  have ht : v.t + 1 = s.t + 1 := by rw [law.kept.t, sampleEvents_t]
  have hir : (completeStage (microcode i).length k v).ir = s.ir := by
    rw [completeStage_ir, law.kept.ir, sampleEvents_ir]
  refine ⟨ht, hir, ?_⟩
  obtain hv | ⟨hi, hv⟩ := law.status
  · rw [sampleEvents_status, hs] at hv
    rw [completeStage_running hv]
    exact .inl ⟨hv, rfl⟩
  · rw [completeStage_stopped (by simp [hv])]
    exact .inr ⟨hv, law.kept.phase.trans (sampleEvents_phase s), hi⟩

end

/-- A tick is the fetch's, that of the stage that phase and IR name, or refused (log 12). -/
theorem tick_cases (s : State) :
    (s.phase = .fetch ∧ tick s = fetchTick s) ∨
      (∃ i k st, s.phase = .exec k ∧ lookup s.ir = .ok i ∧ (microcode i)[k]? = some st ∧
        tick s = execTick (microcode i).length k st s) ∨
      tick s = .refused .noSuchStage := by
  cases hp : s.phase with
  | fetch => exact .inl ⟨rfl, tick_of_fetch hp⟩
  | exec k =>
    cases hi : lookup s.ir with
    | error x => exact .inr (.inr (by simp only [tick, hp, execStageTick, hi]))
    | ok i =>
      cases hst : (microcode i)[k]? with
      | none => exact .inr (.inr (tick_of_no_stage hp hi hst))
      | some st => exact .inr (.inl ⟨i, k, st, rfl, rfl, hst, tick_of_stage hp hi hst⟩)

/-! ### A step is its ticks -/

/-- Going on alike from every state that a result can be. -/
theorem andThen_congr {o : Result} {f g : State → Result} (h : ∀ u, o = .next u → f u = g u) :
    andThen o f = andThen o g := by
  cases o with
  | next u => exact h u rfl
  | fault r => rfl
  | refused x => rfl

/-- The stages an instruction under way has left are as many turns of the run loop. -/
theorem runFrom_eq_ticks {i : Instr} (stages : List Stage) : ∀ {k m : Nat} {s : State},
    (microcode i).drop k = stages → s.phase = .exec k → lookup s.ir = .ok i → 0 < stages.length → stages.length ≤ m →
    runFrom (microcode i).length k stages s = ticksToBoundary m s := by
  induction stages with
  | nil =>
    intro k m s _ _ _ hpos _
    exact absurd hpos (Nat.lt_irrefl 0)
  | cons st rest ih =>
    intro k m s hdrop hp hi _ hm
    obtain ⟨hst, hrest, hlen⟩ := of_drop_eq_cons hdrop
    obtain ⟨m, rfl⟩ : ∃ m', m = m' + 1 := ⟨m - 1, by rw [List.length_cons] at hm; omega⟩
    have hturn : guarded s (execTick (microcode i).length k st) = runLoopTurn s := by
      unfold runLoopTurn guarded
      rw [tick_of_stage hp hi hst]
    rw [runFrom, hturn, ticksToBoundary]
    refine andThen_congr fun u hu => ?_
    by_cases hs : u.status = .running
    case neg =>
      rw [runFrom_stopped hs]
      split
      · next hs' _ => exact absurd hs' hs
      · rfl
    have hlead : u.ir = s.ir ∧ u.phase = if k + 1 = (microcode i).length then .fetch else .exec (k + 1) := by
      rw [← hturn] at hu
      rcases guarded_cases s (execTick (microcode i).length k st) with ⟨hrun, -, e⟩ | ⟨-, -, e⟩ | ⟨hstop, e⟩
      · obtain ⟨-, hir, ⟨-, hphase⟩ | ⟨hhalt, -, -⟩⟩ := execTick_leads hst (e.symm.trans hu) hrun
        · exact ⟨hir, hphase⟩
        · rw [hs] at hhalt
          cases hhalt
      · cases e.symm.trans hu
        cases hs
      · cases e.symm.trans hu
        exact absurd hs hstop
    obtain ⟨hir, hphase⟩ := hlead
    cases rest with
    | nil =>
      rw [if_pos (by simpa using hlen)] at hphase
      simp only [runFrom, hs, hphase]
    | cons st' rest' =>
      rw [if_neg (by rw [List.length_cons] at hlen; omega)] at hphase
      simp only [hs, hphase]
      exact ih hrest hphase (hir ▸ hi) (Nat.succ_pos _) (Nat.le_of_succ_le_succ hm)

/-- What is left of an instruction under way is as many turns of the run loop. -/
theorem exec_eq_ticks {i : Instr} {k m : Nat} {s : State} (hp : s.phase = .exec k) (hi : lookup s.ir = .ok i)
    (hk : k < i.stages) (hm : i.stages ≤ m) : exec i s = ticksToBoundary m s := by
  have hstage : s.phase.stage = k := by rw [hp, Phase.stage]
  have hlen : ((microcode i).drop k).length = i.stages - k := by rw [List.length_drop, length_microcode]
  rw [← runFrom_eq_ticks _ rfl hp hi (by omega) (by omega), exec_eq_runStages, runStages, hstage]
  split
  · next hdrop =>
    rw [hdrop, List.length_nil] at hlen
    omega
  · next st rest hdrop => rw [hdrop]

/-- An EXEC phase with no stage to run is refused, whether by the meaning or by the tick (log 12). -/
theorem exec_of_no_stage {i : Instr} {k : Nat} {s : State} (hp : s.phase = .exec k) (hk : i.stages ≤ k) :
    exec i s = .refused .noSuchStage := by
  have hdrop : (microcode i).drop s.phase.stage = [] := by
    rw [hp, Phase.stage, List.drop_eq_nil_iff, length_microcode]
    exact hk
  rw [exec_eq_runStages, runStages, hdrop]

/-- R123: inside an instruction the rest of the step is the rest of what IR names. -/
theorem resume_of_lookup {i : Instr} {k : Nat} {s : State} (hp : s.phase = .exec k) (hi : lookup s.ir = .ok i) :
    resume s = exec i s := by
  simp only [resume, hp, hi]

/-- Inside an instruction the rest of the step is at most four turns of the run loop. -/
theorem resume_eq_ticks {k n : Nat} {s : State} (hs : s.status = .running) (hb : s.t ≠ s.budget)
    (hp : s.phase = .exec k) : resume s = ticksToBoundary (n + 4) s := by
  have hrefused : ∀ o, tick s = .refused o → ticksToBoundary (n + 4) s = .refused o := by
    intro o ho
    have hturn := (runLoopTurn_running hs hb).trans ho
    rw [ticksToBoundary_stops (by simp [hturn]), hturn]
  cases hi : lookup s.ir with
  | ok i =>
    rw [resume_of_lookup hp hi]
    by_cases hk : k < i.stages
    · obtain ⟨-, hfour⟩ := stages_bounds i
      exact exec_eq_ticks hp hi hk (by omega)
    · have hnone : (microcode i)[k]? = none := by
        rw [List.getElem?_eq_none_iff, length_microcode]
        omega
      rw [exec_of_no_stage hp (by omega), hrefused _ (tick_of_no_stage hp hi hnone)]
  | error x =>
    have hresume : resume s = .refused .noSuchStage := by simp only [resume, hp, hi]
    rw [hresume, hrefused]
    simp only [tick, hp, execStageTick, hi]

/-- Settles O9: the fetch tick is the first turn and leads to the instruction's turns (`exec_eq_ticks`); inside an
instruction there are only those (`resume_eq_ticks`); and a stop or the budget is one turn. -/
theorem stepIsItsTicks : Obligations.StepIsItsTicks := by
  unfold Obligations.StepIsItsTicks
  intro s
  obtain ⟨hs, hb, hp, hstep⟩ | ⟨hs, hb, ⟨k, hp⟩, hstep⟩ | ⟨hs, hb, hstep⟩ | ⟨hs, hstep⟩ := step_cases s
  · have hturn : runLoopTurn s = fetchTick s := (runLoopTurn_running hs hb).trans (tick_of_fetch hp)
    rw [hstep, ← hturn]
    cases hu : runLoopTurn s with
    | next u =>
      obtain ⟨hus, -, ⟨i, hup, hi⟩ | hup⟩ := fetchTick_leads (hturn.symm.trans hu)
      · obtain ⟨hpos, hfour⟩ := stages_bounds i
        rw [ticksToBoundary_goesOn hu (hus.trans hs) hup, andThen_next, ← exec_eq_ticks hup hi hpos hfour,
          resume_of_lookup hup hi]
      · rw [ticksToBoundary_ends hu (.inl hup), andThen_next, resume_of_fetch hup]
    | fault f => rw [ticksToBoundary_stops (by simp [hu]), hu, andThen_fault]
    | refused x => rw [ticksToBoundary_stops (by simp [hu]), hu, andThen_refused]
  · rw [hstep, resume_eq_ticks hs hb hp (n := 1)]
  · rw [hstep, ticksToBoundary_ends (guarded_budget hs hb tick) (.inr (by simp))]
  · rw [hstep, ticksToBoundary_ends (guarded_stopped hs tick) (.inr hs)]

/-! ### One turn at a time -/

/-- Settles O12: the guard of the run loop lets nothing run (`guarded_stopped`). -/
theorem stoppedMachineRunsNoTick : Obligations.StoppedMachineRunsNoTick := by
  unfold Obligations.StoppedMachineRunsNoTick
  intro s hs
  exact ⟨guarded_stopped hs _, guarded_stopped hs tick⟩

/-- Settles O13: the guard of the run loop ends the run (`guarded_budget`). -/
theorem budgetEndsTheRun : Obligations.BudgetEndsTheRun := by
  unfold Obligations.BudgetEndsTheRun
  intro s hs hb
  exact ⟨guarded_budget hs hb _, guarded_budget hs hb tick⟩

/-- Inside an instruction with budget left the step is the rest of it (R120). -/
theorem step_of_exec {s : State} {k : Nat} (hs : s.status = .running) (hb : s.t ≠ s.budget) (hp : s.phase = .exec k) :
    step s = resume s := by
  rw [step, guarded_running hs hb]
  simp only [hp]

/-- Settles O8: at a boundary `step_of_valid`; inside an instruction the step is what IR names (`step_of_exec`,
`resume_of_lookup`). -/
theorem stepRunsTheDecodedInstruction : Obligations.StepRunsTheDecodedInstruction := by
  unfold Obligations.StepRunsTheDecodedInstruction
  refine ⟨fun s w i => step_of_valid, fun s k i hs hb hp hi => ?_⟩
  rw [step_of_exec hs hb hp, resume_of_lookup hp hi]

/-! ### Reads past the image -/

/-- A word index at or past the end of the image holds no word (R51). -/
theorem imemAt_past {s : State} {a : Word} (h : s.imem.length ≤ a.toNat) : s.imemAt a = none :=
  List.getElem?_eq_none h

/-- R87: an instruction with an extension word reads it before anything else. -/
theorem firstStage_readsExt {i : Instr} (he : i.extWords = 1) :
    ∃ st rest, microcode i = st :: rest ∧ ∀ s, ∃ k, st s = withExt s k := by
  have hjump : ∀ cond s, ∃ k, jumpStage cond s = withExt s k := fun _ _ => ⟨_, by rw [jumpStage, withAbs]⟩
  have houtl : ∀ rs1 s, ∃ k, outLongFirst rs1 s = withExt s k := fun _ _ => ⟨_, by rw [outLongFirst, withPort]⟩
  cases i <;> cases he
  case jmp.refl | je.refl | jne.refl | jl.refl | jle.refl | jg.refl | jge.refl => exact ⟨_, _, rfl, hjump _⟩
  case outlPort.refl => exact ⟨_, _, rfl, houtl _⟩
  all_goals exact ⟨_, _, rfl, fun _ => ⟨_, rfl⟩⟩

/-- Settles O11: the fetch at such an index is F1 (`fetchTick_fault`), and so is stage 0 of an instruction whose
extension word is missing (`firstStage_readsExt`, `withExt_none`). -/
theorem readsPastTheImageFault : Obligations.ReadsPastTheImageFault := by
  unfold Obligations.ReadsPastTheImageFault
  constructor
  · intro s hs hb hp hpast
    rw [step_of_fetch hs hb hp, fetchTick_fault (imemAt_past hpast), andThen_raise]
    rfl
  · intro i s he h hpast
    have hw : (sampleEvents s).imemAt (sampleEvents s).pc = none := imemAt_past (by simpa using hpast)
    obtain ⟨st, rest, hcode, hst⟩ := firstStage_readsExt he
    obtain ⟨k, hst⟩ := hst (sampleEvents s)
    rw [exec_eq_runStages, hcode, runStages_raise h (hst.trans (withExt_none hw k)), sampleEvents_pc]
    rfl

/-! ### The ticks of an instruction -/

/-- The stages an instruction has left, run to their end, took a tick each; HALT stops in its only stage. -/
theorem runFrom_ticks {i : Instr} (stages : List Stage) : ∀ {k : Nat} {s t : State},
    (microcode i).drop k = stages → s.status = .running → (stages = [] → s.phase = .fetch) →
    runFrom (microcode i).length k stages s = .next t →
    (t.status = .running → t.t = s.t + stages.length ∧ t.phase = .fetch) ∧
      (t.status = .halted → t.t = s.t + stages.length) := by
  induction stages with
  | nil =>
    intro k s t _ hs hp h
    cases h
    exact ⟨fun _ => ⟨rfl, hp rfl⟩, fun _ => rfl⟩
  | cons st rest ih =>
    intro k s t hdrop hs _ h
    obtain ⟨hst, hrest, hlen⟩ := of_drop_eq_cons hdrop
    by_cases hb : s.t = s.budget
    · cases (runFrom_budget hs hb).symm.trans h
      exact ⟨nofun, nofun⟩
    obtain ⟨u, hu, h⟩ := andThen_eq_next h
    rw [guarded_running hs hb] at hu
    rw [List.length_cons]
    obtain ⟨ht, -, ⟨hrun, hphase⟩ | ⟨hhalt, -, rfl⟩⟩ := execTick_leads hst hu hs
    · have hend : rest = [] → u.phase = .fetch := fun hnil => by
        rw [hphase, if_pos (by rw [hnil] at hlen; simpa using hlen)]
      obtain ⟨running, halted⟩ := ih hrest hrun hend h
      rw [show s.t + (rest.length + 1) = u.t + rest.length by omega]
      exact ⟨running, halted⟩
    · have hnil : rest.length = 0 := by
        have : (microcode .halt).length = 1 := rfl
        omega
      rw [runFrom_stopped (by simp [hhalt])] at h
      cases h
      exact ⟨fun hrun => by simp [hhalt] at hrun, fun _ => by omega⟩

/-- Settles O14: the fetch tick leads to stage 0 (`step_of_valid`), from which every stage takes a tick
(`runFrom_ticks`). -/
theorem instructionOccupiesItsTicks : Obligations.InstructionOccupiesItsTicks := by
  unfold Obligations.InstructionOccupiesItsTicks
  intro s t w i hs hp hw hd h
  by_cases hb : s.t = s.budget
  · cases (budgetEndsTheRun s hs hb).1.symm.trans h
    exact ⟨nofun, nofun⟩
  rw [step_of_valid hs hb hp hw hd, exec_eq_runStages, runStages] at h
  simp only [Phase.stage, List.drop_zero] at h
  split at h
  · cases h
  · next st rest hcode =>
    have hticks := runFrom_ticks _ (by rw [List.drop_zero, hcode]) (by simpa using hs) (by simp) h
    rw [← length_microcode, hcode]
    exact hticks

/-! ### Faults -/

/-- Past stage 0 no stage faults (R306). -/
theorem runFrom_ne_fault {i : Instr} {f : Fault} (stages : List Stage) : ∀ {k n : Nat} {s : State},
    (microcode i).drop k = stages → k ≠ 0 → runFrom n k stages s ≠ .fault f := by
  induction stages with
  | nil => exact fun _ _ => nofun
  | cons st rest ih =>
    intro k n s hdrop hk
    obtain ⟨hst, hrest, -⟩ := of_drop_eq_cons hdrop
    intro h
    rw [runFrom] at h
    obtain ⟨-, -, e⟩ | ⟨-, -, e⟩ | ⟨-, e⟩ := guarded_cases s (execTick n k st) <;> rw [e] at h
    case inr.inl | inr.inr => exact ih hrest (Nat.succ_ne_zero k) h
    cases htick : execTick n k st s with
    | next u =>
      rw [htick] at h
      exact ih hrest (Nat.succ_ne_zero k) h
    | fault f' =>
      obtain ⟨h0, -⟩ := execTick_fault_inv hst htick
      exact hk h0
    | refused x => exact execTick_ne_refused hst x htick

/-- R306: a fault is raised in the tick of stage 0, from the state after its sampling, with nothing changed but an
extension word that was read. -/
theorem exec_fault {i : Instr} {s : State} {f : Fault} (h : exec i s = .fault f) :
    s.phase.stage = 0 ∧ ∃ (r : FaultReason) (pc' : Word),
      f = faultOf r { sampleEvents s with pc := pc', status := .fault r } ∧
        (pc' = s.pc ∨ i.extWords = 1 ∧ pc' = s.pc + 1 ∧ s.pc.toNat < s.imem.length) := by
  rw [exec_eq_runStages, runStages] at h
  split at h
  · cases h
  · next st rest hdrop =>
    obtain ⟨hst, hrest, -⟩ := of_drop_eq_cons hdrop
    have hlater : ∀ u, runFrom (microcode i).length (s.phase.stage + 1) rest u ≠ .fault f := fun _ =>
      runFrom_ne_fault rest hrest (Nat.succ_ne_zero _)
    rw [runFrom] at h
    obtain ⟨-, -, e⟩ | ⟨-, -, e⟩ | ⟨-, e⟩ := guarded_cases s (execTick (microcode i).length s.phase.stage st) <;>
      rw [e] at h
    case inr.inl | inr.inr => exact absurd h (hlater _)
    cases htick : execTick (microcode i).length s.phase.stage st s with
    | next u =>
      rw [htick] at h
      exact absurd h (hlater u)
    | fault f' =>
      rw [htick] at h
      cases h
      exact execTick_fault_inv hst htick
    | refused x => exact absurd htick (execTick_ne_refused hst x)

/-- Settles O15: the final state of a fault is the one `exec_fault` writes out. -/
theorem faultsArePrecise : Obligations.FaultsArePrecise := by
  unfold Obligations.FaultsArePrecise
  intro i s f h
  obtain ⟨hstage, r, pc', rfl, hpc⟩ := exec_fault h
  have kept : KeptByStage (sampleEvents s) { sampleEvents s with pc := pc', status := .fault r } := by
    constructor <;> rfl
  rw [faultOf_final]
  exact ⟨hstage, ⟨r, rfl, rfl⟩, sampleEvents_regs s, sampleEvents_flags s, sampleEvents_dmem s, sampleEvents_outbuf s,
    ⟨sampleEvents_ie s, sampleEvents_insvc s⟩, ⟨sampleEvents_s0 s, sampleEvents_s1 s, sampleEvents_irPort s⟩,
    kept.neverWritten _ _, kept.onlyEvents _ _, sampleEvents_t s, sampleEvents_phase s, hpc⟩

/-! ### Loading a program -/

/-- A placed word stands at its index, whatever the image's length was. -/
theorem getElem?_placeWords (image ws : List Word) (i : Nat) (w : Word) :
    (placeWords image i (w :: ws))[i]? = some w := by
  have hlen : (image.take i ++ List.replicate (i - image.length) 0).length = i := by
    rw [List.length_append, List.length_take, List.length_replicate]
    omega
  rw [placeWords, List.append_assoc, List.getElem?_append_right hlen.le, hlen, Nat.sub_self]
  rfl

/-- Neither sampling nor the interrupt check reads the image, so the fetch index does not depend on it. -/
theorem fetchIndex_withImem (s : State) (image : List Word) : { s with imem := image }.fetchIndex = s.fetchIndex := by
  unfold State.fetchIndex interruptCheck
  rw [sampleEvents_eq, sampleEvents_eq]
  split <;> rfl

/-- Settles O22: the placed words stand at the index (`getElem?_placeWords`), which placing them does not move
(`fetchIndex_withImem`). -/
theorem placedWordIsFetchedNext : Obligations.PlacedWordIsFetchedNext := by
  unfold Obligations.PlacedWordIsFetchedNext
  intro s nbits w
  refine ⟨rfl, rfl, Nat.le_max_right _ _, ?_⟩
  rw [State.withFetchWord, fetchIndex_withImem]
  exact getElem?_placeWords _ _ _ _

end Sys2Proof.Machine
end

section
/-! PROOFS. The invariant of the machine's state: reset and boot establish it and every turn of the run loop keeps it
(spec/10_state.md R34; spec/40_engine.md R120; spec/60_exceptions.md R307). -/

namespace Sys2Proof.Machine

/-! ### Boot -/

/-- R307: the run parameters a machine can be built from. -/
theorem RunInput.wf_iff {r : RunInput} : r.wf = true ↔
    r.instrImage.length % 4 = 0 ∧ r.instrImage.length / 4 < 2 ^ 32 ∧ r.dataImage.length ≤ r.dmemSize ∧
      r.dmemSize ≤ 2 ^ 32 ∧ scheduleWf r.schedule = true ∧ r.vec0.isSome = true ∧ r.vec1.isSome = true := by
  simp [RunInput.wf, and_assoc]

/-- R307: input that boot answers with a machine is well-formed. -/
theorem wf_of_boot_next {r : RunInput} {s : State} (h : boot r = .next s) : r.wf = true := by
  obtain ⟨ws, v0, v1, hws, hlen, hdata, hsize, hsched, hv0, hv1, -⟩ := boot_next_inv h
  obtain ⟨hwords, -⟩ := wordsOfImage_spec hws
  exact RunInput.wf_iff.2 ⟨by omega, by omega, hdata, hsize, hsched, by simp [hv0], by simp [hv1]⟩

/-- R307: well-formed input is given a machine, since none of boot's refusals applies. -/
theorem boot_next_of_wf {r : RunInput} (h : r.wf = true) : ∃ s, boot r = .next s := by
  obtain ⟨hragged, hlong, hdata, hsize, hsched, hv0, hv1⟩ := RunInput.wf_iff.1 h
  obtain ⟨ws, hws, hlen, -⟩ := wordsOfImage_some r.instrImage hragged
  obtain ⟨ws', v0, v1, -, -, -, -, -, -, -, hb⟩ | ⟨hbad, -⟩ := boot_cases r
  · exact ⟨_, hb⟩
  · rcases hbad with hnone | ⟨ws', hws', hbad⟩ | hbad | hbad | hbad | hbad | hbad
    · exact absurd (hnone.symm.trans hws) nofun
    · cases hws.symm.trans hws'
      omega
    · omega
    · omega
    · exact absurd (hbad.symm.trans hsched) nofun
    · simp [hbad] at hv0
    · simp [hbad] at hv1

/-- Settles O17: `wf_of_boot_next` and `boot_next_of_wf`; boot answers a machine or a refusal (`boot_cases`). -/
theorem bootAcceptsExactlyWellFormedInput : Obligations.BootAcceptsExactlyWellFormedInput := by
  unfold Obligations.BootAcceptsExactlyWellFormedInput
  refine fun r => ⟨⟨fun ⟨_, h⟩ => wf_of_boot_next h, boot_next_of_wf⟩, fun f hf => ?_⟩
  obtain ⟨ws, v0, v1, -, -, -, -, -, -, -, hb⟩ | ⟨-, x, hb⟩ := boot_cases r <;> cases hb.symm.trans hf

/-- A fresh machine stands at tick 0 of a boundary, with no latch and no output, its data memory the data image and its
schedule the host's. -/
theorem freshMachine_inv {ws : List Word} {r : RunInput} {v0 v1 : Word} (hlen : ws.length < 2 ^ 32)
    (hdata : r.dataImage.length ≤ r.dmemSize) (hsize : r.dmemSize ≤ 2 ^ 32) : (freshMachine ws r v0 v1).Inv where
  dmemWf := Memory.ofBytes_wf r.dataImage
  dmemInside e he := by
    obtain ⟨hkey, -⟩ := Memory.mem_ofBytes he
    exact Nat.lt_of_lt_of_le hkey (by rwa [Nat.zero_add])
  dmemSizeMax := hsize
  imemShort := hlen
  latchWf := rfl
  latchPorts := nofun
  outbufWf := rfl
  schedAhead := keysRise_schedOf r.schedule
  stageLegal _ := nofun
  accessInside _ _ := nofun
  inBudget := Nat.zero_le r.budget
  notFaulted _ := nofun

/-- Settles O19: boot answers only fresh machines (`boot_next_inv`), and these meet the invariant
(`freshMachine_inv`). -/
theorem bootIsWellFormed : Obligations.BootIsWellFormed := by
  unfold Obligations.BootIsWellFormed
  intro r s h
  obtain ⟨ws, v0, v1, -, hlen, hdata, hsize, -, -, -, rfl⟩ := boot_next_inv h
  exact freshMachine_inv hlen hdata hsize

/-- Settles O16: boot evaluates to the reset state, which so meets the invariant (`bootIsWellFormed`). -/
theorem resetIsAWellFormedFreshMachine : Obligations.ResetIsAWellFormedFreshMachine := by
  unfold Obligations.ResetIsAWellFormedFreshMachine
  have hboot : boot ⟨[], [], [], Config.resetBudget, false, Config.resetDmemSize, some Config.vec0,
      some Config.vec1⟩ = .next State.reset := rfl
  exact ⟨bootIsWellFormed _ _ hboot, hboot⟩

/-! ### The turns of a step -/

/-- From `s` the run loop comes to `t` in some turns. -/
def Turns : State → State → Prop := Relation.ReflTransGen fun s u => runLoopTurn s = .next u

/-- The turns to a boundary end in the state they answer, or in one whose turn answers no state. -/
theorem ticksToBoundary_turns (n : Nat) : ∀ s : State,
    (∃ t, ticksToBoundary n s = .next t ∧ Turns s t) ∨
      ∃ u, Turns s u ∧ ticksToBoundary n s = runLoopTurn u ∧ ∀ t, runLoopTurn u ≠ .next t := by
  induction n with
  | zero => exact fun s => .inl ⟨s, rfl, .refl⟩
  | succ n ih =>
    intro s
    by_cases hnext : ∃ u, runLoopTurn s = .next u
    · obtain ⟨u, hu⟩ := hnext
      have hturn : Turns s u := .single hu
      by_cases hend : u.phase = .fetch ∨ u.status ≠ .running
      · exact .inl ⟨u, ticksToBoundary_ends hu hend, hturn⟩
      · obtain ⟨hphase, hs⟩ := not_or.1 hend
        cases hp : u.phase with
        | fetch => exact absurd hp hphase
        | exec k =>
          rw [ticksToBoundary_goesOn hu (not_not.1 hs) hp]
          exact (ih u).imp (fun ⟨t, ht, hrest⟩ => ⟨t, ht, hturn.trans hrest⟩)
            fun ⟨v, hrest, hv⟩ => ⟨v, hturn.trans hrest, hv⟩
    · have hstop := not_exists.1 hnext
      exact .inr ⟨s, .refl, ticksToBoundary_stops hstop, hstop⟩

/-- A step ends after some turns of the run loop: in the state it answers, or in one whose turn answers no state. -/
theorem step_turns (s : State) : (∃ t, step s = .next t ∧ Turns s t) ∨
    ∃ u, Turns s u ∧ step s = runLoopTurn u ∧ ∀ t, runLoopTurn u ≠ .next t := by
  rw [stepIsItsTicks s]
  exact ticksToBoundary_turns 5 s

theorem turns_of_step {s t : State} (h : step s = .next t) : Turns s t := by
  obtain ⟨t', ht', hturns⟩ | ⟨u, -, hu, hstop⟩ := step_turns s
  · cases ht'.symm.trans h
    exact hturns
  · exact absurd (hu.symm.trans h) (hstop t)

/-- A property of a state that every turn keeps is kept by all of them. -/
theorem Turns.keeps {P : State → Prop} (turn : ∀ s u, P s → runLoopTurn s = .next u → P u) {s t : State}
    (h : Turns s t) (hs : P s) : P t := by
  induction h with
  | refl => exact hs
  | tail _ hu ih => exact turn _ _ ih hu

/-- A turn is a fetch tick, the tick of a stage, the end of the budget, or nothing. -/
theorem turn_cases {s u : State} (h : runLoopTurn s = .next u) :
    (s.status = .running ∧ s.t ≠ s.budget ∧ fetchTick s = .next u) ∨
      (s.status = .running ∧ s.t ≠ s.budget ∧ ∃ i k st, s.phase = .exec k ∧ lookup s.ir = .ok i ∧
        (microcode i)[k]? = some st ∧ execTick (microcode i).length k st s = .next u) ∨
      (s.status = .running ∧ s.t = s.budget ∧ u = { s with status := .budget }) ∨ (s.status ≠ .running ∧ u = s) := by
  obtain ⟨hs, hb, e⟩ | ⟨hs, hb, e⟩ | ⟨hs, e⟩ := guarded_cases s tick
  · have htick : tick s = .next u := e.symm.trans h
    obtain ⟨-, e⟩ | ⟨i, k, st, hp, hi, hst, e⟩ | e := tick_cases s
    · exact .inl ⟨hs, hb, e.symm.trans htick⟩
    · exact .inr (.inl ⟨hs, hb, i, k, st, hp, hi, hst, e.symm.trans htick⟩)
    · cases e.symm.trans htick
  · cases e.symm.trans h
    exact .inr (.inr (.inl ⟨hs, hb, rfl⟩))
  · cases e.symm.trans h
    exact .inr (.inr (.inr ⟨hs, rfl⟩))

/-! ### The invariant -/

namespace State.Inv

variable {s u : State} (h : s.Inv)
include h

/-- R262, R263: the tick's sampling keeps the latches canonical and on ports 0 and 1, and leaves no event at the tick. -/
theorem sampled : tableWf 0#8 (sampleEvents s).latch = true ∧ (∀ e ∈ (sampleEvents s).latch, e.1 < 2) ∧
    keysRise (s.t + 1) (sampleEvents s).sched = true := by
  cases he : tableFind s.sched s.t with
  | none =>
    rw [sampleEvents_none he]
    exact ⟨h.latchWf, h.latchPorts, keysRise_of_find_none h.schedAhead he⟩
  | some e =>
    rw [sampleEvents_some he]
    refine ⟨tableWrite_wf _ _ _ h.latchWf, fun c hc => ?_, keysRise_erase h.schedAhead⟩
    rcases mem_tableWrite _ _ _ hc with hc | ⟨rfl, -⟩
    · exact h.latchPorts c hc
    · cases e.line <;> simp [linePort]

/-- The status alone is changed at the end of the budget. -/
theorem endBudget : State.Inv { s with status := .budget } :=
  { h with notFaulted := nofun }

/-- A tick within the budget keeps the invariant when it keeps what is its own part of it. -/
theorem afterTick (hb : s.t ≠ s.budget) (ht : u.t = s.t + 1) (hlatch : u.latch = (sampleEvents s).latch)
    (hsched : u.sched = (sampleEvents s).sched) (himem : u.imem = s.imem) (hsize : u.dmemSize = s.dmemSize)
    (hbudget : u.budget = s.budget) (hdmemWf : Memory.wf u.dmem = true) (hdmem : ∀ e ∈ u.dmem, e.1 < s.dmemSize)
    (houtbuf : tableWf [] u.outbuf = true)
    (hstage : ∀ k, u.phase = .exec k → ∃ i, lookup u.ir = .ok i ∧ k < i.stages)
    (haccess : ∀ k i, u.phase = .exec (k + 1) → lookup u.ir = .ok i → i.stages = 4 → u.s0.toNat + 4 ≤ s.dmemSize)
    (hstatus : ∀ r, u.status ≠ .fault r) : u.Inv := by
  obtain ⟨latchWf, latchPorts, schedAhead⟩ := h.sampled
  exact {
    dmemWf := hdmemWf
    dmemInside := hsize ▸ hdmem
    dmemSizeMax := hsize ▸ h.dmemSizeMax
    imemShort := himem ▸ h.imemShort
    latchWf := hlatch ▸ latchWf
    latchPorts := hlatch ▸ latchPorts
    outbufWf := houtbuf
    schedAhead := by rw [ht, hsched]; exact schedAhead
    stageLegal := hstage
    accessInside := hsize ▸ haccess
    inBudget := by have := h.inBudget; omega
    notFaulted := hstatus }

/-- The fetch tick keeps the invariant. -/
theorem fetchTick_keeps (hs : s.status = .running) (hb : s.t ≠ s.budget) (hu : fetchTick s = .next u) : u.Inv := by
  obtain ⟨w, -, ⟨i, hd, rfl⟩ | ⟨op, mode, -, rfl⟩⟩ := fetchTick_next hu
  · obtain ⟨hpos, -⟩ := stages_bounds i
    have hstage : ∀ k, Phase.exec 0 = .exec k → ∃ i, lookup (fieldsOf w) = .ok i ∧ k < i.stages := by
      rintro k ⟨⟩
      exact ⟨i, hd, hpos⟩
    exact h.afterTick hb (by simp) (by simp) (by simp) (by simp) (by simp) (by simp) (by simpa using h.dmemWf)
      (by simpa using h.dmemInside) (by simpa using h.outbufWf) hstage nofun (by simp [hs])
  · exact h.afterTick hb (by simp) (by simp) (by simp) (by simp) (by simp) (by simp) (by simpa using h.dmemWf)
      (by simpa using h.dmemInside) (by simpa using h.outbufWf) nofun nofun (by simp [hs])

/-- The tick of a stage keeps the invariant: the stage stays inside the access that stage 0 has checked, and is followed
by the next one, or by a boundary. -/
theorem execTick_keeps {i : Instr} {k : Nat} {st : Stage} (hs : s.status = .running) (hb : s.t ≠ s.budget)
    (hp : s.phase = .exec k) (hi : lookup s.ir = .ok i) (hst : (microcode i)[k]? = some st)
    (hu : execTick (microcode i).length k st s = .next u) : u.Inv := by
  have hk : k < (microcode i).length := (List.getElem?_eq_some_iff.1 hst).1
  obtain ⟨ht, hir, hlead⟩ := execTick_leads hst hu hs
  have hnext : ∀ k', u.phase = .exec k' → k' < (microcode i).length := by
    intro k' hk'
    obtain ⟨-, hphase⟩ | ⟨-, hphase, -⟩ := hlead
    · rw [hphase] at hk'
      split at hk' <;> cases hk'
      omega
    · cases hp.symm.trans (hphase.symm.trans hk')
      exact hk
  have hchecked : k ≠ 0 → i.stages = 4 → (sampleEvents s).s0.toNat + 4 ≤ (sampleEvents s).dmemSize := by
    intro hk0 hfour
    obtain ⟨k, rfl⟩ := Nat.exists_eq_succ_of_ne_zero hk0
    simpa using h.accessInside k i hp hi hfour
  obtain ⟨v, law, rfl⟩ := execTick_next_inv hst hu
  have kept := law.kept
  refine h.afterTick hb ht (by simp [kept.latch]) (by simp [kept.sched]) (by simp [kept.imem])
    (by simp [kept.dmemSize]) (by simp [kept.budget]) ?dmemWf ?dmem ?outbuf ?stage ?access ?status
  case dmemWf => simpa using law.dmemWf (by simpa using h.dmemWf)
  case dmem => simpa using law.dmemInside hchecked (by simpa using h.dmemInside)
  case outbuf => simpa using law.outbufWf (by simpa using h.outbufWf)
  case stage => exact fun k' hk' => ⟨i, hir ▸ hi, length_microcode i ▸ hnext k' hk'⟩
  case access =>
    intro _ i' _ hi' hfour
    rw [hir, hi] at hi'
    cases hi'
    simpa using law.access hfour fun hk0 => hchecked hk0 hfour
  case status =>
    intro r hfault
    obtain ⟨hstatus, -⟩ | ⟨hstatus, -, -⟩ := hlead <;> cases hstatus.symm.trans hfault

/-- Every turn of the run loop keeps the invariant. -/
theorem turn_keeps (hu : runLoopTurn s = .next u) : u.Inv := by
  obtain ⟨hs, hb, hf⟩ | ⟨hs, hb, i, k, st, hp, hi, hst, hx⟩ | ⟨-, -, rfl⟩ | ⟨-, rfl⟩ := turn_cases hu
  · exact h.fetchTick_keeps hs hb hf
  · exact h.execTick_keeps hs hb hp hi hst hx
  · exact h.endBudget
  · exact h

/-- The stage that a legal phase names is there to run, so no turn is refused (log 12). -/
theorem turn_ne_refused (x : Refusal) : runLoopTurn s ≠ .refused x := by
  obtain ⟨-, -, e⟩ | ⟨-, -, e⟩ | ⟨-, e⟩ := guarded_cases s tick <;> rw [runLoopTurn, e]
  case inr.inl | inr.inr => nofun
  cases hp : s.phase with
  | fetch =>
    rw [tick_of_fetch hp]
    obtain ⟨u, hu⟩ | hr := fetchTick_cases s
    · simp [hu]
    · rw [hr]
      exact raise_ne_refused _ _ _
  | exec k =>
    obtain ⟨i, hi, hk⟩ := h.stageLegal k hp
    rw [← length_microcode] at hk
    have hst := List.getElem?_eq_getElem hk
    rw [tick_of_stage hp hi hst]
    exact execTick_ne_refused hst x

end State.Inv

/-- Settles O20: a step is turns of the run loop (`turns_of_step`), and each keeps the invariant (`State.Inv.turn_keeps`). -/
theorem stepKeepsWellFormed : Obligations.StepKeepsWellFormed := by
  unfold Obligations.StepKeepsWellFormed
  intro s t h hstep
  exact (turns_of_step hstep).keeps (fun _ _ => State.Inv.turn_keeps) h

/-- Settles O21: a refused step would have a refused turn (`step_turns`) in a state that meets the invariant
(`State.Inv.turn_keeps`), which has none (`State.Inv.turn_ne_refused`). -/
theorem wellFormedStepIsNeverRefused : Obligations.WellFormedStepIsNeverRefused := by
  unfold Obligations.WellFormedStepIsNeverRefused
  intro s x h hrefused
  obtain ⟨t, ht, -⟩ | ⟨u, hturns, hu, -⟩ := step_turns s
  · cases ht.symm.trans hrefused
  · exact (hturns.keeps (fun _ _ => State.Inv.turn_keeps) h).turn_ne_refused x (hu.symm.trans hrefused)

end Sys2Proof.Machine
end

section
/-! PROOFS. What instructions and steps never write, and what only grows (spec/10_state.md R25 to R29; spec/20_memory.md
R50; spec/44_io.md R265). -/

namespace Sys2Proof.Machine

/-! ### What an instruction leaves alone -/

/-- A field that every stage's tick leaves alone, unless `P` holds, is left alone by the instruction unless `P` holds. -/
theorem exec_keeps_field {α : Type} {i : Instr} {P : Prop} (field : State → α)
    (budget : ∀ s, field { s with status := .budget } = field s)
    (stage : ∀ n k s u, StageNext i k (sampleEvents s) u →
      field { completeStage n k u with t := u.t + 1 } = field s ∨ P)
    {s t : State} (h : exec i s = .next t) : field t = field s ∨ P := by
  refine exec_rel (fun s t => field t = field s ∨ P) (fun _ => .inl rfl) ?trans (fun s => .inl (budget s)) stage h
  intro s u t hsu hut
  rcases hsu with hsu | hP
  · rcases hut with hut | hP
    · exact .inl (hut.trans hsu)
    · exact .inr hP
  · exact .inr hP

section
variable {i : Instr} {s t : State} (h : exec i s = .next t)
include h

theorem exec_flags : t.flags = s.flags ∨ isAlu i = true ∨ i = .iret :=
  exec_keeps_field State.flags (fun _ => rfl) (fun _ _ _ _ law => by simpa using law.flags) h

theorem exec_ie : t.ie = s.ie ∨ i = .ei ∨ i = .di :=
  exec_keeps_field State.ie (fun _ => rfl) (fun _ _ _ _ law => by simpa using law.ie) h

theorem exec_insvc : t.insvc = s.insvc ∨ i = .iret :=
  exec_keeps_field State.insvc (fun _ => rfl) (fun _ _ _ _ law => by simpa using law.insvc.imp id And.left) h

theorem exec_snap : t.snap = s.snap := by
  have hsnap := exec_keeps_field (P := False) State.snap (fun _ => rfl)
    (fun _ _ _ _ law => by simpa using law.kept.snap) h
  simpa using hsnap

end

/-- The instructions of spec/42_alu.md, one by one. -/
theorem eq_of_isAlu {i : Instr} (h : isAlu i = true) :
    (∃ rd rs1 rs2, i = .addReg rd rs1 rs2 ∨ i = .subReg rd rs1 rs2 ∨ i = .mulReg rd rs1 rs2 ∨ i = .divReg rd rs1 rs2) ∨
      (∃ rd rs1, i = .addImm rd rs1 ∨ i = .subImm rd rs1 ∨ i = .mulImm rd rs1 ∨ i = .divImm rd rs1) ∨
      (∃ rs1 rs2, i = .cmpReg rs1 rs2) ∨ ∃ rs1, i = .cmpImm rs1 := by
  cases i <;> cases h <;> simp

/-- Settles O54: `exec_flags` over all stages, and `eq_of_isAlu`. -/
theorem onlyAluAndIretWriteFlags : Obligations.OnlyAluAndIretWriteFlags := by
  unfold Obligations.OnlyAluAndIretWriteFlags
  intro i s t h hflags
  rcases exec_flags h with hsame | halu | hiret
  · exact absurd hsame hflags
  · rcases eq_of_isAlu halu with h3 | h2 | hreg | himm
    · exact .inl h3
    · exact .inr (.inl h2)
    · exact .inr (.inr (.inl hreg))
    · exact .inr (.inr (.inr (.inl himm)))
  · exact .inr (.inr (.inr (.inr hiret)))

/-- Settles O55: `exec_ie`, `exec_insvc` and `exec_snap` over all stages. -/
theorem onlyTheirInstructionsWriteInterruptControl : Obligations.OnlyTheirInstructionsWriteInterruptControl := by
  unfold Obligations.OnlyTheirInstructionsWriteInterruptControl
  intro i s t h
  exact ⟨fun hie => (exec_ie h).resolve_left hie, fun hinsvc => (exec_insvc h).resolve_left hinsvc, exec_snap h⟩

/-! ### What a step leaves alone -/

/-- Instruction memory and the run parameters (R6, R50). -/
def State.parameters (s : State) : List Word × Nat × Word × Word × Nat :=
  (s.imem, s.dmemSize, s.vec0, s.vec1, s.budget)

theorem fetchTick_parameters {s u : State} (h : fetchTick s = .next u) : u.parameters = s.parameters := by
  obtain ⟨w, -, ⟨i, -, rfl⟩ | ⟨op, mode, -, rfl⟩⟩ := fetchTick_next h <;> simp [State.parameters]

theorem exec_parameters {i : Instr} {s t : State} (h : exec i s = .next t) : t.parameters = s.parameters := by
  have hparams := exec_keeps_field (P := False) State.parameters (fun _ => rfl) (fun _ _ _ _ law => by
    obtain ⟨-, -, -, -, -, -, -, -, himem, -, hsize, hvec0, hvec1, hbudget⟩ := law.kept
    simp [State.parameters, himem, hsize, hvec0, hvec1, hbudget]) h
  simpa using hparams

/-- Settles O56: neither the fetch tick (`fetchTick_parameters`) nor an instruction (`exec_parameters`) writes them. -/
theorem instructionMemoryIsNeverWritten : Obligations.InstructionMemoryIsNeverWritten := by
  unfold Obligations.InstructionMemoryIsNeverWritten
  intro s t h
  have hparams : t.parameters = s.parameters :=
    step_rel (fun s t => t.parameters = s.parameters) (fun _ => rfl) (fun _ _ _ hsu hut => hut.trans hsu)
      (fun _ => rfl) (fun _ _ => fetchTick_parameters) (fun _ _ _ => exec_parameters) h
  simpa [State.parameters] using hparams

/-! ### The output buffers -/

/-- R265: the canonical form of the output buffers is kept and no byte already there is removed or changed. -/
def OutputGrows (s t : State) : Prop :=
  tableWf [] s.outbuf = true → tableWf [] t.outbuf = true ∧ ∀ p, s.output p <+: t.output p

theorem OutputGrows.of_outbuf {s t : State} (h : t.outbuf = s.outbuf) : OutputGrows s t :=
  fun hwf => ⟨h ▸ hwf, fun p => by rw [State.output, State.output, h]⟩

theorem OutputGrows.trans {s u t : State} (hsu : OutputGrows s u) (hut : OutputGrows u t) : OutputGrows s t := by
  intro hwf
  obtain ⟨huwf, hsu⟩ := hsu hwf
  obtain ⟨htwf, hut⟩ := hut huwf
  exact ⟨htwf, fun p => (hsu p).trans (hut p)⟩

theorem StageNext.outputGrows {i : Instr} {k : Nat} {s u : State} (law : StageNext i k s u) : OutputGrows s u :=
  fun hwf => ⟨law.outbufWf hwf, law.outbufGrows hwf⟩

/-- Neither the sampling before a stage nor the completion after it writes an output buffer. -/
theorem outputGrows_execTick {i : Instr} (n k : Nat) (s u : State) (law : StageNext i k (sampleEvents s) u) :
    OutputGrows s { completeStage n k u with t := u.t + 1 } :=
  (OutputGrows.of_outbuf (sampleEvents_outbuf s)).trans
    (law.outputGrows.trans (.of_outbuf (completeStage_outbuf n k u)))

theorem exec_outputGrows {i : Instr} {s t : State} (h : exec i s = .next t) : OutputGrows s t :=
  exec_rel OutputGrows (fun _ => .of_outbuf rfl) (fun _ _ _ => .trans) (fun _ => .of_outbuf rfl)
    outputGrows_execTick h

theorem fetchTick_outputGrows {s u : State} (h : fetchTick s = .next u) : OutputGrows s u := by
  obtain ⟨w, -, ⟨i, -, rfl⟩ | ⟨op, mode, -, rfl⟩⟩ := fetchTick_next h <;> exact .of_outbuf (by simp)

/-- Settles O46: no stage shortens a buffer (`exec_outputGrows`), and a fetch tick writes none. -/
theorem outputBuffersOnlyGrow : Obligations.OutputBuffersOnlyGrow := by
  unfold Obligations.OutputBuffersOnlyGrow
  intro s t hwf h
  have hgrows : OutputGrows s t :=
    step_rel OutputGrows (fun _ => .of_outbuf rfl) (fun _ _ _ => .trans) (fun _ => .of_outbuf rfl)
      (fun _ _ => fetchTick_outputGrows) (fun _ _ _ => exec_outputGrows) h
  exact (hgrows hwf).2

end Sys2Proof.Machine
end

section
/-! PROOFS. The events that a step samples (spec/44_io.md R262, R263). -/

namespace Sys2Proof.Machine

/-! ### The passing of ticks -/

theorem passTicks_add (m : Nat) : ∀ (n : Nat) (s : State), passTicks (n + m) s = passTicks m (passTicks n s)
  | 0, s => by rw [Nat.zero_add, passTicks]
  | n + 1, s => by rw [Nat.add_right_comm, passTicks, passTicks, passTicks_add m n]

/-- R262: what the sampling of the next ticks leaves depends on the clock, the schedule and the latches alone. -/
theorem passTicks_congr : ∀ (n : Nat) {s s' : State}, s'.t = s.t → s'.latch = s.latch → s'.sched = s.sched →
    (passTicks n s').latch = (passTicks n s).latch ∧ (passTicks n s').sched = (passTicks n s).sched
  | 0, _, _, _, hlatch, hsched => ⟨hlatch, hsched⟩
  | n + 1, s, s', ht, hlatch, hsched => by
    refine passTicks_congr n ?t ?latch ?sched
    case t => simp [ht]
    case latch => simp [sampleEvents_eq, ht, hlatch, hsched]
    case sched => simp [sampleEvents_eq, ht, hsched]

/-- R263: after `n` ticks the entries of these ticks, and no others, have left the schedule. -/
theorem tableFind_sched_passTicks (m : Nat) (s : State) : ∀ n : Nat, tableFind (passTicks n s).sched m =
    if s.t ≤ m ∧ m < s.t + n then none else tableFind s.sched m
  | 0 => by rw [if_neg (by omega), passTicks]
  | n + 1 => by
    rw [passTicks_succ]
    simp only [tableFind_sched_sampleEvents, passTicks_t, tableFind_sched_passTicks m s n]
    by_cases hm : m = s.t + n
    · rw [if_pos hm, if_pos (by omega)]
    · rw [if_neg hm]
      by_cases hin : s.t ≤ m ∧ m < s.t + n
      · rw [if_pos hin, if_pos (by omega)]
      · rw [if_neg hin, if_neg (by omega)]

/-! ### The ticks of a step -/

/-- From `s` to `t` the ticks up to, not with, the one `t` shows have been sampled, and no other. -/
structure SampledTo (s t : State) : Prop where
  forward : s.t ≤ t.t
  latch : t.latch = (passTicks (t.t - s.t) s).latch
  sched : t.sched = (passTicks (t.t - s.t) s).sched

/-- Nothing is sampled while the clock, the latches and the schedule stand still. -/
theorem SampledTo.of_same {s t : State} (ht : t.t = s.t) (hlatch : t.latch = s.latch) (hsched : t.sched = s.sched) :
    SampledTo s t where
  forward := ht.ge
  latch := by rw [ht, Nat.sub_self, hlatch, passTicks]
  sched := by rw [ht, Nat.sub_self, hsched, passTicks]

/-- One tick samples its own events. -/
theorem SampledTo.of_tick {s t : State} (ht : t.t = s.t + 1) (hlatch : t.latch = (sampleEvents s).latch)
    (hsched : t.sched = (sampleEvents s).sched) : SampledTo s t where
  forward := by omega
  latch := by rw [ht, Nat.add_sub_cancel_left, hlatch, passTicks, passTicks]
  sched := by rw [ht, Nat.add_sub_cancel_left, hsched, passTicks, passTicks]

theorem SampledTo.trans {s u t : State} (hsu : SampledTo s u) (hut : SampledTo u t) : SampledTo s t := by
  have hforward := hsu.forward
  have hforward' := hut.forward
  have hclock : u.t = (passTicks (u.t - s.t) s).t := by rw [passTicks_t]; omega
  obtain ⟨hlatch, hsched⟩ := passTicks_congr (t.t - u.t) hclock hsu.latch hsu.sched
  have hticks : t.t - s.t = (u.t - s.t) + (t.t - u.t) := by omega
  exact ⟨by omega, by rw [hut.latch, hlatch, hticks, passTicks_add], by rw [hut.sched, hsched, hticks, passTicks_add]⟩

/-- A turn of the run loop samples the events of its own tick, if it runs one. -/
theorem sampledTo_turn {s u : State} (h : runLoopTurn s = .next u) : SampledTo s u := by
  obtain ⟨-, -, hf⟩ | ⟨hs, -, i, k, st, -, -, hst, hx⟩ | ⟨-, -, rfl⟩ | ⟨-, rfl⟩ := turn_cases h
  · obtain ⟨w, -, ⟨i, -, rfl⟩ | ⟨op, mode, -, rfl⟩⟩ := fetchTick_next hf <;>
      exact .of_tick (by simp) (by simp) (by simp)
  · obtain ⟨v, law, rfl⟩ := execTick_next_inv hst hx
    exact .of_tick (by simp [law.kept.t]) (by simp [law.kept.latch]) (by simp [law.kept.sched])
  · exact .of_same rfl rfl rfl
  · exact .of_same rfl rfl rfl

theorem sampledTo_turns {s t : State} (h : Turns s t) : SampledTo s t :=
  h.keeps (P := SampledTo s) (fun _ _ hsu hut => hsu.trans (sampledTo_turn hut)) (.of_same rfl rfl rfl)

/-- A fault's tick has sampled its own events, and does not count (R120, log 9). -/
theorem fault_turn {s : State} {f : Fault} (h : runLoopTurn s = .fault f) :
    f.final.t = s.t ∧ f.final.latch = (sampleEvents s).latch ∧ f.final.sched = (sampleEvents s).sched := by
  obtain ⟨hs, hb, e⟩ | ⟨-, -, e⟩ | ⟨-, e⟩ := guarded_cases s tick
  case inr.inl | inr.inr => cases e.symm.trans h
  have htick : tick s = .fault f := e.symm.trans h
  obtain ⟨-, e⟩ | ⟨i, k, st, -, -, hst, e⟩ | e := tick_cases s
  · obtain ⟨u, hu⟩ | hr := fetchTick_cases s
    · cases hu.symm.trans (e.symm.trans htick)
    · cases hr.symm.trans (e.symm.trans htick)
      simp
  · obtain ⟨-, r, pc', rfl, -⟩ := execTick_fault_inv hst (e.symm.trans htick)
    simp
  · cases e.symm.trans htick

/-- Settles O58: a step's turns sample their own ticks (`sampledTo_turns`), a faulting turn its own too (`fault_turn`),
and the entries of the sampled ticks are those that leave the schedule (`tableFind_sched_passTicks`). -/
theorem eventsFireOnceInTheirOwnTick : Obligations.EventsFireOnceInTheirOwnTick := by
  unfold Obligations.EventsFireOnceInTheirOwnTick
  intro s
  constructor
  · intro t h
    obtain ⟨hforward, hlatch, hsched⟩ := sampledTo_turns (turns_of_step h)
    refine ⟨hforward, hlatch, fun n => ?_⟩
    rw [hsched, tableFind_sched_passTicks, Nat.add_sub_cancel' hforward]
  · intro f h
    obtain ⟨t, ht, -⟩ | ⟨u, hturns, hu, -⟩ := step_turns s
    · cases ht.symm.trans h
    obtain ⟨ht, hlatch, hsched⟩ := fault_turn (hu.symm.trans h)
    have hforward := (sampledTo_turns hturns).forward
    have hsampled : SampledTo s { f.final with t := f.final.t + 1 } :=
      (sampledTo_turns hturns).trans (.of_tick (congrArg (· + 1) ht) hlatch hsched)
    refine ⟨by omega, hsampled.latch, fun n => ?_⟩
    have hentries := tableFind_sched_passTicks n s (f.final.t + 1 - s.t)
    rw [← hsampled.sched, Nat.add_sub_cancel' hsampled.forward] at hentries
    simpa only [Nat.lt_succ_iff] using hentries

end Sys2Proof.Machine
end

section
/-! PROOFS. EI and DI as they write IE, and the return from a handler (spec/43_interrupt_control.md R240 to R245;
spec/60_exceptions.md R312 to R314). -/

namespace Sys2Proof.Machine

/-! ### EI and DI -/

/-- What the tick of EI or DI leaves: IE alone is written. -/
theorem enable_frame {i : Instr} {on : Bool} {s : State} (h : Runs 1 s)
    (hi : exec i s = .next { sampleEvents s with ie := on, phase := .fetch, t := (sampleEvents s).t + 1 }) :
    ∃ t, exec i s = .next t ∧ t.ie = on ∧ t.insvc = s.insvc ∧ t.pc = s.pc ∧ t.flags = s.flags ∧ Completed 1 s t ∧
      OtherRegs [] s t ∧ SameMemory s t ∧ SameOutput s t ∧ SameScratch s t := by
  have kept : KeptByStage (sampleEvents s) { sampleEvents s with ie := on } := by constructor <;> rfl
  exact ⟨_, hi, rfl, sampleEvents_insvc s, sampleEvents_pc s, sampleEvents_flags s, kept.completed h.sampled_running,
    otherRegs_of_regs (sampleEvents_regs s) [], sameMemory_of_dmem (sampleEvents_dmem s),
    sameOutput_of_outbuf (sampleEvents_outbuf s), sampleEvents_s0 s, sampleEvents_s1 s, sampleEvents_irPort s⟩

/-- Settles O47: `exec_ei` and `exec_di` are the whole next state. -/
theorem eiAndDiWriteOnlyTheEnable : Obligations.EiAndDiWriteOnlyTheEnable := by
  unfold Obligations.EiAndDiWriteOnlyTheEnable
  refine ⟨by decide, by decide, ?_⟩
  rintro s i on h (⟨rfl, rfl⟩ | ⟨rfl, rfl⟩)
  · exact enable_frame h (exec_ei h)
  · exact enable_frame h (exec_di h)

/-! ### IRET -/

/-- R244: the return's stage in a handler. -/
theorem returnFromInterrupt_inService {s : State} {c : Snap} (h : s.insvc = true) (hc : s.snap = c) :
    returnFromInterrupt s = .next { s with pc := c.pc, flags := c.flags, regs := c.regs, insvc := false } := by
  rw [← hc]
  exact if_neg (by simp [h])

/-- R245: the return's stage outside a handler. -/
theorem returnFromInterrupt_outside {s : State} (h : s.insvc = false) :
    returnFromInterrupt s = raise .iretNotInService s := if_pos h

/-- R244: IRET's tick in a handler is its sampling, the snapshot brought back, and the completion of its stage. -/
theorem exec_iret {s : State} (h : Runs 1 s) (hinsvc : s.insvc = true) : exec .iret s =
    .next { sampleEvents s with
      pc := s.snap.pc, flags := s.snap.flags, regs := s.snap.regs, insvc := false, phase := .fetch,
      t := (sampleEvents s).t + 1 } :=
  runStages_one h (returnFromInterrupt_inService (by simpa using hinsvc) (sampleEvents_snap s)) h.sampled_running

/-- Settles O49: `exec_iret` is the whole next state. -/
theorem iretRestoresTheSnapshot : Obligations.IretRestoresTheSnapshot := by
  unfold Obligations.IretRestoresTheSnapshot
  intro s h hinsvc
  have kept : KeptByStage (sampleEvents s) { sampleEvents s with
      pc := s.snap.pc, flags := s.snap.flags, regs := s.snap.regs, insvc := false } := by constructor <;> rfl
  exact ⟨_, exec_iret h hinsvc, rfl, rfl, fun _ => rfl, rfl, sampleEvents_ie s, kept.completed h.sampled_running,
    sameMemory_of_dmem (sampleEvents_dmem s), sameOutput_of_outbuf (sampleEvents_outbuf s), sampleEvents_s0 s,
    sampleEvents_s1 s, sampleEvents_irPort s⟩

/-- Settles O50: the stage raises F3 in the state after its tick's sampling (`returnFromInterrupt_outside`). -/
theorem iretOutsideAHandlerFaults : Obligations.IretOutsideAHandlerFaults := by
  unfold Obligations.IretOutsideAHandlerFaults
  intro s h hinsvc
  exact runStages_raise h (returnFromInterrupt_outside (by simpa using hinsvc))

/-- Settles O52: the snapshot taken at the entry is pc, flags and registers of `s`, and IRET brings the snapshot back
(`iretRestoresTheSnapshot`). -/
theorem handlerReturnsToTheInterruptedProgram : Obligations.HandlerReturnsToTheInterruptedProgram := by
  unfold Obligations.HandlerReturnsToTheInterruptedProgram
  intro s h hpend hie hinsvc hsnap hinHandler hruns
  rw [interruptCheck_enters hpend (by simpa using hie) (by simpa using hinsvc), enterInterrupt_snap] at hsnap
  obtain ⟨t, ht, hpc, hflags, hregs, hout, -⟩ := iretRestoresTheSnapshot h hruns hinHandler
  refine ⟨t, ht, ?pc, ?flags, ?regs, hout⟩
  case pc => simp [hpc, hsnap]
  case flags => simp [hflags, hsnap]
  case regs =>
    intro r
    rw [hregs, hsnap]
    exact sampleEvents_reg s r

/-! ### Inside a handler -/

/-- An instruction of one stage that goes on has run that stage's tick, was cut by the budget, or had stopped before. -/
theorem runStages_single_next {st : Stage} {s t : State} (h : runStages [st] s = .next t) :
    execTick 1 0 st s = .next t ∨ t = { s with status := .budget } ∨ t = s := by
  cases hstage : s.phase.stage with
  | zero =>
    obtain ⟨u, hu, ht⟩ := andThen_eq_next ((runStages_start hstage st []).symm.trans h)
    cases ht
    obtain ⟨-, -, e⟩ | ⟨-, -, e⟩ | ⟨-, e⟩ := guarded_cases s (execTick 1 0 st)
    · exact .inl (e.symm.trans hu)
    · cases e.symm.trans hu
      exact .inr (.inl rfl)
    · cases e.symm.trans hu
      exact .inr (.inr rfl)
  | succ k =>
    rw [runStages, hstage, List.drop_succ_cons, List.drop_nil] at h
    cases h

/-- What R314 says of the way from `s` to `t`: SNAP is untouched, and leaving the handler has restored it. -/
def LeavesByReturn (s t : State) : Prop :=
  t.snap = s.snap ∧ (t.insvc = false → t.pc = s.snap.pc ∧ t.flags = s.snap.flags ∧ t.regs = s.snap.regs)

/-- In a handler IRET alone clears INSVC, and it has restored the snapshot. -/
theorem exec_inHandler {i : Instr} {s t : State} (hinsvc : s.insvc = true) (h : exec i s = .next t) :
    LeavesByReturn s t := by
  refine ⟨exec_snap h, fun hout => ?_⟩
  obtain hsame | rfl := exec_insvc h
  · rw [hsame, hinsvc] at hout
    cases hout
  obtain htick | rfl | rfl := runStages_single_next h
  · have hstage := returnFromInterrupt_inService (s := sampleEvents s) (by simpa using hinsvc) (sampleEvents_snap s)
    cases (execTick_next hstage).symm.trans htick
    simp
  · cases hinsvc.symm.trans hout
  · cases hinsvc.symm.trans hout

/-- R314: in a handler the boundary check enters nothing. -/
theorem fetchTick_inHandler {s u : State} (hinsvc : s.insvc = true) (h : fetchTick s = .next u) :
    u.snap = s.snap ∧ u.insvc = true := by
  have hcheck : interruptCheck (sampleEvents s) = sampleEvents s := interruptCheck_passes (by simp [hinsvc])
  obtain ⟨w, -, ⟨i, -, rfl⟩ | ⟨op, mode, -, rfl⟩⟩ := fetchTick_next h <;> simp [hcheck, hinsvc]

/-- The rest of an instruction in a handler. -/
theorem resume_inHandler {s t : State} (hinsvc : s.insvc = true) (h : resume s = .next t) : LeavesByReturn s t := by
  unfold resume at h
  split at h
  · cases h
    exact ⟨rfl, fun hout => absurd (hinsvc.symm.trans hout) nofun⟩
  · split at h
    · exact exec_inHandler hinsvc h
    · cases h

/-- Settles O53: in a handler the fetch tick enters nothing (`fetchTick_inHandler`) and the instruction leaves it by IRET
alone (`exec_inHandler`). -/
theorem interruptsDoNotNest : Obligations.InterruptsDoNotNest := by
  unfold Obligations.InterruptsDoNotNest
  intro s t hinsvc h
  obtain ⟨-, -, -, e⟩ | ⟨-, -, -, e⟩ | ⟨-, -, e⟩ | ⟨-, e⟩ := step_cases s
  · obtain ⟨u, hu, hrest⟩ := andThen_eq_next (e.symm.trans h)
    obtain ⟨hsnap, hu⟩ := fetchTick_inHandler hinsvc hu
    rw [← hsnap]
    exact resume_inHandler hu hrest
  · exact resume_inHandler hinsvc (e.symm.trans h)
  · cases e.symm.trans h
    exact ⟨rfl, fun hout => absurd (hinsvc.symm.trans hout) nofun⟩
  · cases e.symm.trans h
    exact ⟨rfl, fun hout => absurd (hinsvc.symm.trans hout) nofun⟩

end Sys2Proof.Machine
end

section
/-! PROOFS. The scratch registers, IR and OUTL's held port are hidden at boundaries (spec/10_state.md R23;
spec/60_exceptions.md R332): two machines that differ in nothing else take every step alike. -/

namespace Sys2Proof.Machine

/-! ### States that differ in the hidden fields -/

/-- `s` with other values in the scratch registers, OUTL's held port and IR. -/
def State.hidden (s : State) (a b p : Word) (f : Fields) : State := { s with s0 := a, s1 := b, irPort := p, ir := f }

theorem sameButScratch_iff {s t : State} : SameButScratch s t ↔ ∃ a b p f, t = s.hidden a b p f := Iff.rfl

section
variable (s : State) (a b p : Word) (f : Fields)

theorem sameButScratch_hidden : SameButScratch s (s.hidden a b p f) := ⟨a, b, p, f, rfl⟩

theorem sampleEvents_hidden : sampleEvents (s.hidden a b p f) = (sampleEvents s).hidden a b p f := by
  rw [sampleEvents_eq, sampleEvents_eq]
  rfl

theorem interruptCheck_hidden : interruptCheck (s.hidden a b p f) = (interruptCheck s).hidden a b p f := by
  by_cases h : s.pend = true ∧ s.ie = true ∧ s.insvc = false
  · obtain ⟨hpend, hie, hinsvc⟩ := h
    rw [interruptCheck_enters hpend hie hinsvc, interruptCheck_enters (s := s.hidden a b p f) hpend hie hinsvc]
    rfl
  · rw [interruptCheck_passes h, interruptCheck_passes (s := s.hidden a b p f) h]

theorem completeStage_hidden (n k : Nat) : completeStage n k (s.hidden a b p f) = (completeStage n k s).hidden a b p f := by
  by_cases hs : s.status = .running
  · rw [completeStage_running hs, completeStage_running (s := s.hidden a b p f) hs]
    rfl
  · rw [completeStage_stopped hs, completeStage_stopped (s := s.hidden a b p f) hs]

theorem fetchIndex_hidden : (s.hidden a b p f).fetchIndex = s.fetchIndex := by
  rw [State.fetchIndex, sampleEvents_hidden, interruptCheck_hidden]
  rfl

end

/-! ### Results that differ in the hidden fields -/

/-- Before stage `k` of `i` the two states differ at most in hidden fields, and in none that a stage before `k` has
written for the rest of the instruction: S0 and S1 in a 4-byte access, the held port in OUTL. -/
def AlikeAt (i : Instr) (k : Nat) (s s' : State) : Prop :=
  ∃ a b p f, s' = s.hidden a b p f ∧ (k ≠ 0 → i.stages = 4 → a = s.s0 ∧ b = s.s1) ∧
    (k ≠ 0 → i.stages = 2 → p = s.irPort)

/-- Both results go on, in states related by `R`, or both fault for the same reason, in states that differ at most in
the hidden fields. -/
def ResultsAlike (R : State → State → Prop) (o o' : Result) : Prop :=
  (∃ u u', o = .next u ∧ o' = .next u' ∧ R u u') ∨
    ∃ r u u', o = raise r u ∧ o' = raise r u' ∧ SameButScratch u u'

theorem ResultsAlike.next {R : State → State → Prop} {u u' : State} (h : R u u') :
    ResultsAlike R (.next u) (.next u') := .inl ⟨u, u', rfl, rfl, h⟩

theorem ResultsAlike.andThen {R Q : State → State → Prop} {o o' : Result} {g g' : State → Result}
    (h : ResultsAlike R o o') (hg : ∀ u u', R u u' → ResultsAlike Q (g u) (g' u')) :
    ResultsAlike Q (andThen o g) (andThen o' g') := by
  obtain ⟨u, u', rfl, rfl, hR⟩ | ⟨r, u, u', rfl, rfl, hu⟩ := h
  · exact hg u u' hR
  · exact .inr ⟨r, u, u', rfl, rfl, hu⟩

section
variable {R : State → State → Prop} {s : State} {a b p : Word} {f : Fields}

/-- An extension word is read alike. -/
theorem withExt_alike {g g' : Word → State → Result}
    (h : ∀ w, ResultsAlike R (g w { s with pc := s.pc + 1 }) (g' w ({ s with pc := s.pc + 1 }.hidden a b p f))) :
    ResultsAlike R (withExt s g) (withExt (s.hidden a b p f) g') := by
  cases hw : s.imemAt s.pc with
  | some w =>
    rw [withExt_some hw, withExt_some (s := s.hidden a b p f) hw]
    exact h w
  | none =>
    rw [withExt_none hw, withExt_none (s := s.hidden a b p f) hw]
    exact .inr ⟨_, _, _, rfl, rfl, sameButScratch_hidden s a b p f⟩

/-- The range of an access is checked alike. -/
theorem withData_alike {addr : Word} {n : Nat} {g g' : State → Result}
    (h : ResultsAlike R (g s) (g' (s.hidden a b p f))) :
    ResultsAlike R (withData addr n s g) (withData addr n (s.hidden a b p f) g') := by
  by_cases hr : addr.toNat + n ≤ s.dmemSize
  · rw [withData_inside hr, withData_inside (s := s.hidden a b p f) hr]
    exact h
  · have hr := Nat.lt_of_not_le hr
    rw [withData_outside hr, withData_outside (s := s.hidden a b p f) hr]
    exact .inr ⟨_, _, _, rfl, rfl, sameButScratch_hidden s a b p f⟩

variable {i : Instr} {k : Nat}

/-- A stage of an instruction of one stage leaves nothing for a later stage. -/
theorem alike_single (h4 : i.stages ≠ 4) (h2 : i.stages ≠ 2) (u : State) :
    ResultsAlike (AlikeAt i k) (.next u) (.next (u.hidden a b p f)) :=
  .next ⟨a, b, p, f, rfl, fun _ h => absurd h h4, fun _ h => absurd h h2⟩

/-- A stage of a 4-byte access leaves S0 and S1 for the later ones. -/
theorem alike_access (h4 : i.stages = 4) (u : State) :
    ResultsAlike (AlikeAt i k) (.next u) (.next (u.hidden u.s0 u.s1 p f)) :=
  .next ⟨u.s0, u.s1, p, f, rfl, fun _ _ => ⟨rfl, rfl⟩, fun _ h => by omega⟩

/-- A stage of OUTL leaves the held port for the later one. -/
theorem alike_held (h2 : i.stages = 2) (u : State) :
    ResultsAlike (AlikeAt i k) (.next u) (.next (u.hidden a b u.irPort f)) :=
  .next ⟨a, b, u.irPort, f, rfl, fun _ h => by omega, fun _ _ => rfl⟩

/-! ### Each stage -/

theorem loadFirst_alike {addr : Word} (h4 : i.stages = 4) :
    ResultsAlike (AlikeAt i k) (loadFirst addr s) (loadFirst addr (s.hidden a b p f)) :=
  withData_alike (alike_access h4 _)

theorem storeFirst_alike {addr v : Word} (h4 : i.stages = 4) :
    ResultsAlike (AlikeAt i k) (storeFirst addr v s) (storeFirst addr v (s.hidden a b p f)) :=
  withData_alike (alike_access h4 _)

theorem loadByte_alike {rd : Reg} {addr : Word} (h4 : i.stages ≠ 4) (h2 : i.stages ≠ 2) :
    ResultsAlike (AlikeAt i k) (loadByte rd addr s) (loadByte rd addr (s.hidden a b p f)) :=
  withData_alike (alike_single h4 h2 _)

theorem storeByte_alike {v addr : Word} (h4 : i.stages ≠ 4) (h2 : i.stages ≠ 2) :
    ResultsAlike (AlikeAt i k) (storeByte v addr s) (storeByte v addr (s.hidden a b p f)) :=
  withData_alike (alike_single h4 h2 _)

theorem quotient_alike {rd : Reg} {rf : Option Word × Flags} (h4 : i.stages ≠ 4) (h2 : i.stages ≠ 2) :
    ResultsAlike (AlikeAt i k) (writeQuotient rd rf s) (writeQuotient rd rf (s.hidden a b p f)) := by
  obtain ⟨_ | r, flags⟩ := rf
  · exact alike_single h4 h2 _
  · exact alike_single h4 h2 _

theorem jump_alike {cond : Flags → Bool} (h4 : i.stages ≠ 4) (h2 : i.stages ≠ 2) :
    ResultsAlike (AlikeAt i k) (jumpStage cond s) (jumpStage cond (s.hidden a b p f)) := by
  unfold jumpStage withAbs
  refine withExt_alike fun w => ?_
  cases h : cond s.flags with
  | true => simpa [State.hidden, h] using alike_single h4 h2 { s with pc := w }
  | false => simpa [State.hidden, h] using alike_single h4 h2 { s with pc := s.pc + 1 }

theorem iret_alike (h4 : i.stages ≠ 4) (h2 : i.stages ≠ 2) :
    ResultsAlike (AlikeAt i k) (returnFromInterrupt s) (returnFromInterrupt (s.hidden a b p f)) := by
  cases h : s.insvc with
  | true =>
    rw [returnFromInterrupt_inService h rfl, returnFromInterrupt_inService (s := s.hidden a b p f) h rfl]
    exact alike_single h4 h2 _
  | false =>
    rw [returnFromInterrupt_outside h, returnFromInterrupt_outside (s := s.hidden a b p f) h]
    exact .inr ⟨_, _, _, rfl, rfl, sameButScratch_hidden s a b p f⟩

theorem outLongFirst_alike {rs1 : Reg} (h2 : i.stages = 2) :
    ResultsAlike (AlikeAt i k) (outLongFirst rs1 s) (outLongFirst rs1 (s.hidden a b p f)) := by
  unfold outLongFirst withPort
  exact withExt_alike fun _ => alike_held h2 _

end

/-- Stage 0 reads no hidden field, and writes those that the later stages read. -/
theorem firstStage_alike {i : Instr} {st : Stage} (h : (microcode i)[0]? = some st) (s : State) (a b p : Word)
    (f : Fields) : ResultsAlike (AlikeAt i 1) (st s) (st (s.hidden a b p f)) := by
  cases i <;> cases h
  case ldAbs.refl => exact withExt_alike fun _ => loadFirst_alike rfl
  case ldInd.refl | pop.refl => exact loadFirst_alike rfl
  case stAbs.refl => exact withExt_alike fun _ => storeFirst_alike rfl
  case stInd.refl | push.refl => exact storeFirst_alike rfl
  case ldbAbs.refl => exact withExt_alike fun _ => loadByte_alike (by simp [Instr.stages]) (by simp [Instr.stages])
  case stbAbs.refl => exact withExt_alike fun _ => storeByte_alike (by simp [Instr.stages]) (by simp [Instr.stages])
  case ldbInd.refl => exact loadByte_alike (by simp [Instr.stages]) (by simp [Instr.stages])
  case stbInd.refl => exact storeByte_alike (by simp [Instr.stages]) (by simp [Instr.stages])
  case divReg.refl => exact quotient_alike (by simp [Instr.stages]) (by simp [Instr.stages])
  case divImm.refl =>
    exact withExt_alike fun _ => quotient_alike (by simp [Instr.stages]) (by simp [Instr.stages])
  case jmp.refl | je.refl | jne.refl | jl.refl | jle.refl | jg.refl | jge.refl =>
    exact jump_alike (by simp [Instr.stages]) (by simp [Instr.stages])
  case outlPort.refl => exact outLongFirst_alike rfl
  case iret.refl => exact iret_alike (by simp [Instr.stages]) (by simp [Instr.stages])
  case movImm.refl | addImm.refl | subImm.refl | mulImm.refl | cmpImm.refl | inPort.refl | outPort.refl =>
    exact withExt_alike fun _ => alike_single (by simp [Instr.stages]) (by simp [Instr.stages]) _
  all_goals exact alike_single (by simp [Instr.stages]) (by simp [Instr.stages]) _

/-- A later stage reads no hidden field but those that are alike. -/
theorem nextStage_alike {i : Instr} {k : Nat} {st : Stage} (h : (microcode i)[k + 1]? = some st) (s : State)
    {a b p : Word} (f : Fields) (haccess : i.stages = 4 → a = s.s0 ∧ b = s.s1) (hheld : i.stages = 2 → p = s.irPort) :
    ResultsAlike (AlikeAt i (k + 2)) (st s) (st (s.hidden a b p f)) := by
  have hk : k + 1 < i.stages := length_microcode i ▸ (List.getElem?_eq_some_iff.1 h).1
  cases i
  case outlPort rs1 =>
    obtain rfl := hheld rfl
    rcases k with _ | k <;> cases h
    exact alike_held rfl _
  case ldAbs | ldInd | stAbs | stInd | push | pop =>
    obtain ⟨rfl, rfl⟩ := haccess rfl
    rcases k with _ | _ | _ | k <;> cases h <;> exact alike_access rfl _
  all_goals exact absurd hk (by simp [Instr.stages])

theorem stage_alike {i : Instr} {k : Nat} {st : Stage} (h : (microcode i)[k]? = some st) {s s' : State}
    (halike : AlikeAt i k s s') : ResultsAlike (AlikeAt i (k + 1)) (st s) (st s') := by
  obtain ⟨a, b, p, f, rfl, haccess, hheld⟩ := halike
  cases k with
  | zero => exact firstStage_alike h s a b p f
  | succ k => exact nextStage_alike h s f (haccess (Nat.succ_ne_zero k)) (hheld (Nat.succ_ne_zero k))

/-! ### Each instruction -/

theorem execTick_alike {i : Instr} {n k : Nat} {st : Stage} (h : (microcode i)[k]? = some st) {s s' : State}
    (halike : AlikeAt i k s s') : ResultsAlike (AlikeAt i (k + 1)) (execTick n k st s) (execTick n k st s') := by
  have hsampled : AlikeAt i k (sampleEvents s) (sampleEvents s') := by
    obtain ⟨a, b, p, f, rfl, haccess, hheld⟩ := halike
    exact ⟨a, b, p, f, sampleEvents_hidden s a b p f, by simpa using haccess, by simpa using hheld⟩
  have hcompleted := (stage_alike h hsampled).andThen (Q := AlikeAt i (k + 1))
    (g := fun u => .next (completeStage n k u)) (g' := fun u => .next (completeStage n k u)) fun u u' hu => by
      obtain ⟨a, b, p, f, rfl, haccess, hheld⟩ := hu
      exact .next ⟨a, b, p, f, completeStage_hidden u a b p f n k, by simpa using haccess, by simpa using hheld⟩
  refine hcompleted.andThen fun u u' hu => ?_
  obtain ⟨a, b, p, f, rfl, haccess, hheld⟩ := hu
  exact .next ⟨a, b, p, f, rfl, haccess, hheld⟩

theorem runFrom_alike {i : Instr} {n : Nat} (stages : List Stage) : ∀ {k : Nat} {s s' : State},
    (microcode i).drop k = stages → AlikeAt i k s s' →
    ResultsAlike SameButScratch (runFrom n k stages s) (runFrom n k stages s') := by
  induction stages with
  | nil =>
    rintro k s s' - ⟨a, b, p, f, rfl, -, -⟩
    exact .next (sameButScratch_hidden s a b p f)
  | cons st rest ih =>
    intro k s s' hdrop halike
    obtain ⟨hst, hrest, -⟩ := of_drop_eq_cons hdrop
    have htick := execTick_alike (n := n) hst halike
    obtain ⟨a, b, p, f, rfl, -, -⟩ := halike
    by_cases hs : s.status = .running
    · by_cases hb : s.t = s.budget
      · rw [runFrom_budget hs hb, runFrom_budget (s := s.hidden a b p f) hs hb]
        exact .next (sameButScratch_hidden _ a b p f)
      · rw [runFrom, runFrom, guarded_running hs hb, guarded_running (s := s.hidden a b p f) hs hb]
        exact htick.andThen fun _ _ => ih hrest
    · rw [runFrom_stopped hs, runFrom_stopped (s := s.hidden a b p f) hs]
      exact .next (sameButScratch_hidden s a b p f)

/-- An instruction from its start does not depend on the hidden fields, and is never refused. -/
theorem exec_alike (i : Instr) {s s' : State} (hp : s.phase.stage = 0) (h : SameButScratch s s') :
    ResultsAlike SameButScratch (exec i s) (exec i s') := by
  obtain ⟨a, b, p, f, rfl⟩ := sameButScratch_iff.1 h
  cases hcode : microcode i with
  | nil =>
    have hlen := length_microcode i
    have hpos := (stages_bounds i).1
    rw [hcode] at hlen
    exact absurd hlen hpos.ne
  | cons st rest =>
    rw [exec_eq_runStages, exec_eq_runStages, hcode, runStages_start hp,
      runStages_start (s := s.hidden a b p f) hp]
    exact runFrom_alike (i := i) _ (by rw [List.drop_zero, hcode])
      ⟨a, b, p, f, rfl, fun h => absurd rfl h, fun h => absurd rfl h⟩

/-! ### Each step -/

/-- Two machines that differ at most in hidden fields are at a boundary, or have latched the same instruction. -/
def FetchedAlike (u u' : State) : Prop :=
  SameButScratch u u' ∧
    (u.phase = .fetch ∨ ∃ i, u.phase = .exec 0 ∧ lookup u.ir = .ok i ∧ lookup u'.ir = .ok i)

/-- The fetch tick does not depend on the hidden fields. -/
theorem fetchTick_alike (s : State) (a b p : Word) (f : Fields) :
    ResultsAlike FetchedAlike (fetchTick s) (fetchTick (s.hidden a b p f)) := by
  have hindex := fetchIndex_hidden s a b p f
  have hchecked : interruptCheck (sampleEvents (s.hidden a b p f)) =
      (interruptCheck (sampleEvents s)).hidden a b p f := by
    rw [sampleEvents_hidden, interruptCheck_hidden]
  cases hw : s.imemAt s.fetchIndex with
  | none =>
    rw [fetchTick_fault hw, fetchTick_fault (s := s.hidden a b p f) (by rw [hindex]; exact hw), hindex, hchecked]
    exact .inr ⟨_, _, _, rfl, rfl, sameButScratch_hidden _ a b p f⟩
  | some w =>
    have hw' : (s.hidden a b p f).imemAt (s.hidden a b p f).fetchIndex = some w := by rw [hindex]; exact hw
    cases hd : decode w with
    | ok i =>
      rw [fetchTick_valid hw hd, fetchTick_valid hw' hd, hindex, hchecked]
      exact .next ⟨⟨a, b, p, fieldsOf w, rfl⟩, .inr ⟨i, rfl, hd, hd⟩⟩
    | error x =>
      obtain ⟨op, mode⟩ := x
      rw [fetchTick_unknown hw hd, fetchTick_unknown hw' hd, hindex, hchecked]
      exact .next ⟨⟨a, b, p, f, rfl⟩, .inl rfl⟩

/-- The rest of the step after the fetch tick does not depend on the hidden fields. -/
theorem resume_alike {u u' : State} (h : FetchedAlike u u') : ResultsAlike SameButScratch (resume u) (resume u') := by
  obtain ⟨hsame, hstands⟩ := h
  have hphase : u'.phase = u.phase := by
    obtain ⟨a, b, p, f, rfl⟩ := hsame
    rfl
  obtain hp | ⟨i, hp, hi, hi'⟩ := hstands
  · have hp' := hphase.trans hp
    rw [resume_of_fetch hp, resume_of_fetch hp']
    exact .next hsame
  · have hp' := hphase.trans hp
    rw [resume_of_lookup hp hi, resume_of_lookup hp' hi']
    exact exec_alike i (by rw [hp, Phase.stage]) hsame

/-- The step of a machine at a boundary, or stopped, does not depend on the hidden fields, and is not refused. -/
theorem step_alike {s s' : State} (hs : s.phase = .fetch ∨ s.status ≠ .running) (h : SameButScratch s s') :
    ResultsAlike SameButScratch (step s) (step s') := by
  obtain ⟨a, b, p, f, rfl⟩ := sameButScratch_iff.1 h
  by_cases hrun : s.status = .running
  · have hp := hs.resolve_right (not_not.2 hrun)
    by_cases hb : s.t = s.budget
    · rw [(budgetEndsTheRun s hrun hb).1, (budgetEndsTheRun (s.hidden a b p f) hrun hb).1]
      exact .next (sameButScratch_hidden _ a b p f)
    · rw [step_of_fetch hrun hb hp, step_of_fetch (s := s.hidden a b p f) hrun hb hp]
      exact (fetchTick_alike s a b p f).andThen fun _ _ => resume_alike
  · rw [(stoppedMachineRunsNoTick s hrun).1, (stoppedMachineRunsNoTick (s.hidden a b p f) hrun).1]
    exact .next (sameButScratch_hidden s a b p f)

/-- A step from a boundary ends at a boundary or in a stopped machine, and a stopped machine stays so. -/
theorem step_ends {s t : State} (hs : s.phase = .fetch ∨ s.status ≠ .running) (h : step s = .next t) :
    t.phase = .fetch ∨ t.status ≠ .running := by
  obtain ⟨hrun, -, hp, e⟩ | ⟨hrun, -, ⟨k, hp⟩, -⟩ | ⟨-, -, e⟩ | ⟨hstop, e⟩ := step_cases s
  · by_cases ht : t.status = .running
    case neg => exact .inr ht
    obtain ⟨u, hu, hrest⟩ := andThen_eq_next (e.symm.trans h)
    obtain ⟨w, hw, ⟨i, hd, -⟩ | ⟨op, mode, -, rfl⟩⟩ := fetchTick_next hu
    · obtain ⟨running, -⟩ := instructionOccupiesItsTicks s t w i hrun hp hw hd h
      exact .inl (running ht).2
    · cases hrest
      exact .inl rfl
  · exact absurd (hs.resolve_right (not_not.2 hrun)) (by simp [hp])
  · cases e.symm.trans h
    exact .inr (by simp)
  · cases e.symm.trans h
    exact .inr hstop

theorem next_ne_fault (s : State) (f : Fault) : (.next s : Result) ≠ .fault f := nofun

theorem faultOf_inj {r r' : FaultReason} {u u' : State} (h : faultOf r u = faultOf r' u') : r = r' ∧ u = u' := by
  cases r <;> cases r' <;> cases h <;> exact ⟨rfl, rfl⟩

/-- R332: the host observes none of the hidden fields. -/
theorem observe_eq_of_sameButScratch {s t : State} (h : SameButScratch s t) : t.observe = s.observe := by
  obtain ⟨a, b, p, f, rfl⟩ := h
  rfl

/-- Settles O57: the two steps end alike (`step_alike`), at a boundary or stopped (`step_ends`), and the host sees the
same of the states they end in (`observe_eq_of_sameButScratch`). -/
theorem scratchRegistersAreHidden : Obligations.ScratchRegistersAreHidden := by
  unfold Obligations.ScratchRegistersAreHidden
  intro s s' hs h
  obtain ⟨t, t', ht, ht', hsame⟩ | ⟨r, u, u', hr, hr', hsame⟩ := step_alike hs h
  · rw [ht, ht']
    refine ⟨?next, fun _ _ hf => absurd hf (next_ne_fault _ _), nofun,
      congrArg some (observe_eq_of_sameButScratch hsame)⟩
    case next =>
      rintro _ ⟨⟩
      exact ⟨step_ends hs ht, t', rfl, hsame⟩
  · have hfinal : SameButScratch { u with status := .fault r } { u' with status := .fault r } := by
      obtain ⟨a, b, p, f, rfl⟩ := hsame
      exact ⟨a, b, p, f, rfl⟩
    rw [hr, hr']
    refine ⟨fun _ hn => absurd hn (raise_ne_next _ _ _), ?fault, raise_ne_refused _ _, ?observed⟩
    case fault =>
      intro r' v hv
      obtain ⟨rfl, rfl⟩ := faultOf_inj (Host.Outcome.fault.inj hv)
      exact ⟨_, rfl, hfinal⟩
    case observed =>
      simp only [raise, finalState, faultOf_final, Option.map_some, observe_eq_of_sameButScratch hfinal]

end Sys2Proof.Machine
end

section
/-! PROOFS. The frame of an instruction over the passing of its ticks, MOV, and the jumps with the comparison before
them (spec/40_engine.md R129 to R136; spec/41_data_transfer.md R160, R161; spec/42_alu.md R217). -/

namespace Sys2Proof.Machine

/-! ### The frame of some ticks -/

/-- The passing of ticks changes the input side, the pending slot and the clock alone (R262). -/
theorem passTicks_eq : ∀ (n : Nat) (s : State), passTicks n s = { s with
    latch := (passTicks n s).latch, pend := (passTicks n s).pend, pline := (passTicks n s).pline,
    sched := (passTicks n s).sched, t := s.t + n }
  | 0, _ => rfl
  | n + 1, s => by
    rw [passTicks, passTicks_eq n, sampleEvents_eq]
    simp [Nat.add_assoc, Nat.add_comm 1 n]

section
variable (n : Nat) (s : State)

@[simp] theorem passTicks_regs : (passTicks n s).regs = s.regs := by rw [passTicks_eq]

@[simp] theorem passTicks_s0 : (passTicks n s).s0 = s.s0 := by rw [passTicks_eq]

@[simp] theorem passTicks_s1 : (passTicks n s).s1 = s.s1 := by rw [passTicks_eq]

@[simp] theorem passTicks_flags : (passTicks n s).flags = s.flags := by rw [passTicks_eq]

@[simp] theorem passTicks_ie : (passTicks n s).ie = s.ie := by rw [passTicks_eq]

@[simp] theorem passTicks_insvc : (passTicks n s).insvc = s.insvc := by rw [passTicks_eq]

@[simp] theorem passTicks_irPort : (passTicks n s).irPort = s.irPort := by rw [passTicks_eq]

@[simp] theorem passTicks_status : (passTicks n s).status = s.status := by rw [passTicks_eq]

@[simp] theorem passTicks_outbuf : (passTicks n s).outbuf = s.outbuf := by rw [passTicks_eq]

@[simp] theorem passTicks_dmem : (passTicks n s).dmem = s.dmem := by rw [passTicks_eq]

@[simp] theorem passTicks_budget : (passTicks n s).budget = s.budget := by rw [passTicks_eq]

theorem passTicks_reg (r : Reg) : (passTicks n s).reg r = s.reg r := reg_congr (passTicks_regs n s) r

end

section
variable {n : Nat} {s : State} (regs : Vector Word 16) (a b p pc' : Word) (f : Flags) (m : Memory)
  (o : List (Nat × List Byte))

/-- Neither the passing of ticks nor a write of what instructions may write touches what no instruction writes. -/
theorem neverWritten_passTicks (ph : Phase) (x : Status) : NeverWritten s { passTicks n s with
    regs := regs, s0 := a, s1 := b, irPort := p, pc := pc', flags := f, dmem := m, outbuf := o, phase := ph,
    status := x } := by
  rw [passTicks_eq n s]
  constructor <;> rfl

/-- An instruction is complete when, besides the passing of its ticks, it has written what instructions may write. -/
theorem completed_passTicks (hs : s.status = .running) : Completed n s { passTicks n s with
    regs := regs, s0 := a, s1 := b, irPort := p, pc := pc', flags := f, dmem := m, outbuf := o, phase := .fetch } where
  ticks := passTicks_t n s
  phase := rfl
  status := (passTicks_status n s).trans hs
  events := ⟨rfl, rfl, rfl, rfl⟩
  kept := neverWritten_passTicks regs a b p pc' f m o .fetch (passTicks n s).status

/-- The same of an instruction that the budget has cut. -/
theorem cutAfter_passTicks {ph : Phase} (hp : ph.stage = n) : CutAfter n s { passTicks n s with
    s0 := a, s1 := b, irPort := p, pc := pc', dmem := m, outbuf := o, phase := ph, status := .budget } where
  ticks := passTicks_t n s
  stage := hp
  status := rfl
  events := ⟨rfl, rfl, rfl, rfl⟩
  kept := neverWritten_passTicks _ a b p pc' _ m o ph .budget

end

/-! ### One stage that writes a register, or pc -/

section
variable {i : Instr} {s : State} {st : Stage} {pc' : Word} (h : Runs 1 s) (hexec : exec i s = runStages [st] s)
include h hexec

/-- An instruction whose only stage writes one register completes with it and writes nothing else. -/
theorem exec_writesReg {rd : Reg} {v : Word}
    (hst : st (sampleEvents s) = .next ({ sampleEvents s with pc := pc' }.setReg rd v)) :
    ∃ t, exec i s = .next t ∧ t.reg rd = v ∧ OnlyWrites 1 [rd] pc' s t ∧ t.flags = s.flags := by
  have hframe := aluState_onlyWrites h pc' (sampleEvents s).flags (rs := [rd])
    (regs := (sampleEvents s).regs.set rd.val v) fun q hq =>
      (reg_setReg_other (sampleEvents s) v (by simpa using hq)).trans (sampleEvents_reg s q)
  exact ⟨_, hexec.trans (runStages_one h hst h.sampled_running), Vector.getElem_set_self _, hframe,
    sampleEvents_flags s⟩

/-- An instruction whose only stage writes pc writes nothing else. -/
theorem exec_writesPc (hst : st (sampleEvents s) = .next { sampleEvents s with pc := pc' }) :
    ∃ t, exec i s = .next t ∧ OnlyWrites 1 [] pc' s t ∧ t.flags = s.flags :=
  ⟨_, hexec.trans (runStages_one h hst h.sampled_running),
    aluState_onlyWrites h pc' (sampleEvents s).flags fun q _ => sampleEvents_reg s q, sampleEvents_flags s⟩

end

/-- Settles O27: the stage writes the register's value, or the extension word (`withExt_some`), to the destination. -/
theorem movWritesItsDestination : Obligations.MovWritesItsDestination := by
  unfold Obligations.MovWritesItsDestination
  constructor
  · intro s rd rs1 h
    refine exec_writesReg h rfl ?_
    rw [sampleEvents_reg, sampleEvents_withPc]
  · intro s rd imm h hw
    refine exec_writesReg h rfl ?_
    rw [withExt_some (imemAt_sampled hw), sampleEvents_pc]

/-! ### Jumps -/

/-- R129: the stage of a jump whose target is inside the image. -/
theorem jumpStage_some {cond : Flags → Bool} {s : State} {target : Word} (hw : s.imemAt s.pc = some target) :
    jumpStage cond s = .next { s with pc := if cond s.flags then target else s.pc + 1 } := by
  rw [jumpStage, withAbs, withExt_some hw]
  cases cond s.flags <;> rfl

/-- R129: a jump reads its target, takes it on its condition, and writes pc alone. -/
theorem exec_jump {i : Instr} {cond : Flags → Bool} {s : State} {target : Word} {taken : Bool} (h : Runs 1 s)
    (hexec : exec i s = runStages [jumpStage cond] s) (hw : s.imemAt s.pc = some target)
    (htaken : taken = cond s.flags) :
    ∃ t, exec i s = .next t ∧ OnlyWrites 1 [] (if taken then target else s.pc + 1) s t ∧ t.flags = s.flags := by
  have hpc : (if cond (sampleEvents s).flags then target else (sampleEvents s).pc + 1) =
      if taken then target else s.pc + 1 := by rw [sampleEvents_flags, sampleEvents_pc, htaken]
  rw [← hpc]
  exact exec_writesPc h hexec (jumpStage_some (imemAt_sampled hw))

/-- Settles O25: `exec_jump` with the condition of each of the seven. -/
theorem jumpsFollowTheirConditions : Obligations.JumpsFollowTheirConditions := by
  unfold Obligations.JumpsFollowTheirConditions
  rintro s target i taken h hw
    (⟨rfl, ht⟩ | ⟨rfl, ht⟩ | ⟨rfl, ht⟩ | ⟨rfl, ht⟩ | ⟨rfl, ht⟩ | ⟨rfl, ht⟩ | ⟨rfl, ht⟩)
  · exact exec_jump h rfl hw (cond := condAlways) ht
  · exact exec_jump h rfl hw (cond := condEqual) ht
  · exact exec_jump h rfl hw (cond := condNotEqual) ht
  · exact exec_jump h rfl hw (cond := condLess) ht
  · exact exec_jump h rfl hw (cond := condLessEqual) ht
  · exact exec_jump h rfl hw (cond := condGreater) ht
  · exact exec_jump h rfl hw (cond := condGreaterEqual) ht

/-! ### A comparison and the jump after it -/

/-- R217 with R131 to R136: after a comparison each condition decides its signed relation. -/
theorem conditions_of_cmp (a b : Word) :
    condEqual (cmpOp a b) = decide (a = b) ∧ condNotEqual (cmpOp a b) = decide (a ≠ b) ∧
      condLess (cmpOp a b) = decide (a.toInt < b.toInt) ∧ condLessEqual (cmpOp a b) = decide (a.toInt ≤ b.toInt) ∧
      condGreater (cmpOp a b) = decide (a.toInt > b.toInt) ∧
      condGreaterEqual (cmpOp a b) = decide (a.toInt ≥ b.toInt) := by
  obtain ⟨-, hz, -, hn, -⟩ := subtractionFlagsDecideTheOrder a b
  have hz : (cmpOp a b).z = decide (a = b) := by rw [Bool.eq_iff_iff, hz, decide_eq_true_iff]
  have hn : ((cmpOp a b).n != (cmpOp a b).v) = decide (a.toInt < b.toInt) := by
    rw [Bool.eq_iff_iff, bne_iff_ne, hn, decide_eq_true_iff]
  have heq : ((cmpOp a b).n == (cmpOp a b).v) = !((cmpOp a b).n != (cmpOp a b).v) := by rw [bne, Bool.not_not]
  have htoInt : a = b ↔ a.toInt = b.toInt := BitVec.toInt_inj.symm
  refine ⟨hz, ?ne, hn, ?le, ?gt, ?ge⟩
  case ne => rw [condNotEqual, hz, decide_not]
  case le =>
    rw [condLessEqual, hz, hn, Bool.eq_iff_iff, Bool.or_eq_true, decide_eq_true_iff, decide_eq_true_iff,
      decide_eq_true_iff, htoInt]
    omega
  case gt =>
    rw [condGreater, heq, hz, hn, Bool.eq_iff_iff, Bool.and_eq_true, Bool.not_eq_true', Bool.not_eq_true',
      decide_eq_false_iff_not, decide_eq_false_iff_not, decide_eq_true_iff, htoInt]
    omega
  case ge =>
    rw [condGreaterEqual, heq, hn, Bool.eq_iff_iff, Bool.not_eq_true', decide_eq_false_iff_not, decide_eq_true_iff]
    omega

/-- The state in which the instruction `w` starts that a boundary fetches without an interrupt entry (R122). -/
def fetched (s : State) (w : Word) : State :=
  { sampleEvents s with pc := s.pc + 1, ir := fieldsOf w, phase := .exec 0, t := s.t + 1 }

/-- At a running boundary that enters no interrupt the step is the instruction at pc. -/
theorem step_of_fetched {s : State} {w : Word} {i : Instr} (hs : s.status = .running) (hp : s.phase = .fetch)
    (hb : s.t ≠ s.budget) (hno : interruptCheck (sampleEvents s) = sampleEvents s) (hw : s.imemAt s.pc = some w)
    (hd : decode w = .ok i) : step s = exec i (fetched s w) := by
  have hindex : s.fetchIndex = s.pc := by rw [State.fetchIndex, hno, sampleEvents_pc]
  rw [step_of_valid hs hb hp (by rw [hindex]; exact hw) hd, hno, hindex, fetched]

theorem runs_fetched {n : Nat} {s : State} (w : Word) (hs : s.status = .running) (hb : s.t + (n + 1) ≤ s.budget) :
    Runs n (fetched s w) := by
  refine ⟨⟨(sampleEvents_status s).trans hs, rfl⟩, ?_⟩
  simp only [fetched, sampleEvents_budget]
  omega

/-- What a jump that is fetched next does to the boundary's state. -/
theorem step_jump {j : Instr} {cond : Flags → Bool} {t : State} {w target : Word} {taken : Bool}
    (hcode : microcode j = [jumpStage cond]) (hs : t.status = .running) (hp : t.phase = .fetch)
    (hb : t.t + 2 ≤ t.budget) (hno : interruptCheck (sampleEvents t) = sampleEvents t) (hw : t.imemAt t.pc = some w)
    (hd : decode w = .ok j) (htarget : t.imemAt (t.pc + 1) = some target) (htaken : taken = cond t.flags) :
    ∃ u, step t = .next u ∧ u.pc = (if taken then target else t.pc + 2) ∧ u.flags = t.flags ∧ u.t = t.t + 2 ∧
      u.phase = .fetch ∧ u.status = .running ∧ OtherRegs [] t u ∧ SameMemory t u := by
  have hexec : exec j (fetched t w) = runStages [jumpStage cond] (fetched t w) := by rw [exec_eq_runStages, hcode]
  have hread : (fetched t w).imemAt (fetched t w).pc = some target := (sampleEvents_imemAt t _).trans htarget
  have hflags : (fetched t w).flags = t.flags := sampleEvents_flags t
  obtain ⟨u, hu, frame, huflags⟩ := exec_jump (runs_fetched w hs hb) hexec hread (htaken.trans (by rw [hflags]))
  have hpc : (fetched t w).pc + 1 = t.pc + 2 := BitVec.add_assoc t.pc 1 1
  refine ⟨u, (step_of_fetched hs hp (by omega) hno hw hd).trans hu, ?pc, huflags.trans hflags, frame.completed.ticks,
    frame.completed.phase, frame.completed.status, ?regs, ?memory⟩
  case pc => rw [frame.pc, hpc]
  case regs => exact fun r hr => (frame.otherRegs r hr).trans (sampleEvents_reg t r)
  case memory => exact fun a => (frame.memory a).trans (sameMemory_of_dmem (sampleEvents_dmem t) a)

/-- Settles O26: CMP leaves SUB's flags at a boundary (`cmpWritesOnlySubFlags`), the next step runs the jump on them
(`step_jump`), and its condition decides the relation (`conditions_of_cmp`). -/
theorem compareThenJumpDecidesTheOrder : Obligations.CompareThenJumpDecidesTheOrder := by
  unfold Obligations.CompareThenJumpDecidesTheOrder
  intro s t rs1 rs2 i j b w target taken h hi ht hb hno hw hd htarget hj
  have hcmp : ∃ pc', OperandForm (.cmpReg rs1 rs2) (.cmpImm rs1) rs2 i s b pc' :=
    hi.elim (fun ⟨hi, hval⟩ => ⟨_, .inl ⟨hi, hval, rfl⟩⟩) (fun ⟨hi, hval⟩ => ⟨_, .inr ⟨hi, hval, rfl⟩⟩)
  obtain ⟨pc', hform⟩ := hcmp
  obtain ⟨t', ht', -, -, -, -, hflags, frame⟩ := cmpWritesOnlySubFlags s rs1 rs2 i b pc' h hform
  cases ht'.symm.trans ht
  obtain ⟨-, hphase, hstatus, -, -⟩ := completed_iff.1 frame.completed
  obtain ⟨heq, hne, hlt, hle, hgt, hge⟩ := conditions_of_cmp (s.reg rs1) b
  rw [cmpOp, ← hflags] at heq hne hlt hle hgt hge
  have hjump {cond : Flags → Bool} (hcode : microcode j = [jumpStage cond]) (htaken : taken = cond t.flags) :=
    step_jump hcode hstatus hphase hb hno hw hd htarget htaken
  obtain ⟨rfl, rfl⟩ | ⟨rfl, rfl⟩ | ⟨rfl, rfl⟩ | ⟨rfl, rfl⟩ | ⟨rfl, rfl⟩ | ⟨rfl, rfl⟩ := hj
  · exact hjump rfl heq.symm
  · exact hjump rfl hne.symm
  · exact hjump rfl hlt.symm
  · exact hjump rfl hle.symm
  · exact hjump rfl hgt.symm
  · exact hjump rfl hge.symm

end Sys2Proof.Machine
end

section
/-! PROOFS. The 4-byte accesses tick by tick, whole and cut by the budget, and the byte accesses
(spec/41_data_transfer.md R162 to R172). -/

namespace Sys2Proof.Machine

/-! ### An access under way -/

/-- After `k` ticks of a 4-byte access: S0 holds its address, S1 the word so far, and data memory is `m`. -/
def accessState (s : State) (pc' addr word : Word) (m : Memory) (k : Nat) : State :=
  { passTicks k s with pc := pc', s0 := addr, s1 := word, dmem := m, phase := .exec k }

/-- The first three stages of a 4-byte access from `s`, by S1 and data memory after each: `first` finds the address in
range, and `next k` is stage `k`. -/
structure Access (s : State) (pc' addr : Word) (word : Nat → Word) (mem : Nat → Memory) (first : Stage)
    (next : Nat → Stage) : Prop where
  first : first (sampleEvents s) =
    .next { sampleEvents s with pc := pc', s0 := addr, s1 := word 1, dmem := mem 1 }
  next : ∀ (k : Nat) (u : State), u.s0 = addr → u.s1 = word k → u.dmem = mem k →
    next k u = .next { u with s1 := word (k + 1), dmem := mem (k + 1) }

section
variable {s : State} {pc' addr : Word} {word : Nat → Word} {mem : Nat → Memory} {first last : Stage}
  {next : Nat → Stage} (access : Access s pc' addr word mem first next)
include access

/-- The tick of stage 0. -/
theorem Access.start (hs : AtStart s) (hb : s.t ≠ s.budget) (rest : List Stage) (hrest : 0 < rest.length) :
    runStages (first :: rest) s =
      runFrom (rest.length + 1) 1 rest (accessState s pc' addr (word 1) (mem 1) 1) := by
  obtain ⟨hrun, hp⟩ := hs
  have hmore : 0 + 1 ≠ rest.length + 1 := by omega
  rw [runStages_start hp, runFrom_running hrun hb access.first ((sampleEvents_status s).trans hrun), if_neg hmore]
  simp only [accessState, passTicks, sampleEvents_t]

/-- The tick of a stage in the middle. -/
theorem Access.advance {k : Nat} (hs : s.status = .running) (hb : s.t + k ≠ s.budget) (rest : List Stage)
    (hrest : 0 < rest.length) :
    runFrom (k + 1 + rest.length) k (next k :: rest) (accessState s pc' addr (word k) (mem k) k) =
      runFrom (k + 1 + rest.length) (k + 1) rest (accessState s pc' addr (word (k + 1)) (mem (k + 1)) (k + 1)) := by
  have hrun : (accessState s pc' addr (word k) (mem k) k).status = .running := (passTicks_status k s).trans hs
  have hbudget : (accessState s pc' addr (word k) (mem k) k).t ≠ (accessState s pc' addr (word k) (mem k) k).budget := by
    simpa [accessState] using hb
  have hmore : k + 1 ≠ k + 1 + rest.length := by omega
  rw [runFrom_running hrun hbudget (access.next k _ (by simp [accessState]) (by simp [accessState])
    (by simp [accessState])) ((sampleEvents_status _).trans hrun), if_neg hmore]
  simp [accessState, passTicks_succ, sampleEvents_eq]

/-- The three ticks before the last one. -/
theorem Access.toLast (h : Runs 4 s) : runStages [first, next 1, next 2, last] s =
    runFrom 4 3 [last] (accessState s pc' addr (word 3) (mem 3) 3) := by
  obtain ⟨hs, hb⟩ := h
  obtain ⟨hrun, -⟩ := id hs
  have hone : s.t + 1 ≠ s.budget := by omega
  have htwo : s.t + 2 ≠ s.budget := by omega
  rw [access.start hs (by omega) _ (by simp)]
  exact (access.advance hrun hone [next 2, last] (by simp)).trans (access.advance hrun htwo [last] (by simp))

/-- The whole access, by what its last stage does. -/
theorem Access.whole {regs : Vector Word 16} (h : Runs 4 s)
    (hlast : ∀ u : State, u.s0 = addr → u.s1 = word 3 → u.dmem = mem 3 → u.regs = s.regs →
      last u = .next { u with regs := regs, s1 := word 4, dmem := mem 4 }) :
    runStages [first, next 1, next 2, last] s = .next { passTicks 4 s with
      regs := regs, pc := pc', s0 := addr, s1 := word 4, dmem := mem 4, phase := .fetch } := by
  rw [access.toLast h]
  obtain ⟨⟨hs, -⟩, hb⟩ := h
  have hrun : (accessState s pc' addr (word 3) (mem 3) 3).status = .running := (passTicks_status 3 s).trans hs
  have hbudget : (accessState s pc' addr (word 3) (mem 3) 3).t ≠ (accessState s pc' addr (word 3) (mem 3) 3).budget := by
    simp [accessState]
    omega
  rw [runFrom_running hrun hbudget (hlast _ (by simp [accessState]) (by simp [accessState]) (by simp [accessState])
    (by simp [accessState])) ((sampleEvents_status _).trans hrun)]
  simp [runFrom, accessState, passTicks_succ 3, sampleEvents_eq]

/-- The access that the budget cuts after `j` of its stages. -/
theorem Access.cut {j : Nat} (hj : j < 4) (hpos : j ≠ 0) (h : RunsOnly j s) :
    runStages [first, next 1, next 2, last] s =
      .next { accessState s pc' addr (word j) (mem j) j with status := .budget } := by
  obtain ⟨hs, hb⟩ := h
  obtain ⟨hrun, -⟩ := id hs
  have hend : ∀ st rest, runFrom 4 j (st :: rest) (accessState s pc' addr (word j) (mem j) j) =
      .next { accessState s pc' addr (word j) (mem j) j with status := .budget } := fun st rest =>
    runFrom_budget ((passTicks_status j s).trans hrun) (by simpa [accessState] using hb)
  have hone := access.start hs (by omega) [next 1, next 2, last] (by simp)
  have htwo (hne : s.t + 1 ≠ s.budget) := hone.trans (access.advance hrun hne [next 2, last] (by simp))
  have hthree (hne : s.t + 1 ≠ s.budget) (hne' : s.t + 2 ≠ s.budget) :=
    (htwo hne).trans (access.advance hrun hne' [last] (by simp))
  obtain rfl | rfl | rfl : j = 1 ∨ j = 2 ∨ j = 3 := by omega
  · exact hone.trans (hend _ _)
  · exact (htwo (by omega)).trans (hend _ _)
  · exact (hthree (by omega) (by omega)).trans (hend _ _)

end

/-- What a 4-byte access that is cut after `j` stages has done: data memory is `m`, and no register, flag, buffer or
control bit has changed. -/
structure CutAccess (j : Nat) (m : Memory) (s t : State) : Prop where
  cut : CutAfter j s t
  dmem : t.dmem = m
  regs : OtherRegs [] s t
  output : SameOutput s t
  control : SameControl s t
  flags : t.flags = s.flags

theorem cutAccess_accessState (s : State) (pc' addr word : Word) (m : Memory) (j : Nat) :
    CutAccess j m s { accessState s pc' addr word m j with status := .budget } where
  cut := cutAfter_passTicks addr word (passTicks j s).irPort pc' m (passTicks j s).outbuf rfl
  dmem := rfl
  regs := otherRegs_of_regs (passTicks_regs j s) []
  output := sameOutput_of_outbuf (passTicks_outbuf j s)
  control := ⟨passTicks_ie j s, passTicks_insvc j s⟩
  flags := passTicks_flags j s

/-- An instruction of four stages that reaches the end of the budget after `j` of them, its access in range unless it
has not begun. -/
theorem exec_cutAccess {i : Instr} {s : State} {pc' addr : Word} {word : Nat → Word} {mem : Nat → Memory}
    {first last : Stage} {next : Nat → Stage} (hexec : exec i s = runStages [first, next 1, next 2, last] s) {j : Nat}
    (hj : j < 4) (h : RunsOnly j s) (hmem : mem 0 = s.dmem)
    (access : j ≠ 0 → Access s pc' addr word mem first next) :
    ∃ t, exec i s = .next t ∧ CutAccess j (mem j) s t := by
  by_cases hpos : j = 0
  · subst hpos
    obtain ⟨⟨hs, hp⟩, hb⟩ := h
    have hend := (runStages_start hp first [next 1, next 2, last]).trans (runFrom_budget hs hb)
    have kept : CutAfter 0 s { s with status := .budget } :=
      ⟨rfl, hp, rfl, ⟨rfl, rfl, rfl, rfl⟩, by constructor <;> rfl⟩
    exact ⟨_, hexec.trans hend, kept, hmem.symm, fun _ _ => rfl, fun _ => rfl, ⟨rfl, rfl⟩, rfl⟩
  · exact ⟨_, hexec.trans ((access hpos).cut hj hpos h), cutAccess_accessState s pc' addr _ _ j⟩

/-! ### Loads -/

/-- The word a load has gathered after `k` of the bytes from `a` on. -/
def gatheredWord (m : Memory) (a : Nat) : Nat → Word
  | 0 => 0
  | k + 1 => gatheredWord m a k ||| byteInPlace k (Memory.read m (a + k))

theorem gatheredWord_one (m : Memory) (a : Nat) : gatheredWord m a 1 = zext (Memory.read m a) := by
  simp [gatheredWord, byteInPlace]

theorem gatheredWord_four (m : Memory) (a : Nat) : gatheredWord m a 4 = Memory.readWord m a := by
  rw [← gathered_eq_readWord, ← gatheredWord_one]
  rfl

/-- The stages of a load in range. -/
theorem loadAccess {s : State} {pc' addr : Word} {first : Stage} (hr : addr.toNat + 4 ≤ s.dmemSize)
    (hfirst : first (sampleEvents s) = loadFirst addr { sampleEvents s with pc := pc' }) :
    Access s pc' addr (gatheredWord s.dmem addr.toNat) (fun _ => s.dmem) first loadNext where
  first := by
    rw [hfirst, loadFirst_inside hr, gatheredWord_one, State.byteAt, ← sampleEvents_dmem s]
  next k u haddr hword hmem := by
    rw [loadNext, State.gathered, State.byteAt, haddr, hword, hmem, gatheredWord, ← hmem]

/-- Settles O28: both forms begin with the same first stage (`AddressForm.firstStage`); the whole load is `exec_load`,
a load out of range stops there (`loadFirst_outside`), and one that is cut has written no register
(`exec_cutAccess`). -/
theorem loadWordGathersFourBytes : Obligations.LoadWordGathersFourBytes := by
  unfold Obligations.LoadWordGathersFourBytes
  intro s rd rs1 i addr pc' hi
  obtain ⟨st, hexec, hst⟩ := AddressForm.firstStage hi (fun _ => loadFirst) rfl rfl
  refine ⟨fun h hr => ?whole, fun h hr => ?fault, fun j hj h hr => ?cut⟩
  case whole =>
    have hreg : ∀ (u : State) (v : Word), (u.setReg rd v).reg rd = v := fun u v => reg_setReg_same u rd v
    refine ⟨_, exec_load hi h hr, hreg _ _, rfl, (hreg _ _).symm, passTicks_irPort 4 s, rfl, passTicks_flags 4 s,
      completed_passTicks _ _ _ _ _ _ _ _ h.1.1, fun r hr => ?_, sameMemory_of_dmem (passTicks_dmem 4 s),
      sameOutput_of_outbuf (passTicks_outbuf 4 s), passTicks_ie 4 s, passTicks_insvc 4 s⟩
    exact (reg_setReg_other (passTicks 4 s) _ (by simpa using hr)).trans (passTicks_reg 4 s r)
  case fault =>
    rw [hexec]
    exact runStages_raise h (hst.trans (loadFirst_outside hr))
  case cut =>
    obtain ⟨t, ht, hcut⟩ := exec_cutAccess hexec hj h rfl fun hpos => loadAccess (hr.resolve_left hpos) hst
    exact ⟨t, ht, hcut.cut, hcut.regs, sameMemory_of_dmem hcut.dmem, hcut.output, hcut.control, hcut.flags⟩

/-! ### Stores -/

/-- The stages of a store in range. -/
theorem storeAccess {s : State} {pc' addr v : Word} {first : Stage} (hr : addr.toNat + 4 ≤ s.dmemSize)
    (hfirst : first (sampleEvents s) = storeFirst addr v { sampleEvents s with pc := pc' }) :
    Access s pc' addr (fun _ => v) (bytesWritten s.dmem addr.toNat v) first storeNext where
  first := hfirst.trans (storeFirst_inside hr)
  next k u haddr hword hmem := by
    rw [storeNext, State.setByte, haddr, hword, hmem, bytesWritten, ← hword]

/-- R55, R61: after the first `k` bytes of a store they read as the word's, and no other byte has changed. -/
theorem reads_bytesWritten {s t : State} {v : Word} {a k : Nat} (hwf : Memory.wf s.dmem = true)
    (ht : t.dmem = bytesWritten s.dmem a v k) :
    (∀ j < k, t.byteAt (a + j) = v.extractLsb' (8 * j) 8) ∧ OtherBytes a k s t := by
  constructor
  · intro j hj
    rw [State.byteAt, ht]
    exact read_bytesWritten hwf k j hj
  · intro b hb
    rw [State.byteAt, ht]
    exact read_bytesWritten_other k b hb

/-- Settles O30: both forms begin with the same first stage (`AddressForm.firstStage`); the whole store is `exec_store`,
a store out of range stops there (`storeFirst_outside`), and one that is cut has written its first bytes
(`exec_cutAccess`); what they read as is `reads_bytesWritten`. -/
theorem storeWordWritesFourBytes : Obligations.StoreWordWritesFourBytes := by
  unfold Obligations.StoreWordWritesFourBytes
  intro s rs1 rs2 i addr pc' hwf hi
  obtain ⟨st, hexec, hst⟩ := AddressForm.firstStage hi (fun _ a u => storeFirst a (u.reg rs1) u) rfl rfl
  have hreg : State.reg { sampleEvents s with pc := pc' } rs1 = s.reg rs1 := reg_congr (sampleEvents_regs s) rs1
  rw [hreg] at hst
  refine ⟨fun h hr => ?whole, fun h hr => ?fault, fun j hj h hr => ?cut⟩
  case whole =>
    obtain ⟨hbytes, hother⟩ := reads_bytesWritten (t := { passTicks 4 s with
      dmem := bytesWritten s.dmem addr.toNat (s.reg rs1) 4, pc := pc', s0 := addr, s1 := s.reg rs1, phase := .fetch })
      hwf rfl
    exact ⟨_, exec_store hi h hr, hbytes, hother, rfl, rfl, passTicks_irPort 4 s, rfl, passTicks_flags 4 s,
      completed_passTicks _ _ _ _ _ _ _ _ h.1.1, fun r _ => passTicks_reg 4 s r,
      sameOutput_of_outbuf (passTicks_outbuf 4 s), passTicks_ie 4 s, passTicks_insvc 4 s⟩
  case fault =>
    rw [hexec]
    exact runStages_raise h (hst.trans (storeFirst_outside hr))
  case cut =>
    obtain ⟨t, ht, hcut⟩ := exec_cutAccess hexec hj h rfl fun hpos => storeAccess (hr.resolve_left hpos) hst
    obtain ⟨hbytes, hother⟩ := reads_bytesWritten hwf hcut.dmem
    exact ⟨t, ht, hbytes, hother, hcut.cut, hcut.regs, hcut.output, hcut.control, hcut.flags⟩

/-! ### Byte accesses -/

/-- Settles O29: both forms begin with the same stage (`AddressForm.firstStage`), which writes the byte to the
destination (`exec_writesReg`), or is out of range. -/
theorem loadByteZeroExtends : Obligations.LoadByteZeroExtends := by
  unfold Obligations.LoadByteZeroExtends
  intro s rd rs1 i addr pc' h hi
  obtain ⟨st, hexec, hst⟩ := AddressForm.firstStage hi (fun _ => loadByte rd) rfl rfl
  refine ⟨fun hr => ?inside, fun hr => ?outside⟩
  case inside =>
    have hread : st (sampleEvents s) =
        .next ({ sampleEvents s with pc := pc' }.setReg rd (zext ((sampleEvents s).byteAt addr.toNat))) := by
      rw [hst, loadByte, withData_inside (by simpa using hr)]
      rfl
    obtain ⟨t, ht, hval, frame, hflags⟩ := exec_writesReg h hexec hread
    refine ⟨t, ht, ?_, frame, hflags⟩
    rw [hval, zext_toNat, State.byteAt, sampleEvents_dmem, State.byteAt]
  case outside =>
    rw [hexec]
    exact runStages_raise h (hst.trans (withData_outside (by simpa using hr) _))

/-- Settles O31: both forms begin with the same stage (`AddressForm.firstStage`); in range the instruction is
`exec_storeByte`. -/
theorem storeByteWritesTheLowByte : Obligations.StoreByteWritesTheLowByte := by
  unfold Obligations.StoreByteWritesTheLowByte
  intro s rs1 rs2 i addr pc' h hwf hi
  obtain ⟨st, hexec, hst⟩ := AddressForm.firstStage hi (fun u => storeByte (u.reg rs1)) rfl rfl
  refine ⟨fun hr => ?inside, fun hr => ?outside⟩
  case inside =>
    refine ⟨_, exec_storeByte hi h hr, Memory.read_write_same hwf _ _,
      fun b hb => Memory.read_write_other s.dmem _ (by omega), rfl, passTicks_flags 1 s,
      completed_passTicks _ _ _ _ _ _ _ _ h.1.1, fun r _ => passTicks_reg 1 s r,
      sameOutput_of_outbuf (passTicks_outbuf 1 s), ⟨passTicks_ie 1 s, passTicks_insvc 1 s⟩, ?_⟩
    exact ⟨passTicks_s0 1 s, passTicks_s1 1 s, passTicks_irPort 1 s⟩
  case outside =>
    rw [hexec]
    exact runStages_raise h (hst.trans (withData_outside (by simpa using hr) _))

/-! ### PUSH and POP -/

/-- R170: PUSH's first stage stores to its slot. -/
theorem pushFirst_eq (s : State) (rs1 : Reg) : pushFirst rs1 (sampleEvents s) =
    storeFirst s.pushAddr (s.reg rs1) { sampleEvents s with pc := s.pc } := by
  rw [sampleEvents_withPc, pushFirst, State.pushAddr, State.pushAddr, sampleEvents_reg, sampleEvents_reg]

/-- R172: POP's first stage loads from R15. -/
theorem popFirst_eq (s : State) : popFirst (sampleEvents s) =
    loadFirst (s.reg sp) { sampleEvents s with pc := s.pc } := by
  rw [sampleEvents_withPc, popFirst, sampleEvents_reg]

/-- R170: PUSH inside data memory. -/
theorem exec_push {s : State} {rs1 : Reg} (h : Runs 4 s) (hr : s.pushAddr.toNat + 4 ≤ s.dmemSize) :
    exec (.push rs1) s = .next { passTicks 4 s with
      regs := s.regs.set sp.val s.pushAddr, pc := s.pc, s0 := s.pushAddr, s1 := s.reg rs1,
      dmem := bytesWritten s.dmem s.pushAddr.toNat (s.reg rs1) 4, phase := .fetch } := by
  refine (storeAccess hr (pushFirst_eq s rs1)).whole h fun u haddr hword hmem hregs => ?_
  rw [pushLast, storeNext, State.setByte, haddr, hword, hmem, ← hword, ← hregs, ← haddr]
  rfl

/-- R172: POP inside data memory. -/
theorem exec_pop {s : State} {rd : Reg} (h : Runs 4 s) (hr : (s.reg sp).toNat + 4 ≤ s.dmemSize) :
    exec (.pop rd) s = .next { passTicks 4 s with
      regs := (s.regs.set sp.val (s.reg sp + 4)).set rd.val (Memory.readWord s.dmem (s.reg sp).toNat),
      pc := s.pc, s0 := s.reg sp, s1 := Memory.readWord s.dmem (s.reg sp).toNat, dmem := s.dmem, phase := .fetch } := by
  rw [← gatheredWord_four]
  refine (loadAccess hr (popFirst_eq s)).whole h fun u haddr hword hmem hregs => ?_
  have hgathered : (u.setReg sp (u.s0 + 4)).gathered 3 = gatheredWord s.dmem (s.reg sp).toNat 4 := by
    rw [gatheredWord, ← hword, ← hmem, ← haddr]
    rfl
  rw [popLast, loadLast, hgathered, ← hregs, ← haddr, ← hmem]
  rfl

end Sys2Proof.Machine
end

section
/-! PROOFS. PUSH and POP, each alone and one after the other (spec/41_data_transfer.md R170, R172). -/

namespace Sys2Proof.Machine

/-- R170: a stack pointer below 4 wraps to a slot at the end of the 2^32 addresses. -/
theorem pushAddr_wraps {s : State} (h : (s.reg 15).toNat < 4) (hsize : s.dmemSize < 2 ^ 32) :
    s.dmemSize < s.pushAddr.toNat + 4 := by
  have hslot : s.pushAddr.toNat = (2 ^ 32 - 4 + (s.reg 15).toNat) % 2 ^ 32 := BitVec.toNat_sub _ _
  omega

/-- Settles O32: the whole PUSH is `exec_push`, a slot out of range stops its first stage (`storeFirst_outside`), one
that wraps is out of range (`pushAddr_wraps`), and a PUSH that is cut has written its first bytes alone
(`exec_cutAccess`). -/
theorem pushStoresBelowTheStackPointer : Obligations.PushStoresBelowTheStackPointer := by
  unfold Obligations.PushStoresBelowTheStackPointer
  intro s rs1 hwf
  refine ⟨fun h hr => ?whole, fun h hr => ?fault, pushAddr_wraps, fun j hj h hr => ?cut⟩
  case whole =>
    obtain ⟨hbytes, hother⟩ := reads_bytesWritten (t := { passTicks 4 s with
      regs := s.regs.set sp.val s.pushAddr, pc := s.pc, s0 := s.pushAddr, s1 := s.reg rs1,
      dmem := bytesWritten s.dmem s.pushAddr.toNat (s.reg rs1) 4, phase := .fetch }) hwf rfl
    exact ⟨_, exec_push h hr, rfl, reg_setReg_same s sp s.pushAddr, hbytes, hother, rfl, rfl, passTicks_irPort 4 s, rfl,
      passTicks_flags 4 s, completed_passTicks _ _ _ _ _ _ _ _ h.1.1,
      fun r hne => reg_setReg_other s (r := sp) s.pushAddr (List.mem_singleton.not.1 hne), sameOutput_of_outbuf (passTicks_outbuf 4 s),
      passTicks_ie 4 s, passTicks_insvc 4 s⟩
  case fault =>
    have hfirst := (pushFirst_eq s rs1).trans (storeFirst_outside hr)
    rw [sampleEvents_withPc] at hfirst
    exact runStages_raise h hfirst
  case cut =>
    obtain ⟨t, ht, hcut⟩ := exec_cutAccess (i := .push rs1) (last := pushLast) rfl hj h rfl fun hpos =>
      storeAccess (hr.resolve_left hpos) (pushFirst_eq s rs1)
    obtain ⟨hbytes, hother⟩ := reads_bytesWritten hwf hcut.dmem
    exact ⟨t, ht, hbytes, hother, hcut.cut, hcut.regs, hcut.output, hcut.control, hcut.flags⟩

/-- Settles O33: the whole POP is `exec_pop`, whose destination is written after R15; out of range its first stage
stops it (`loadFirst_outside`), and a POP that is cut has written no register (`exec_cutAccess`). -/
theorem popLoadsFromTheStackPointer : Obligations.PopLoadsFromTheStackPointer := by
  unfold Obligations.PopLoadsFromTheStackPointer
  intro s rd
  refine ⟨fun h hr => ?whole, fun h hr => ?fault, fun j hj h hr => ?cut⟩
  case whole =>
    have hrd := reg_setReg_same (s.setReg sp (s.reg sp + 4)) rd (Memory.readWord s.dmem (s.reg sp).toNat)
    have hother := fun q => reg_setReg_other (s.setReg sp (s.reg sp + 4)) (r := rd) (q := q)
      (Memory.readWord s.dmem (s.reg sp).toNat)
    refine ⟨_, exec_pop h hr, hrd, fun hne => (hother 15 hne.symm).trans (reg_setReg_same s sp _), rfl, hrd.symm,
      passTicks_irPort 4 s, rfl, passTicks_flags 4 s, completed_passTicks _ _ _ _ _ _ _ _ h.1.1, fun q hq => ?_,
      fun _ => rfl, sameOutput_of_outbuf (passTicks_outbuf 4 s), passTicks_ie 4 s, passTicks_insvc 4 s⟩
    obtain ⟨hsp, hq⟩ := not_or.1 (List.mem_pair.not.1 hq)
    exact (hother q hq).trans (reg_setReg_other s _ hsp)
  case fault =>
    have hfirst := (popFirst_eq s).trans (loadFirst_outside hr)
    rw [sampleEvents_withPc] at hfirst
    exact runStages_raise h hfirst
  case cut =>
    obtain ⟨t, ht, hcut⟩ := exec_cutAccess (i := .pop rd) (last := popLast rd) rfl hj h rfl fun hpos =>
      loadAccess (hr.resolve_left hpos) (popFirst_eq s)
    exact ⟨t, ht, hcut.cut, hcut.regs, sameMemory_of_dmem hcut.dmem, hcut.output, hcut.control, hcut.flags⟩

/-! ### A POP after a PUSH -/

/-- R55: a word is its four bytes. -/
theorem append_bytes (v : Word) : v.extractLsb' (8 * 3) 8 ++ v.extractLsb' (8 * 2) 8 ++ v.extractLsb' (8 * 1) 8 ++
    v.extractLsb' (8 * 0) 8 = v := by
  apply BitVec.eq_of_getLsbD_eq
  intro b hb
  simp only [BitVec.getLsbD_append, BitVec.getLsbD_extractLsb']
  interval_cases b <;> rfl

/-- Settles O34: PUSH leaves the value in its slot and R15 at it (`pushStoresBelowTheStackPointer`); the next step runs
the POP from there (`step_of_fetched`), which reads that word and moves R15 back (`popLoadsFromTheStackPointer`). -/
theorem popUndoesPush : Obligations.PopUndoesPush := by
  unfold Obligations.PopUndoesPush
  intro s t rs1 rd w hwf h hr ht hb hno hw hd
  obtain ⟨whole, -⟩ := pushStoresBelowTheStackPointer s rs1 hwf
  obtain ⟨t', ht', haddr, hsp, hbytes, hother, -, -, -, -, hflags, completed, hregs, -⟩ := whole h hr
  cases ht'.symm.trans ht
  obtain ⟨-, hphase, hstatus, -, kept⟩ := completed_iff.1 completed
  have hreg : ∀ r, (fetched t w).reg r = t.reg r := fun r => sampleEvents_reg t r
  have hmem : SameMemory t (fetched t w) := sameMemory_of_dmem (sampleEvents_dmem t)
  have hsp' : (fetched t w).reg 15 = s.pushAddr := (hreg 15).trans hsp
  have hsize : (fetched t w).dmemSize = s.dmemSize := (sampleEvents_dmemSize t).trans kept.dmemSize
  obtain ⟨popWhole, -⟩ := popLoadsFromTheStackPointer (fetched t w) rd
  obtain ⟨u, hu, hrd, hsp15, -, -, -, hpc, huflags, ucompleted, uregs, umem, -⟩ :=
    popWhole (runs_fetched w hstatus hb) (by rw [hsp', hsize]; exact hr)
  obtain ⟨uticks, uphase, ustatus, -, -⟩ := completed_iff.1 ucompleted
  have hbyte : ∀ k < 4, (fetched t w).byteAt (s.pushAddr.toNat + k) = (s.reg rs1).extractLsb' (8 * k) 8 :=
    fun k hk => (hmem _).trans (hbytes k hk)
  refine ⟨u, (step_of_fetched hstatus hphase (by omega) hno hw hd).trans hu, ?word, fun hne => ?stack, hpc, uticks,
    uphase, ustatus, huflags.trans ((sampleEvents_flags t).trans hflags), fun r hr => ?regs, fun b hb' => ?memory⟩
  case word =>
    have hbyte0 := hbyte 0 (by omega)
    rw [Nat.add_zero] at hbyte0
    rw [hrd, hsp', hbyte 3 (by omega), hbyte 2 (by omega), hbyte 1 (by omega), hbyte0]
    exact append_bytes (s.reg rs1)
  case stack => rw [hsp15 hne, hsp', haddr, BitVec.sub_add_cancel]
  case regs => exact (uregs r hr).trans ((hreg r).trans (hregs r (fun hr' => hr (by simp_all))))
  case memory => exact (umem b).trans ((hmem b).trans (hother b hb'))

end Sys2Proof.Machine
end

section
/-! PROOFS. IN, OUT and OUTL (spec/44_io.md R270 to R274). -/

namespace Sys2Proof.Machine

/-! ### IN -/

/-- An unlisted key reads as the default. -/
theorem tableRead_of_unlisted {α : Type} (d : α) {a : Nat} :
    ∀ {m : List (Nat × α)}, (∀ e ∈ m, e.1 ≠ a) → tableRead d m a = d
  | [], _ => rfl
  | (k, v) :: m, h => by
    obtain ⟨hk, hm⟩ := List.forall_mem_cons.1 h
    rw [tableRead, if_neg (Ne.symm hk), tableRead_of_unlisted d hm]

/-- R260: in a well-formed state no sampling latches into a port other than 0 and 1. -/
theorem portIn_of_inv {s : State} (h : s.Inv) {p : Word} (hp : 2 ≤ p.toNat) : (sampleEvents s).portIn p = 0 := by
  obtain ⟨-, hports, -⟩ := h.sampled
  refine tableRead_of_unlisted 0#8 fun e he => ?_
  have := hports e he
  omega

/-- Settles O42: the stage writes the latch after its tick's sampling to the destination (`exec_writesReg`); what that is
with and without an event is `sampleEvents_none`, `portIn_sampleEvents_some` and `portIn_of_inv`. -/
theorem inReadsTheLatch : Obligations.InReadsTheLatch := by
  unfold Obligations.InReadsTheLatch
  intro s rd p h hw
  have hst : withPort (sampleEvents s) (fun p s' => .next (s'.setReg rd (zext (s'.portIn p)))) =
      .next ({ sampleEvents s with pc := s.pc + 1 }.setReg rd (zext ((sampleEvents s).portIn p))) := by
    rw [withPort, withExt_some (imemAt_sampled hw), sampleEvents_pc]
    rfl
  obtain ⟨t, ht, hval, frame, hflags⟩ := exec_writesReg (i := .inPort rd) h rfl hst
  refine ⟨t, ht, hval, fun hnone => ?none, fun e hlatch he hport => ?event, fun hinv hp => ?unlatched, frame, hflags⟩
  case none =>
    rw [hval, sampleEvents_none hnone]
    rfl
  case event =>
    rw [hval, portIn_sampleEvents_some he hlatch, if_pos hport]
    rfl
  case unlatched =>
    rw [hval, portIn_of_inv hinv hp]
    rfl

/-! ### OUT and OUTL -/

/-- R265: a port write appends its byte to that port's buffer. -/
theorem output_portOut_same {s : State} (hwf : tableWf [] s.outbuf = true) (p : Word) (b : Byte) :
    (s.portOut p b).output p = s.output p ++ [b] := tableRead_write_wf _ _ _ hwf

/-- R265: a port write leaves every other port's buffer alone. -/
theorem output_portOut_other (s : State) {p q : Word} (b : Byte) (h : q ≠ p) :
    (s.portOut p b).output q = s.output q :=
  tableRead_write_other _ _ (fun e => h (BitVec.eq_of_toNat_eq e)) _

theorem portOut_wf {s : State} (hwf : tableWf [] s.outbuf = true) (p : Word) (b : Byte) :
    tableWf [] (s.portOut p b).outbuf = true := tableWrite_wf _ _ _ hwf

theorem output_congr {s t : State} (h : t.outbuf = s.outbuf) (p : Word) : t.output p = s.output p := by
  rw [State.output, h, State.output]

/-- After the stage of OUT: the low byte is at the end of the port's buffer. -/
def outState (s : State) (rs1 : Reg) (p : Word) : State :=
  { sampleEvents s with pc := s.pc + 1, outbuf := (s.portOut p (outLowByte (s.reg rs1))).outbuf }

/-- R272: OUT's tick is its sampling, the byte at the end of the port's buffer, and the completion of its stage. -/
theorem exec_outPort {s : State} {rs1 : Reg} {p : Word} (h : Runs 1 s) (hw : s.imemAt s.pc = some p) :
    exec (.outPort rs1) s = .next { passTicks 1 s with
      outbuf := (s.portOut p (outLowByte (s.reg rs1))).outbuf, pc := s.pc + 1, phase := .fetch } := by
  have hst : withPort (sampleEvents s) (fun p s' => .next (s'.portOut p (outLowByte (s'.reg rs1)))) =
      .next (outState s rs1 p) := by
    rw [withPort, withExt_some (imemAt_sampled hw)]
    simp [outState, State.portOut, State.output, State.reg]
  refine (runStages_one (u := outState s rs1 p) h hst h.sampled_running).trans ?_
  simp [outState, passTicks]

/-- Settles O43: `exec_outPort` is the whole next state. -/
theorem outAppendsTheLowByte : Obligations.OutAppendsTheLowByte := by
  unfold Obligations.OutAppendsTheLowByte
  intro s rs1 p h hw hwf
  exact ⟨_, exec_outPort h hw, output_portOut_same hwf p _, fun q hq => output_portOut_other s _ hq, rfl,
    passTicks_flags 1 s, completed_passTicks _ _ _ _ _ _ _ _ h.1.1, fun r _ => passTicks_reg 1 s r,
    sameMemory_of_dmem (passTicks_dmem 1 s), ⟨passTicks_ie 1 s, passTicks_insvc 1 s⟩, passTicks_s0 1 s,
    passTicks_s1 1 s, passTicks_irPort 1 s⟩

/-- After stage 0 of OUTL: the low byte is out and the port number is held. -/
def outlState (s : State) (rs1 : Reg) (p : Word) : State :=
  { passTicks 1 s with
    outbuf := (s.portOut p (outLowByte (s.reg rs1))).outbuf, irPort := p, pc := s.pc + 1, phase := .exec 1 }

/-- R274: the tick of OUTL's stage 0. -/
theorem exec_outlPort_start {s : State} {rs1 : Reg} {p : Word} (h : Runs 1 s) (hw : s.imemAt s.pc = some p) :
    exec (.outlPort rs1) s = runFrom 2 1 [outLongSecond rs1] (outlState s rs1 p) := by
  have hst : outLongFirst rs1 (sampleEvents s) = .next { sampleEvents s with
      pc := s.pc + 1, irPort := p, outbuf := (s.portOut p (outLowByte (s.reg rs1))).outbuf } := by
    rw [outLongFirst, withPort, withExt_some (imemAt_sampled hw)]
    simp [State.portOut, State.output, State.reg]
  obtain ⟨⟨hs, hp⟩, hb⟩ := id h
  refine (runStages_start hp (outLongFirst rs1) [outLongSecond rs1]).trans
    ((runFrom_running hs (by omega) hst h.sampled_running).trans ?_)
  simp [outlState, passTicks]

/-- R274: OUTL ends two ticks later with both bytes at the end of the port's buffer. -/
theorem exec_outlPort {s : State} {rs1 : Reg} {p : Word} (h : Runs 2 s) (hw : s.imemAt s.pc = some p) :
    exec (.outlPort rs1) s = .next { passTicks 2 s with
      outbuf := ((s.portOut p (outLowByte (s.reg rs1))).portOut p (outHighByte (s.reg rs1))).outbuf, irPort := p,
      pc := s.pc + 1, phase := .fetch } := by
  rw [exec_outlPort_start (h.mono (by omega)) hw]
  obtain ⟨⟨hs, -⟩, hb⟩ := h
  have hrun : (outlState s rs1 p).status = .running := (passTicks_status 1 s).trans hs
  have hbudget : (outlState s rs1 p).t ≠ (outlState s rs1 p).budget := by
    simp [outlState]
    omega
  have hst : outLongSecond rs1 (sampleEvents (outlState s rs1 p)) = .next _ := rfl
  rw [runFrom_running hrun hbudget hst ((sampleEvents_status _).trans hrun)]
  simp [runFrom, outlState, State.portOut, State.output, State.reg, passTicks_succ 1, sampleEvents_eq]

/-- Settles O44: the whole OUTL is `exec_outlPort`, and `exec_outlPort_start` is what the budget cuts. -/
theorem outlAppendsTwoBytes : Obligations.OutlAppendsTwoBytes := by
  unfold Obligations.OutlAppendsTwoBytes
  intro s rs1 p hw hwf
  refine ⟨fun h => ?whole, fun h => ?cut⟩
  case whole =>
    have hsame : ((s.portOut p (outLowByte (s.reg rs1))).portOut p (outHighByte (s.reg rs1))).output p =
        s.output p ++ [outLowByte (s.reg rs1), outHighByte (s.reg rs1)] := by
      rw [output_portOut_same (portOut_wf hwf p _), output_portOut_same hwf, List.append_assoc]
      rfl
    exact ⟨_, exec_outlPort h hw, hsame,
      fun q hq => (output_portOut_other _ _ hq).trans (output_portOut_other s _ hq), rfl, passTicks_s0 2 s,
      passTicks_s1 2 s, rfl, passTicks_flags 2 s, completed_passTicks _ _ _ _ _ _ _ _ h.1.1,
      fun r _ => passTicks_reg 2 s r, sameMemory_of_dmem (passTicks_dmem 2 s), passTicks_ie 2 s, passTicks_insvc 2 s⟩
  case cut =>
    obtain ⟨hs, hb⟩ := h
    have hend := runFrom_budget (n := 2) (k := 1) (st := outLongSecond rs1) (rest := []) (s := outlState s rs1 p)
      ((passTicks_status 1 s).trans hs.1) (by simpa [outlState] using hb)
    exact ⟨_, (exec_outlPort_start ⟨hs, hb.le⟩ hw).trans hend, output_portOut_same hwf p _,
      fun q hq => output_portOut_other s _ hq, cutAfter_passTicks _ _ _ _ _ _ rfl, fun r _ => passTicks_reg 1 s r,
      sameMemory_of_dmem (passTicks_dmem 1 s), ⟨passTicks_ie 1 s, passTicks_insvc 1 s⟩, passTicks_flags 1 s⟩

end Sys2Proof.Machine
end
